-- ==== Sys2Proof/Word.lean ====
section
/-! DEFINITION. The word types of the D07 frame-integrity engine: a byte of the stream or of the
frame buffer, a 16-bit register, a 32-bit register or command word (spec 10_state.md rule R10,
30_encoding.md rule R80). -/

namespace Sys2Proof

/-- One byte of the wire or of the frame buffer `BUF` (20_memory.md R50). -/
abbrev Byte := BitVec 8

/-- A 16-bit register or immediate (10_state.md R10, 30_encoding.md R80). -/
abbrev Half := BitVec 16

/-- A 32-bit register, command word or response datum (10_state.md R10, 30_encoding.md R80, R89). -/
abbrev Word := BitVec 32

end Sys2Proof
end

