-- ==== Sys2Proof/Config.lean ====
section
/-! DEFINITION. The configuration record `P` of 00_scope.md rule R5, its reference value
`P_DEFAULT`, and the second parameter set of 41_integrity.md rule R153.

The spec leaves no value of a running block open (70_reset_and_hazards.md R259), so this file
holds no free value: what an implementation chooses is a field of `Params`, and every statement
about a state holds for every value of these fields. -/

namespace Sys2Proof

/-- The configuration record `P` (R5): one field per row of the table, in the table's order.
Sizes, offsets and lengths are counts, hence `Nat`; wire bytes, masks and integrity constants are
bits. `SUM_INIT < 2^16` and the masks and values below `2^8` (R6) hold by the types. -/
structure Params where
  /-- `BUF_SIZE`, bytes. -/
  bufSize : Nat
  /-- `CNT_W`, bits of each event counter. -/
  cntW : Nat
  /-- `G_SYNC_LEN`, bytes. -/
  gSyncLen : Nat
  /-- `G_SYNC[0]`. -/
  gSync0 : Byte
  /-- `G_SYNC[1]`. -/
  gSync1 : Byte
  /-- `G_SYNC[2]`. -/
  gSync2 : Byte
  /-- `G_HDR_LEN`: from the first sync byte to the last header byte, inclusive (90_conflicts.md C6). -/
  gHdrLen : Nat
  /-- `G_OFF_ID`. -/
  gOffId : Nat
  /-- `G_W_ID`, 1 or 2 bytes. -/
  gWId : Nat
  /-- `G_OFF_TYPE`. -/
  gOffType : Nat
  /-- `G_RSP_BIT`, 0 to 7. -/
  gRspBit : Nat
  /-- `G_OFF_LEN`. -/
  gOffLen : Nat
  /-- `G_W_LEN`, 1 or 2 bytes. -/
  gWLen : Nat
  /-- `G_CK_LEN`, bytes. -/
  gCkLen : Nat
  /-- `G_MAX_BODY`. -/
  gMaxBody : Nat
  /-- `CRC_POLY_REFL`. -/
  crcPolyRefl : Word
  /-- `CRC_INIT`. -/
  crcInit : Word
  /-- `CRC_XOROUT`. -/
  crcXorOut : Word
  /-- `A_FRAME_LEN`. -/
  aFrameLen : Nat
  /-- `A_SYNC_LEN`, bytes. -/
  aSyncLen : Nat
  /-- `A_SYNC[0]`. -/
  aSync0 : Byte
  /-- `A_SYNC[1]`. -/
  aSync1 : Byte
  /-- `A_HDR_LEN`. -/
  aHdrLen : Nat
  /-- `A_CK_LEN`, bytes. -/
  aCkLen : Nat
  /-- `A_CK_OFF`. -/
  aCkOff : Nat
  /-- `SUM_INIT`. -/
  sumInit : Half
  /-- `A_OFF_FTYPE`. -/
  aOffFtype : Nat
  /-- `A_IMU_MASK`. -/
  aImuMask : Byte
  /-- `A_IMU_VAL`. -/
  aImuVal : Byte
  /-- `A_IREHS_MASK`. -/
  aIrehsMask : Byte
  /-- `A_IREHS_VAL`. -/
  aIrehsVal : Byte
  deriving DecidableEq, Repr

/-- `P_DEFAULT`, the reference configuration: the column *default* of R5's table. -/
def Params.default : Params where
  bufSize := 4096
  cntW := 16
  gSyncLen := 3
  gSync0 := 0xAA
  gSync1 := 0x44
  gSync2 := 0x12
  gHdrLen := 28
  gOffId := 4
  gWId := 2
  gOffType := 6
  gRspBit := 7
  gOffLen := 8
  gWLen := 2
  gCkLen := 4
  gMaxBody := 4064
  crcPolyRefl := 0xEDB88320
  crcInit := 0xFFFFFFFF
  crcXorOut := 0xFFFFFFFF
  aFrameLen := 238
  aSyncLen := 2
  aSync0 := 0x90
  aSync1 := 0xEB
  aHdrLen := 6
  aCkLen := 2
  aCkOff := 236
  sumInit := 0
  aOffFtype := 6
  aImuMask := 0x01
  aImuVal := 0x01
  aIrehsMask := 0x02
  aIrehsVal := 0x02

/-- The other parameter set that 41_integrity.md R153 names: initial value 0 and no final XOR. -/
def Params.alternative : Params :=
  { Params.default with crcInit := 0, crcXorOut := 0 }

end Sys2Proof
end

