-- ==== Sys2Proof/Syntax.lean ====
section
/-! DEFINITION. The commands of the D07 frame-integrity engine: one constructor of `Instr` per row
of spec/opcode_table.json (28 rows, 23 mnemonics; 30_encoding.md rules R80 to R87). The stream
events `Byte` and `Err` and the event `Reset` have no encoding and no row (40_frame_engine.md,
introduction); they are inputs of the ports, in Machine/State.lean. -/

namespace Sys2Proof

/-- The device path that `MODE` selects: 0 is the GNSS path, 1 the attitude path (10_state.md R12). -/
inductive DevicePath where
  | gnss
  | attitude
  deriving DecidableEq, Repr

/-- The function of the standalone integrity unit: `XALG` 0 is CRC-32, 1 is SUM16 (10_state.md R32). -/
inductive Alg where
  | crc32
  | sum16
  deriving DecidableEq, Repr

/-- The payload slot of a load: 0 `RAW`, 1 `STD`, 2 `IMU`, 3 `IREHS` (30_encoding.md R80). -/
inductive Slot where
  | raw
  | std
  | imu
  | irehs
  deriving DecidableEq, Repr

/-- A command. An operand that the command word holds as bits is a bit vector of exactly its legal
bits (R82 to R84); the width `w` of a bit field is the number the assembler writes, 1 to 32, of
which the word holds `w - 1` (R84, R90). A load has two rows in the table, absolute (`am = 0`) and
cursor with post-increment (`am = 1`), hence two constructors. -/
inductive Instr where
  /-- `NOP` (43_control.md R190). -/
  | nop
  /-- `SETMODE m` (R191). -/
  | setmode (m : DevicePath)
  /-- `START` (R192). -/
  | start
  /-- `STOP` (R193). -/
  | stop
  /-- `ACK` (R194). -/
  | ack
  /-- `FLUSH` (R195). -/
  | flush
  /-- `CLRERR` (R196). -/
  | clrerr
  /-- `CLRCNT` (R197). -/
  | clrcnt
  /-- `SETIE e` (R198). -/
  | setie (e : BitVec 3)
  /-- `RDREG i` (R199). -/
  | rdreg (i : BitVec 6)
  /-- `CKINIT a` (41_integrity.md R150). -/
  | ckinit (a : Alg)
  /-- `CKBYTE b` (R151). -/
  | ckbyte (b : Byte)
  /-- `CKREAD` (R152). -/
  | ckread
  /-- `SEEK off` (42_unpack.md R160). -/
  | seek (off : Half)
  /-- `SEEKB off` (R161). -/
  | seekb (off : Half)
  /-- `LDU8 slot, off` (R166). -/
  | ldu8 (slot : Slot) (off : Half)
  /-- `LDU8 slot, (CUR)+` (R166). -/
  | ldu8Cur (slot : Slot)
  /-- `LDS8 slot, off` (R167). -/
  | lds8 (slot : Slot) (off : Half)
  /-- `LDS8 slot, (CUR)+` (R167). -/
  | lds8Cur (slot : Slot)
  /-- `LDU16 slot, off` (R168). -/
  | ldu16 (slot : Slot) (off : Half)
  /-- `LDU16 slot, (CUR)+` (R168). -/
  | ldu16Cur (slot : Slot)
  /-- `LDS16 slot, off` (R169). -/
  | lds16 (slot : Slot) (off : Half)
  /-- `LDS16 slot, (CUR)+` (R169). -/
  | lds16Cur (slot : Slot)
  /-- `LD32 slot, off` (R170). -/
  | ld32 (slot : Slot) (off : Half)
  /-- `LD32 slot, (CUR)+` (R170). -/
  | ld32Cur (slot : Slot)
  /-- `BITS lsb, w` (R171). -/
  | bits (lsb : BitVec 5) (w : Nat)
  /-- `SBITS lsb, w` (R172). -/
  | sbits (lsb : BitVec 5) (w : Nat)
  /-- `FLAGS p` (R173). -/
  | flags (p : BitVec 3)
  deriving DecidableEq, Repr

/-- The row's mnemonic in spec/opcode_table.json; the two rows of a load share theirs (R86). -/
def Instr.mnemonic : Instr → String
  | .nop => "NOP"
  | .setmode _ => "SETMODE"
  | .start => "START"
  | .stop => "STOP"
  | .ack => "ACK"
  | .flush => "FLUSH"
  | .clrerr => "CLRERR"
  | .clrcnt => "CLRCNT"
  | .setie _ => "SETIE"
  | .rdreg _ => "RDREG"
  | .ckinit _ => "CKINIT"
  | .ckbyte _ => "CKBYTE"
  | .ckread => "CKREAD"
  | .seek _ => "SEEK"
  | .seekb _ => "SEEKB"
  | .ldu8 _ _ => "LDU8"
  | .ldu8Cur _ => "LDU8"
  | .lds8 _ _ => "LDS8"
  | .lds8Cur _ => "LDS8"
  | .ldu16 _ _ => "LDU16"
  | .ldu16Cur _ => "LDU16"
  | .lds16 _ _ => "LDS16"
  | .lds16Cur _ => "LDS16"
  | .ld32 _ _ => "LD32"
  | .ld32Cur _ => "LD32"
  | .bits _ _ => "BITS"
  | .sbits _ _ => "SBITS"
  | .flags _ => "FLAGS"

end Sys2Proof
end

