-- ==== Sys2Proof/WellFormed.lean ====
section
/-! DEFINITION. Well-formed commands (30_encoding.md R82 to R84) and well-formed configurations
(00_scope.md R6). Both are decidable propositions. -/

namespace Sys2Proof

/-- The width of a bit field that a command word can hold: 1 to 32 (30_encoding.md R84). -/
abbrev FieldWidth (w : Nat) : Prop := 1 ≤ w ∧ w ≤ 32

/-- A command that has an encoding. Every other operand has exactly its legal bits by its type, so
the only check is the width of a bit field; `lsb + w > 32` is *not* ill formed, it decodes and
answers `BADARG` (30_encoding.md R87). -/
def Instr.wellFormed : Instr → Bool
  | .bits _ w => decide (FieldWidth w)
  | .sbits _ w => decide (FieldWidth w)
  | .nop => true
  | .setmode _ => true
  | .start => true
  | .stop => true
  | .ack => true
  | .flush => true
  | .clrerr => true
  | .clrcnt => true
  | .setie _ => true
  | .rdreg _ => true
  | .ckinit _ => true
  | .ckbyte _ => true
  | .ckread => true
  | .seek _ => true
  | .seekb _ => true
  | .ldu8 _ _ => true
  | .ldu8Cur _ => true
  | .lds8 _ _ => true
  | .lds8Cur _ => true
  | .ldu16 _ _ => true
  | .ldu16Cur _ => true
  | .lds16 _ _ => true
  | .lds16Cur _ => true
  | .ld32 _ _ => true
  | .ld32Cur _ => true
  | .flags _ => true

/-- The fixed lengths and widths of R6. -/
abbrev Params.FixedWidths (p : Params) : Prop :=
  p.gSyncLen = 3 ∧ p.gCkLen = 4 ∧ p.aCkLen = 2 ∧ p.aSyncLen = 2 ∧ p.cntW = 16

/-- R6 on the GNSS header fields: each lies behind the sync marker and inside the header. -/
abbrev Params.HeaderFieldsFit (p : Params) : Prop :=
  (p.gWId = 1 ∨ p.gWId = 2) ∧ (p.gWLen = 1 ∨ p.gWLen = 2) ∧ p.gRspBit ≤ 7 ∧
  p.gSyncLen ≤ p.gOffId ∧ p.gSyncLen ≤ p.gOffType ∧ p.gSyncLen ≤ p.gOffLen ∧
  p.gOffId + p.gWId ≤ p.gHdrLen ∧ p.gOffType + 1 ≤ p.gHdrLen ∧ p.gOffLen + p.gWLen ≤ p.gHdrLen

/-- R6 on the sizes: `G_MAX_BODY = BUF_SIZE - G_HDR_LEN - G_CK_LEN >= 0` over the integers, written
as a sum so that no natural-number subtraction hides a negative value. -/
abbrev Params.BodyFits (p : Params) : Prop :=
  p.gMaxBody + p.gHdrLen + p.gCkLen = p.bufSize

/-- R6 on the attitude window; `A_CK_OFF = A_FRAME_LEN - A_CK_LEN` is written as a sum. -/
abbrev Params.WindowFits (p : Params) : Prop :=
  p.aSyncLen ≤ p.aHdrLen ∧ p.aHdrLen ≤ p.aCkOff ∧ p.aCkOff + p.aCkLen = p.aFrameLen ∧
  p.aSyncLen ≤ p.aOffFtype ∧ p.aOffFtype < p.aCkOff ∧
  p.aFrameLen ≤ p.bufSize ∧ p.bufSize ≤ 65535

/-- A well-formed configuration (00_scope.md R6). -/
abbrev Params.WF (p : Params) : Prop :=
  p.FixedWidths ∧ p.HeaderFieldsFit ∧ p.BodyFits ∧ p.WindowFits

end Sys2Proof
end

