-- ==== Sys2Proof/Decode.lean ====
section
/-! DEFINITION. The command word (30_encoding.md R80 to R88): its fields, the decoder, total on all
2^32 words and refusing by name, the encoder, and the opcode map of R86 as data. -/

namespace Sys2Proof

/-- The fields of a command word (R80), highest bits first. -/
structure Fields where
  /-- bits 31:26 -/
  opc : BitVec 6
  /-- bits 25:24 -/
  slot : BitVec 2
  /-- bit 23 -/
  am : BitVec 1
  /-- bits 22:16 -/
  rsv : BitVec 7
  /-- bits 15:0 -/
  imm : BitVec 16
  deriving DecidableEq, Repr

/-- The fields of a word (R80). -/
def fieldsOf (w : Word) : Fields where
  opc := w.extractLsb' 26 6
  slot := w.extractLsb' 24 2
  am := w.extractLsb' 23 1
  rsv := w.extractLsb' 16 7
  imm := w.extractLsb' 0 16

/-- The word made of the given fields (R80). -/
def wordOf (f : Fields) : Word := f.opc ++ f.slot ++ f.am ++ f.rsv ++ f.imm

/-- Why a word is illegal: the four cases of R87. -/
inductive Illegal where
  /-- The opcode has no row: `0x0A` to `0x0F`, `0x13` to `0x1F`, `0x27`, `0x2B` to `0x3F`. -/
  | unassignedOpcode
  /-- A bit of `rsv` is set. -/
  | reservedBits
  /-- A format Z, I or B word has `slot` or `am` non-zero. -/
  | slotOrMode
  /-- An immediate has a bit set outside its legal bits (R81, R82, R84). -/
  | immediateBits
  /-- A format L word has `am = 1` and `imm` not 0. -/
  | cursorImmediate
  deriving DecidableEq, Repr

/-- The codes of `slot` (R80). -/
def slotOf (v : BitVec 2) : Slot :=
  if v = 0 then .raw else if v = 1 then .std else if v = 2 then .imu else .irehs

/-- The codes of `slot` (R80). -/
def slotCode : Slot → BitVec 2
  | .raw => 0
  | .std => 1
  | .imu => 2
  | .irehs => 3

/-- The codes of `MODE` (10_state.md R12). -/
def pathOf (v : BitVec 1) : DevicePath := if v = 0 then .gnss else .attitude

/-- The codes of `MODE` (10_state.md R12). -/
def pathCode : DevicePath → BitVec 1
  | .gnss => 0
  | .attitude => 1

/-- The codes of `XALG` (10_state.md R32). -/
def algOf (v : BitVec 1) : Alg := if v = 0 then .crc32 else .sum16

/-- The codes of `XALG` (10_state.md R32). -/
def algCode : Alg → BitVec 1
  | .crc32 => 0
  | .sum16 => 1

/-- The check that formats Z, I and B share: `rsv`, `slot` and `am` are 0 (R81, R82, R84). -/
def noLoadFields (f : Fields) (k : Except Illegal Instr) : Except Illegal Instr :=
  if f.rsv ≠ 0 then .error .reservedBits
  else if f.slot ≠ 0 ∨ f.am ≠ 0 then .error .slotOrMode
  else k

/-- Format Z (R81). -/
def formatZ (f : Fields) (i : Instr) : Except Illegal Instr :=
  noLoadFields f (if f.imm ≠ 0 then .error .immediateBits else .ok i)

/-- Format I (R82): the operand is the low `n` bits of `imm`, the other bits are 0. -/
def formatI (f : Fields) (n : Nat) (mk : BitVec n → Instr) : Except Illegal Instr :=
  noLoadFields f
    (if f.imm ≠ (f.imm.setWidth n).setWidth 16 then .error .immediateBits
     else .ok (mk (f.imm.setWidth n)))

/-- Format L (R83): `am = 0` takes `imm` as the offset, `am = 1` needs `imm` to be 0. -/
def formatL (f : Fields) (abs : Slot → Half → Instr) (cur : Slot → Instr) :
    Except Illegal Instr :=
  if f.rsv ≠ 0 then .error .reservedBits
  else if f.am = 0 then .ok (abs (slotOf f.slot) f.imm)
  else if f.imm ≠ 0 then .error .cursorImmediate
  else .ok (cur (slotOf f.slot))

/-- Format B (R84): `imm[4:0]` is `lsb`, `imm[12:8]` is the width minus one, the other bits are 0. -/
def formatB (f : Fields) (mk : BitVec 5 → Nat → Instr) : Except Illegal Instr :=
  noLoadFields f
    (if f.imm.extractLsb' 5 3 ≠ 0 ∨ f.imm.extractLsb' 13 3 ≠ 0 then .error .immediateBits
     else .ok (mk (f.imm.extractLsb' 0 5) ((f.imm.extractLsb' 8 5).toNat + 1)))

/-- The instruction that the fields of a command word stand for (R86), or why there is none (R87). -/
def decodeFields (f : Fields) : Except Illegal Instr :=
  match f.opc.toNat with
  | 0x00 => formatZ f .nop
  | 0x01 => formatI f 1 (fun m => .setmode (pathOf m))
  | 0x02 => formatZ f .start
  | 0x03 => formatZ f .stop
  | 0x04 => formatZ f .ack
  | 0x05 => formatZ f .flush
  | 0x06 => formatZ f .clrerr
  | 0x07 => formatZ f .clrcnt
  | 0x08 => formatI f 3 .setie
  | 0x09 => formatI f 6 .rdreg
  | 0x10 => formatI f 1 (fun a => .ckinit (algOf a))
  | 0x11 => formatI f 8 .ckbyte
  | 0x12 => formatZ f .ckread
  | 0x20 => formatI f 16 .seek
  | 0x21 => formatI f 16 .seekb
  | 0x22 => formatL f .ldu8 .ldu8Cur
  | 0x23 => formatL f .lds8 .lds8Cur
  | 0x24 => formatL f .ldu16 .ldu16Cur
  | 0x25 => formatL f .lds16 .lds16Cur
  | 0x26 => formatL f .ld32 .ld32Cur
  | 0x28 => formatB f .bits
  | 0x29 => formatB f .sbits
  | 0x2A => formatI f 3 .flags
  | _ => .error .unassignedOpcode

/-- Decoding of a command word, total on all 2^32 words (R87). -/
def decode (w : Word) : Except Illegal Instr := decodeFields (fieldsOf w)

/-- Fields of a format Z or I word (R81, R82): every bit outside `opc` and `imm` is 0. -/
def plainFields (opc : BitVec 6) (imm : BitVec 16) : Fields where
  opc := opc
  slot := 0
  am := 0
  rsv := 0
  imm := imm

/-- Fields of an absolute load (R83, `am = 0`). -/
def absFields (opc : BitVec 6) (slot : Slot) (off : Half) : Fields where
  opc := opc
  slot := slotCode slot
  am := 0
  rsv := 0
  imm := off

/-- Fields of a cursor load (R83, `am = 1`, `imm = 0`). -/
def curFields (opc : BitVec 6) (slot : Slot) : Fields where
  opc := opc
  slot := slotCode slot
  am := 1
  rsv := 0
  imm := 0

/-- The immediate of a bit-field command (R84): zeros, `w - 1`, zeros, `lsb`. -/
def fieldImm (lsb : BitVec 5) (w : Nat) : BitVec 16 :=
  (0 : BitVec 3) ++ BitVec.ofNat 5 (w - 1) ++ (0 : BitVec 3) ++ lsb

/-- The fields of a command's word (R80 to R86). -/
def encodeFields : Instr → Fields
  | .nop => plainFields 0x00 0
  | .setmode m => plainFields 0x01 ((pathCode m).setWidth 16)
  | .start => plainFields 0x02 0
  | .stop => plainFields 0x03 0
  | .ack => plainFields 0x04 0
  | .flush => plainFields 0x05 0
  | .clrerr => plainFields 0x06 0
  | .clrcnt => plainFields 0x07 0
  | .setie e => plainFields 0x08 (e.setWidth 16)
  | .rdreg i => plainFields 0x09 (i.setWidth 16)
  | .ckinit a => plainFields 0x10 ((algCode a).setWidth 16)
  | .ckbyte b => plainFields 0x11 (b.setWidth 16)
  | .ckread => plainFields 0x12 0
  | .seek off => plainFields 0x20 off
  | .seekb off => plainFields 0x21 off
  | .ldu8 slot off => absFields 0x22 slot off
  | .ldu8Cur slot => curFields 0x22 slot
  | .lds8 slot off => absFields 0x23 slot off
  | .lds8Cur slot => curFields 0x23 slot
  | .ldu16 slot off => absFields 0x24 slot off
  | .ldu16Cur slot => curFields 0x24 slot
  | .lds16 slot off => absFields 0x25 slot off
  | .lds16Cur slot => curFields 0x25 slot
  | .ld32 slot off => absFields 0x26 slot off
  | .ld32Cur slot => curFields 0x26 slot
  | .bits lsb w => plainFields 0x28 (fieldImm lsb w)
  | .sbits lsb w => plainFields 0x29 (fieldImm lsb w)
  | .flags p => plainFields 0x2A (p.setWidth 16)

/-- The command word of a well-formed command (R80 to R86). -/
def encode (i : Instr) : Word := wordOf (encodeFields i)

/-- One row of the opcode map (R86): a word selects the row when `w & mask = pattern`. -/
structure OpcodeRow where
  mnemonic : String
  pattern : Word
  mask : Word
  deriving DecidableEq, Repr

/-- The opcode map, the 28 rows of R86 in the table's order. -/
def opcodeMap : List OpcodeRow :=
  [ ⟨"NOP", 0x00000000, 0xFFFFFFFF⟩,
    ⟨"SETMODE", 0x04000000, 0xFFFFFFFE⟩,
    ⟨"START", 0x08000000, 0xFFFFFFFF⟩,
    ⟨"STOP", 0x0C000000, 0xFFFFFFFF⟩,
    ⟨"ACK", 0x10000000, 0xFFFFFFFF⟩,
    ⟨"FLUSH", 0x14000000, 0xFFFFFFFF⟩,
    ⟨"CLRERR", 0x18000000, 0xFFFFFFFF⟩,
    ⟨"CLRCNT", 0x1C000000, 0xFFFFFFFF⟩,
    ⟨"SETIE", 0x20000000, 0xFFFFFFF8⟩,
    ⟨"RDREG", 0x24000000, 0xFFFFFFC0⟩,
    ⟨"CKINIT", 0x40000000, 0xFFFFFFFE⟩,
    ⟨"CKBYTE", 0x44000000, 0xFFFFFF00⟩,
    ⟨"CKREAD", 0x48000000, 0xFFFFFFFF⟩,
    ⟨"SEEK", 0x80000000, 0xFFFF0000⟩,
    ⟨"SEEKB", 0x84000000, 0xFFFF0000⟩,
    ⟨"LDU8", 0x88000000, 0xFCFF0000⟩,
    ⟨"LDU8", 0x88800000, 0xFCFFFFFF⟩,
    ⟨"LDS8", 0x8C000000, 0xFCFF0000⟩,
    ⟨"LDS8", 0x8C800000, 0xFCFFFFFF⟩,
    ⟨"LDU16", 0x90000000, 0xFCFF0000⟩,
    ⟨"LDU16", 0x90800000, 0xFCFFFFFF⟩,
    ⟨"LDS16", 0x94000000, 0xFCFF0000⟩,
    ⟨"LDS16", 0x94800000, 0xFCFFFFFF⟩,
    ⟨"LD32", 0x98000000, 0xFCFF0000⟩,
    ⟨"LD32", 0x98800000, 0xFCFFFFFF⟩,
    ⟨"BITS", 0xA0000000, 0xFFFFE0E0⟩,
    ⟨"SBITS", 0xA4000000, 0xFFFFE0E0⟩,
    ⟨"FLAGS", 0xA8000000, 0xFFFFFFF8⟩ ]

/-- The word that the low `nbits` bits of `w` stand for on the command port: one 32-bit word, bit 0
least significant (R80), the bits above `nbits` zero. -/
def tableWord (nbits w : Nat) : Word := BitVec.ofNat 32 (w % 2 ^ nbits)

/-- The instruction the decoder reads from a word of spec/opcode_table.json. -/
def decodeTableWord (nbits w : Nat) : Option Instr :=
  match decode (tableWord nbits w) with
  | .ok i => some i
  | .error _ => none

end Sys2Proof
end

