-- ==== Sys2Proof/Machine/State.lean ====
section
/-! DEFINITION. The state of one D07 frame-integrity engine (10_state.md R10), the inputs and the
response of its ports (R40 to R42), the reasons a step can stop, and the reset state (R43). -/

namespace Sys2Proof.Machine

/-- The values of `ST` (10_state.md R13), in the order of their codes 0 to 7. -/
inductive EngineState where
  /-- 0: not enabled, takes no bytes. -/
  | idle
  /-- 1: GNSS, scanning for the sync marker. -/
  | hunt
  /-- 2: GNSS, storing header bytes after the sync. -/
  | header
  /-- 3: GNSS, storing body bytes. -/
  | body
  /-- 4: GNSS, storing the four CRC bytes. -/
  | trailer
  /-- 5: attitude, storing the fixed window. -/
  | collect
  /-- 6: a frame is held. -/
  | done
  /-- 7: a transport failure was reported. -/
  | fault
  deriving DecidableEq, Repr

/-- The values of `RESULT` (10_state.md R28), in the order of their codes 0 to 4; codes 5 to 15
never occur and have no constructor. -/
inductive ResultCode where
  /-- 0: nothing to report. -/
  | none
  /-- 1: a valid frame is held. -/
  | ok
  /-- 2: attitude, integrity mismatch, the frame is held but unreadable. -/
  | eCksum
  /-- 3: attitude, sync marker not at offset 0, the frame is held but unreadable. -/
  | eSync
  /-- 4: transport failure. -/
  | eIo
  deriving DecidableEq, Repr

/-- The status a command answers (60_exceptions.md R222), in the order of the codes 0 to 6; codes 7
to 15 never occur and have no constructor. -/
inductive Status where
  /-- 0: the command was performed. -/
  | ok
  /-- 1: the word matches no row of the opcode map. -/
  | illegal
  /-- 2: the command is not legal in the current `ST`. -/
  | badState
  /-- 3: a load while the held frame failed validation. -/
  | notOk
  /-- 4: a load names a slot that the held frame does not carry. -/
  | absent
  /-- 5: a load's field does not lie inside the held frame. -/
  | range
  /-- 6: an operand decodes but names nothing. -/
  | badArg
  deriving DecidableEq, Repr

/-- The response to a command (30_encoding.md R89): the ports `rsp_status` and `rsp_data`. -/
structure Response where
  status : Status
  data : Word
  deriving DecidableEq, Repr

/-- The input ports at one rising clock edge (10_state.md R40). `cmd_ready` is constant 1, so a
command word with `cmdValid` is always taken (R42); `in_ready` is an output (R41). -/
structure Cycle where
  /-- `rst`: synchronous reset, active high. -/
  rst : Bool
  /-- `in_valid`: the transport offers a byte. -/
  inValid : Bool
  /-- `in_data`: the offered byte. -/
  inData : Byte
  /-- `in_err`: the transport reports that the read failed. -/
  inErr : Bool
  /-- `cmd_valid`: the host offers a command word. -/
  cmdValid : Bool
  /-- `cmd_word`: the command word. -/
  cmdWord : Word
  deriving DecidableEq, Repr

/-- The frame buffer `BUF` (20_memory.md R50) as (address, byte) pairs, addresses strictly rising.
An address that is not listed holds a byte that nothing has written: it has no value (R56; log
entry 1). -/
abbrev Memory := List Host.Cell

/-- The canonical form: addresses strictly rise. An unlisted address has no value, so no entry can
equal what an unlisted address reads as. -/
abbrev Memory.wf (m : Memory) : Prop := m.Pairwise (fun x y => x.1 < y.1)

/-- The state of one block: the registers of R10's table and `BUF`, then three fields of the model's
own: the configuration the block was built with, the inputs still to come, and the response. -/
structure State where
  /-- `P` (00_scope.md R5): fixed when the block is built; no step writes it (log entry 2). -/
  cfg : Params
  /-- `MODE` (R12). -/
  mode : DevicePath
  /-- `ST` (R13). -/
  st : EngineState
  /-- `POS` (R14): bytes of the current frame already stored. -/
  pos : Half
  /-- `SHREG` (R15): the scanner's window, the newest byte in bits 7:0. -/
  shreg : BitVec 24
  /-- `SHCNT` (R16): valid bytes in `SHREG`. -/
  shcnt : BitVec 2
  /-- `CK` (R17): the running integrity accumulator of the frame in progress. -/
  ck : Word
  /-- `H_ID` (R19). -/
  hId : Half
  /-- `H_TYPE` (R20). -/
  hType : Byte
  /-- `H_RSP` (R21). -/
  hRsp : Bool
  /-- `H_LEN` (R22). -/
  hLen : Half
  /-- `FTYPE` (R23). -/
  ftype : Byte
  /-- `HAS_IMU` (R24). -/
  hasImu : Bool
  /-- `HAS_IREHS` (R24). -/
  hasIrehs : Bool
  /-- `FLEN` (R25). -/
  flen : Half
  /-- `RXCK` (R26). -/
  rxck : Word
  /-- `CALC` (R27). -/
  calcCk : Word
  /-- `RESULT` (R28). -/
  result : ResultCode
  /-- `ACC` (R30). -/
  acc : Word
  /-- `CUR` (R31). -/
  cur : Half
  /-- `XALG` (R32). -/
  xalg : Alg
  /-- `XACC` (R33). -/
  xacc : Word
  /-- `CNT_OK` (R34). -/
  cntOk : Half
  /-- `CNT_CKERR` (R34). -/
  cntCkerr : Half
  /-- `CNT_HDRERR` (R34). -/
  cntHdrerr : Half
  /-- `CNT_SYNCERR` (R34). -/
  cntSyncerr : Half
  /-- `CNT_SKIP` (R34). -/
  cntSkip : Half
  /-- `IE` (R35). -/
  ie : BitVec 3
  /-- `BUF` (20_memory.md R50). -/
  buf : Memory
  /-- The response that the last step presents, if that step was a command (R42; log entry 4). -/
  rsp : Option Response
  /-- The clock cycles whose inputs are still to be taken, the next one first (log entry 3). The
  head may be a cycle whose stream event has been taken and whose command has not. -/
  cycles : List Cycle
  deriving DecidableEq, Repr

/-- Why a step stops. No step from a state that a run with a well-formed configuration reaches
stops so (`State.Inv` in Sys2Proof/Safety.lean rules both out). -/
inductive Fault where
  /-- Raised by a read of `BUF` at an address that nothing has written (20_memory.md R56: such a
  byte has no value and no rule can observe one). Safe: the model stops where the spec gives no
  value. -/
  | unwrittenByte (addr : Nat)
  /-- Raised by an access to `BUF` at `BUF_SIZE` or above (20_memory.md R50: no such address).
  Safe: the model stops where the spec has no address. -/
  | noSuchAddress (addr : Nat)
  deriving DecidableEq, Repr

/-- Why a step is refused. -/
inductive Refusal where
  /-- An instruction that has no meaning yet, raised by `exec` only. No arm of `exec` answers it.
  Safe: the model stops. -/
  | notModelled (mnemonic : String)
  /-- Raised by `step` when the configuration is not well formed (00_scope.md R6: the model refuses
  it). Safe: the spec gives such a block no behaviour. -/
  | illFormedConfig
  deriving DecidableEq, Repr

/-- The registers right after reset (10_state.md R43), for a block built with configuration `p`. -/
def State.resetWith (p : Params) : State where
  cfg := p
  mode := .gnss
  st := .idle
  pos := 0
  shreg := 0
  shcnt := 0
  ck := p.crcInit
  hId := 0
  hType := 0
  hRsp := false
  hLen := 0
  ftype := 0
  hasImu := false
  hasIrehs := false
  flen := 0
  rxck := 0
  calcCk := 0
  result := .none
  acc := 0
  cur := 0
  xalg := .crc32
  xacc := p.crcInit
  cntOk := 0
  cntCkerr := 0
  cntHdrerr := 0
  cntSyncerr := 0
  cntSkip := 0
  ie := 0
  buf := []
  rsp := none
  cycles := []

/-- The machine right after reset, built with `P_DEFAULT`; nothing in `BUF` has been written, and
no input is waiting. -/
def State.reset : State := State.resetWith Params.default

end Sys2Proof.Machine
end

