-- ==== Sys2Proof/Machine/Operands.lean ====
section
/-! DEFINITION. What the commands' operands stand for: the body offset, the address and the slot of
a load, sign and zero extension, and the bit fields of `ACC`. The register map that `RDREG` reads
stands in Machine/Flags.lean, beside the `STATUS` word. -/

namespace Sys2Proof.Machine

/-- `BODY_OFF` (10_state.md R29): computed from `MODE`, not stored. -/
def State.bodyOff (s : State) : Half :=
  match s.mode with
  | .gnss => BitVec.ofNat 16 s.cfg.gHdrLen
  | .attitude => BitVec.ofNat 16 s.cfg.aHdrLen

/-- Where a load finds its address: the row's `am` bit with its operand (30_encoding.md R83, R85). -/
inductive AddrMode where
  /-- `am = 0`: the absolute byte offset `imm`. -/
  | absolute (off : Half)
  /-- `am = 1`: the cursor, incremented after the load. -/
  | cursor
  deriving DecidableEq, Repr

/-- The effective address of a load (30_encoding.md R85, 42_unpack.md R162): `imm` or `CUR`. -/
def State.effectiveAddr (s : State) : AddrMode → Half
  | .absolute off => off
  | .cursor => s.cur

/-- `CUR` after a load of `n` bytes that responds `OK` (42_unpack.md R162): advanced modulo 2^16 in
cursor mode, else unchanged. -/
def State.cursorAfter (s : State) (n : Nat) : AddrMode → Half
  | .absolute _ => s.cur
  | .cursor => s.cur + BitVec.ofNat 16 n

/-- The slot guard `present(slot)` (42_unpack.md R164). -/
def State.present (s : State) : Slot → Bool
  | .raw => true
  | .std => decide (s.mode = .attitude)
  | .imu => decide (s.mode = .attitude) && s.hasImu
  | .irehs => decide (s.mode = .attitude) && s.hasIrehs

/-- `zext_32` or `sext_32` of an unsigned number of `bits` bits (00_scope.md section 6, R162). -/
def extendTo32 (signed : Bool) (bits : Nat) (v : Nat) : Word :=
  match signed with
  | false => (BitVec.ofNat bits v).setWidth 32
  | true => (BitVec.ofNat bits v).signExtend 32

/-- `zext_32(x[lsb + w - 1 : lsb])` (42_unpack.md R171). -/
def bitField (x : Word) (lsb w : Nat) : Word := (x.extractLsb' lsb w).setWidth 32

/-- `sext_32(x[lsb + w - 1 : lsb])` (42_unpack.md R172). -/
def signedBitField (x : Word) (lsb w : Nat) : Word := (x.extractLsb' lsb w).signExtend 32

end Sys2Proof.Machine
end

