-- ==== Sys2Proof/Machine/Flags.lean ====
section
/-! DEFINITION. The levels and composites computed from the state: `in_ready`, `irq`, the `STATUS`
word, the register map and the output ports (10_state.md R36 to R41, 60_exceptions.md R226). The
block has no arithmetic condition codes (R36). -/

namespace Sys2Proof.Machine

/-- The code of `ST` (10_state.md R13). -/
def EngineState.code : EngineState → BitVec 3
  | .idle => 0
  | .hunt => 1
  | .header => 2
  | .body => 3
  | .trailer => 4
  | .collect => 5
  | .done => 6
  | .fault => 7

/-- The code of `RESULT` (10_state.md R28). -/
def ResultCode.code : ResultCode → BitVec 4
  | .none => 0
  | .ok => 1
  | .eCksum => 2
  | .eSync => 3
  | .eIo => 4

/-- The code of a command status (60_exceptions.md R222). -/
def Status.code : Status → BitVec 4
  | .ok => 0
  | .illegal => 1
  | .badState => 2
  | .notOk => 3
  | .absent => 4
  | .range => 5
  | .badArg => 6

/-- The engine takes bytes in this state: `in_ready = 1` (10_state.md R41). -/
def EngineState.receiving : EngineState → Bool
  | .hunt => true
  | .header => true
  | .body => true
  | .trailer => true
  | .collect => true
  | .idle => false
  | .done => false
  | .fault => false

/-- The output `in_ready` (10_state.md R41). -/
def State.inReady (s : State) : Bool := s.st.receiving

/-- The output `irq`, a level (60_exceptions.md R226). -/
def State.irq (s : State) : Bool :=
  (s.ie.getLsbD 0 && decide (s.st = .done) && decide (s.result = .ok)) ||
  (s.ie.getLsbD 1 && decide (s.st = .done) &&
    (decide (s.result = .eCksum) || decide (s.result = .eSync))) ||
  (s.ie.getLsbD 2 && decide (s.st = .fault))

/-- The `STATUS` word (10_state.md R36), its fields from bit 31 down to bit 0. -/
def State.statusWord (s : State) : Word :=
  (0 : BitVec 19) ++ BitVec.ofBool s.inReady ++ BitVec.ofBool s.irq ++ BitVec.ofBool s.hasIrehs ++
    BitVec.ofBool s.hasImu ++ BitVec.ofBool s.hRsp ++ s.result.code ++ pathCode s.mode ++ s.st.code

/-- The constant that `IDREG` reads (10_state.md R38). -/
def idreg : Word := 0x0D270D07

/-- The register map (10_state.md R37): the word that index `i` reads, zero-extended, or nothing
where the index is unassigned. -/
def State.readReg (s : State) (i : BitVec 6) : Option Word :=
  match i.toNat with
  | 0 => some s.statusWord
  | 1 => some (s.ie.setWidth 32)
  | 2 => some (s.pos.setWidth 32)
  | 3 => some (s.flen.setWidth 32)
  | 4 => some (s.bodyOff.setWidth 32)
  | 5 => some (s.hType.setWidth 32)
  | 6 => some (s.hId.setWidth 32)
  | 7 => some (s.hLen.setWidth 32)
  | 8 => some (s.ftype.setWidth 32)
  | 9 => some s.rxck
  | 10 => some s.calcCk
  | 11 => some s.ck
  | 12 => some s.acc
  | 13 => some (s.cur.setWidth 32)
  | 14 => some s.xacc
  | 15 => some ((algCode s.xalg).setWidth 32)
  | 16 => some (s.cntOk.setWidth 32)
  | 17 => some (s.cntCkerr.setWidth 32)
  | 18 => some (s.cntHdrerr.setWidth 32)
  | 19 => some (s.cntSyncerr.setWidth 32)
  | 20 => some (s.cntSkip.setWidth 32)
  | 21 => some idreg
  | 22 => some (BitVec.ofNat 32 s.cfg.bufSize)
  | _ => none

/-- The output ports between two steps (10_state.md R40): `in_ready`, `cmd_ready`, `rsp_valid` with
`rsp_status` and `rsp_data`, and `irq`. -/
structure Outputs where
  inReady : Bool
  cmdReady : Bool
  rspValid : Bool
  rspStatus : BitVec 4
  rspData : Word
  irq : Bool
  deriving DecidableEq, Repr

/-- The output ports as functions of the state (10_state.md R40 to R42); `cmd_ready` is constant 1.
While `rsp_valid` is 0 the spec gives `rsp_status` and `rsp_data` no meaning; they read 0 here
(log entry 4). -/
def State.outputs (s : State) : Outputs where
  inReady := s.inReady
  cmdReady := true
  rspValid := s.rsp.isSome
  rspStatus := match s.rsp with
    | some r => r.status.code
    | none => 0
  rspData := match s.rsp with
    | some r => r.data
    | none => 0
  irq := s.irq

end Sys2Proof.Machine
end

