-- ==== Sys2Proof/Machine/Integrity.lean ====
section
/-! DEFINITION. The integrity functions of 41_integrity.md (rules R140 to R143), shared by the
engine and the standalone unit (R149). -/

namespace Sys2Proof.Machine

/-- One of the eight rounds of `crc_upd` (41_integrity.md R140). -/
def crcRound (poly c : Word) : Word :=
  if c.getLsbD 0 then (c >>> 1) ^^^ poly else c >>> 1

/-- `k` rounds of `crc_upd` (41_integrity.md R140). -/
def crcRounds (poly : Word) : Nat → Word → Word
  | 0, c => c
  | k + 1, c => crcRounds poly k (crcRound poly c)

/-- `crc_upd(c, b)` (41_integrity.md R140). -/
def crcUpd (p : Params) (c : Word) (b : Byte) : Word :=
  crcRounds p.crcPolyRefl 8 (c ^^^ b.setWidth 32)

/-- `crc_acc(bytes)`, the raw accumulator (41_integrity.md R141). -/
def crcAcc (p : Params) (bs : List Byte) : Word := bs.foldl (crcUpd p) p.crcInit

/-- `crc32(bytes)` (41_integrity.md R142). -/
def crc32 (p : Params) (bs : List Byte) : Word := crcAcc p bs ^^^ p.crcXorOut

/-- `sum_upd(s, b)` (41_integrity.md R143). -/
def sumUpd (acc : Half) (b : Byte) : Half := acc + b.setWidth 16

/-- `sum_acc(bytes)` (41_integrity.md R143). -/
def sumAcc (p : Params) (bs : List Byte) : Half := bs.foldl sumUpd p.sumInit

/-- `sum16(bytes)` (41_integrity.md R143): no final operation. -/
def sum16 (p : Params) (bs : List Byte) : Half := sumAcc p bs

/-- The accumulator of a new computation with the given function, in a 32-bit register: what
`restart()` (40_frame_engine.md R101) and `CKINIT` (41_integrity.md R150) load. -/
def accInit (p : Params) : Alg → Word
  | .crc32 => p.crcInit
  | .sum16 => p.sumInit.setWidth 32

/-- One byte into an accumulator in a 32-bit register; SUM16 leaves bits 31:16 zero
(41_integrity.md R151, 40_frame_engine.md R116). -/
def accUpd (p : Params) (alg : Alg) (c : Word) (b : Byte) : Word :=
  match alg with
  | .crc32 => crcUpd p c b
  | .sum16 => (sumUpd (c.setWidth 16) b).setWidth 32

end Sys2Proof.Machine
end

