-- ==== Sys2Proof/Machine/Ops.lean ====
section
/-! DEFINITION. The named operations over the frame buffer and the registers: `MemRead`,
`MemWrite`, `respond`, `sat_inc`, `restart()`, the hold and the fault that take the place of
exception entry (60_exceptions.md R228), and the releases that take the place of its return
(R229). -/

namespace Sys2Proof.Machine

/-! ### The frame buffer -/

/-- What an address that is not listed reads as: no value (20_memory.md R56; log entry 1). -/
def Memory.unlisted : Option Byte := none

/-- The byte at an address. -/
def Memory.read : Memory → Nat → Option Byte
  | [], _ => Memory.unlisted
  | (k, v) :: m, a => if a = k then some v else Memory.read m a

/-- The buffer with one byte written, in canonical form. -/
def Memory.write : Memory → Nat → Byte → Memory
  | [], a, b => [(a, b)]
  | (k, v) :: m, a, b =>
    if a < k then (a, b) :: (k, v) :: m
    else if a = k then (a, b) :: m
    else (k, v) :: Memory.write m a b

/-- `BUF[addr]`, for an address below `BUF_SIZE` that has been written (20_memory.md R50, R56). -/
def State.readByte (s : State) (a : Nat) : Except Fault Byte :=
  if a < s.cfg.bufSize then
    match s.buf.read a with
    | some b => .ok b
    | none => .error (.unwrittenByte a)
  else .error (.noSuchAddress a)

/-- The bytes `BUF[addr]` to `BUF[addr + n - 1]`, lowest address first. -/
def State.readBytes (s : State) (a : Nat) : Nat → Except Fault (List Byte)
  | 0 => .ok []
  | n + 1 =>
    match s.readByte a with
    | .error f => .error f
    | .ok b =>
      match s.readBytes (a + 1) n with
      | .error f => .error f
      | .ok bs => .ok (b :: bs)

/-- The little-endian value of bytes, lowest address first (20_memory.md R53, R55). -/
def leValue : List Byte → Nat
  | [] => 0
  | b :: bs => b.toNat + 256 * leValue bs

/-- `MemRead(addr, n)` (20_memory.md R53), the one place where the byte order is decided. -/
def State.memRead (s : State) (a n : Nat) : Except Fault Nat :=
  match s.readBytes a n with
  | .error f => .error f
  | .ok bs => .ok (leValue bs)

/-- `MemWrite(addr, 1, v)` (20_memory.md R52). -/
def State.memWrite (s : State) (a : Nat) (b : Byte) : Except Fault State :=
  if a < s.cfg.bufSize then .ok { s with buf := s.buf.write a b } else .error (.noSuchAddress a)

/-- Goes on with the value that an access to `BUF` gives; stops where it has none. -/
def orFault {α : Type} (r : Except Fault α) (k : α → Host.Outcome State Fault Refusal) :
    Host.Outcome State Fault Refusal :=
  match r with
  | .error f => .fault f
  | .ok a => k a

/-! ### Responses and counters -/

/-- `respond(status, data)` (00_scope.md section 6): ends a command step; writes no register. -/
def State.respond (s : State) (st : Status) (data : Word) : State :=
  { s with rsp := some { status := st, data := data } }

/-- `sat_inc(c)` for the 16-bit counters (00_scope.md section 6, 10_state.md R34). -/
def satInc (c : Half) : Half := if c = 0xFFFF then c else c + 1

/-- `CLRCNT`'s writes: the five counters, together (43_control.md R197). -/
def State.clearCounters (s : State) : State :=
  { s with cntOk := 0, cntCkerr := 0, cntHdrerr := 0, cntSyncerr := 0, cntSkip := 0 }

/-! ### Beginning a frame -/

/-- The integrity function of a device path (10_state.md R12, R17). -/
def algOfPath : DevicePath → Alg
  | .gnss => .crc32
  | .attitude => .sum16

/-- The receiving state in which a device path begins a frame (40_frame_engine.md R101). -/
def firstState : DevicePath → EngineState
  | .gnss => .hunt
  | .attitude => .collect

/-- `restart()` (40_frame_engine.md R101). -/
def State.restart (s : State) : State :=
  { s with
    pos := 0, shreg := 0, shcnt := 0, st := firstState s.mode,
    ck := accInit s.cfg (algOfPath s.mode) }

/-! ### Hold and fault: what takes the place of exception entry (60_exceptions.md R228) -/

/-- The hold at the end of a frame: `RESULT` says why, `CUR` goes to the body, `in_ready` falls
because `ST` is `DONE` (40_frame_engine.md R112, R117). -/
def State.hold (s : State) (r : ResultCode) : State :=
  { s with result := r, cur := s.bodyOff, st := .done }

/-- The fault on a transport failure, `ErrStep` (40_frame_engine.md R120). -/
def State.takeFault (s : State) : State :=
  { s with st := .fault, result := .eIo, pos := 0, shreg := 0, shcnt := 0 }

/-! ### Release: what takes the place of the return (60_exceptions.md R229) -/

/-- `RESULT <- NONE; restart()`: the writes of `START` and of `ACK` (43_control.md R192, R194). -/
def State.newFrame (s : State) : State := ({ s with result := .none }).restart

/-- `STOP`'s writes (43_control.md R193). -/
def State.goIdle (s : State) : State :=
  { s with st := .idle, result := .none, pos := 0, shreg := 0, shcnt := 0 }

/-- `CLRERR`'s writes (43_control.md R196). -/
def State.leaveFault (s : State) : State := { s with st := .idle, result := .none }

end Sys2Proof.Machine
end

