-- ==== Sys2Proof/Machine/Checksum.lean ====
section
/-! DEFINITION. The commands of the standalone integrity unit (41_integrity.md rules R150 to R152),
one meaning per command. They touch nothing of the engine. -/

namespace Sys2Proof.Machine

/-- `CKINIT a` (41_integrity.md R150). -/
def execCkinit (a : Alg) (s : State) : Host.Outcome State Fault Refusal :=
  .next (({ s with xalg := a, xacc := accInit s.cfg a }).respond .ok 0)

/-- `CKBYTE b` (41_integrity.md R151). -/
def execCkbyte (b : Byte) (s : State) : Host.Outcome State Fault Refusal :=
  .next (({ s with xacc := accUpd s.cfg s.xalg s.xacc b }).respond .ok 0)

/-- The integrity code that the accumulator stands for (41_integrity.md R142, R143, R152). -/
def accOut (p : Params) (alg : Alg) (c : Word) : Word :=
  match alg with
  | .crc32 => c ^^^ p.crcXorOut
  | .sum16 => c

/-- `CKREAD` (41_integrity.md R152). -/
def execCkread (s : State) : Host.Outcome State Fault Refusal :=
  .next (s.respond .ok (accOut s.cfg s.xalg s.xacc))

end Sys2Proof.Machine
end

