-- ==== Sys2Proof/Machine/Control.lean ====
section
/-! DEFINITION. The control and status commands (43_control.md rules R190 to R199), one meaning per
command. -/

namespace Sys2Proof.Machine

/-- The checks of a command that is legal in some states only: `BADSTATE` with no state change, or
the command's writes and `OK` (43_control.md R189). -/
def whenLegal (legal : Bool) (s s' : State) : Host.Outcome State Fault Refusal :=
  if legal then .next (s'.respond .ok 0) else .next (s.respond .badState 0)

/-- `NOP` (43_control.md R190). -/
def execNop (s : State) : Host.Outcome State Fault Refusal := .next (s.respond .ok 0)

/-- `SETMODE m` (43_control.md R191). -/
def execSetmode (m : DevicePath) (s : State) : Host.Outcome State Fault Refusal :=
  whenLegal (decide (s.st = .idle)) s { s with mode := m }

/-- `START` (43_control.md R192). -/
def execStart (s : State) : Host.Outcome State Fault Refusal :=
  whenLegal (decide (s.st = .idle)) s s.newFrame

/-- `STOP` (43_control.md R193). -/
def execStop (s : State) : Host.Outcome State Fault Refusal :=
  whenLegal (!decide (s.st = .fault)) s s.goIdle

/-- `ACK` (43_control.md R194). -/
def execAck (s : State) : Host.Outcome State Fault Refusal :=
  whenLegal (decide (s.st = .done)) s s.newFrame

/-- `FLUSH` (43_control.md R195). -/
def execFlush (s : State) : Host.Outcome State Fault Refusal :=
  whenLegal s.st.receiving s s.restart

/-- `CLRERR` (43_control.md R196). -/
def execClrerr (s : State) : Host.Outcome State Fault Refusal :=
  whenLegal (decide (s.st = .fault)) s s.leaveFault

/-- `CLRCNT` (43_control.md R197). -/
def execClrcnt (s : State) : Host.Outcome State Fault Refusal :=
  .next (s.clearCounters.respond .ok 0)

/-- `SETIE e` (43_control.md R198). -/
def execSetie (e : BitVec 3) (s : State) : Host.Outcome State Fault Refusal :=
  .next (({ s with ie := e }).respond .ok 0)

/-- `RDREG i` (43_control.md R199). -/
def execRdreg (i : BitVec 6) (s : State) : Host.Outcome State Fault Refusal :=
  match s.readReg i with
  | none => .next (s.respond .badArg 0)
  | some v => .next (s.respond .ok v)

end Sys2Proof.Machine
end

