-- ==== Sys2Proof/Machine/Unpack.lean ====
section
/-! DEFINITION. The bit-field unpacker (42_unpack.md rules R160 to R173), one meaning per row of the
opcode table. -/

namespace Sys2Proof.Machine

/-- `SEEK off` (42_unpack.md R160). -/
def execSeek (off : Half) (s : State) : Host.Outcome State Fault Refusal :=
  .next (({ s with cur := off }).respond .ok 0)

/-- `SEEKB off` (42_unpack.md R161): the sum wraps modulo 2^16. -/
def execSeekb (off : Half) (s : State) : Host.Outcome State Fault Refusal :=
  .next (({ s with cur := s.bodyOff + off }).respond .ok 0)

/-- The first of the four checks of a load that fails, in the order of 42_unpack.md R162 to R165,
or `OK`. The range check is over the integers. -/
def State.loadStatus (s : State) (n : Nat) (slot : Slot) (am : AddrMode) : Status :=
  if s.st ≠ .done then .badState
  else if s.result ≠ .ok then .notOk
  else if s.present slot = false then .absent
  else if s.flen.toNat < (s.effectiveAddr am).toNat + n then .range
  else .ok

/-- The registers that a load which responds `OK` writes (42_unpack.md R162). -/
def State.loaded (s : State) (v : Word) (c : Half) : State := { s with acc := v, cur := c }

/-- `Load(n, sgn)` (42_unpack.md R162). -/
def load (n : Nat) (signed : Bool) (slot : Slot) (am : AddrMode) (s : State) :
    Host.Outcome State Fault Refusal :=
  if s.loadStatus n slot am = .ok then
    orFault (s.memRead (s.effectiveAddr am).toNat n) fun v =>
    .next ((s.loaded (extendTo32 signed (8 * n) v) (s.cursorAfter n am)).respond .ok
      (extendTo32 signed (8 * n) v))
  else .next (s.respond (s.loadStatus n slot am) 0)

/-- `LDU8 slot, off` (42_unpack.md R166). -/
def execLdu8 (slot : Slot) (off : Half) (s : State) : Host.Outcome State Fault Refusal :=
  load 1 false slot (.absolute off) s

/-- `LDU8 slot, (CUR)+` (42_unpack.md R166). -/
def execLdu8Cur (slot : Slot) (s : State) : Host.Outcome State Fault Refusal :=
  load 1 false slot .cursor s

/-- `LDS8 slot, off` (42_unpack.md R167). -/
def execLds8 (slot : Slot) (off : Half) (s : State) : Host.Outcome State Fault Refusal :=
  load 1 true slot (.absolute off) s

/-- `LDS8 slot, (CUR)+` (42_unpack.md R167). -/
def execLds8Cur (slot : Slot) (s : State) : Host.Outcome State Fault Refusal :=
  load 1 true slot .cursor s

/-- `LDU16 slot, off` (42_unpack.md R168). -/
def execLdu16 (slot : Slot) (off : Half) (s : State) : Host.Outcome State Fault Refusal :=
  load 2 false slot (.absolute off) s

/-- `LDU16 slot, (CUR)+` (42_unpack.md R168). -/
def execLdu16Cur (slot : Slot) (s : State) : Host.Outcome State Fault Refusal :=
  load 2 false slot .cursor s

/-- `LDS16 slot, off` (42_unpack.md R169). -/
def execLds16 (slot : Slot) (off : Half) (s : State) : Host.Outcome State Fault Refusal :=
  load 2 true slot (.absolute off) s

/-- `LDS16 slot, (CUR)+` (42_unpack.md R169). -/
def execLds16Cur (slot : Slot) (s : State) : Host.Outcome State Fault Refusal :=
  load 2 true slot .cursor s

/-- `LD32 slot, off` (42_unpack.md R170). -/
def execLd32 (slot : Slot) (off : Half) (s : State) : Host.Outcome State Fault Refusal :=
  load 4 false slot (.absolute off) s

/-- `LD32 slot, (CUR)+` (42_unpack.md R170). -/
def execLd32Cur (slot : Slot) (s : State) : Host.Outcome State Fault Refusal :=
  load 4 false slot .cursor s

/-- `BADARG` for a bit field that would pass bit 31, else the field (42_unpack.md R171, R172). -/
def fieldAnswer (lsb : BitVec 5) (w : Nat) (v : Word) (s : State) :
    Host.Outcome State Fault Refusal :=
  if 32 < lsb.toNat + w then .next (s.respond .badArg 0) else .next (s.respond .ok v)

/-- `BITS lsb, w` (42_unpack.md R171). -/
def execBits (lsb : BitVec 5) (w : Nat) (s : State) : Host.Outcome State Fault Refusal :=
  fieldAnswer lsb w (bitField s.acc lsb.toNat w) s

/-- `SBITS lsb, w` (42_unpack.md R172). -/
def execSbits (lsb : BitVec 5) (w : Nat) (s : State) : Host.Outcome State Fault Refusal :=
  fieldAnswer lsb w (signedBitField s.acc lsb.toNat w) s

/-- `FLAGS p` (42_unpack.md R173). -/
def execFlags (p : BitVec 3) (s : State) : Host.Outcome State Fault Refusal :=
  .next (s.respond .ok (bitField s.acc (2 * p.toNat) 2))

end Sys2Proof.Machine
end

