-- ==== Sys2Proof/Machine/Dispatch.lean ====
section
/-! DEFINITION. The meaning of every command: one arm per row of spec/opcode_table.json. -/

namespace Sys2Proof.Machine

def exec (i : Instr) (s : State) : Host.Outcome State Fault Refusal :=
  match i with
  -- control and status, 43_control.md
  | .nop => Sys2Proof.Machine.execNop s
  | .setmode m => Sys2Proof.Machine.execSetmode m s
  | .start => Sys2Proof.Machine.execStart s
  | .stop => Sys2Proof.Machine.execStop s
  | .ack => Sys2Proof.Machine.execAck s
  | .flush => Sys2Proof.Machine.execFlush s
  | .clrerr => Sys2Proof.Machine.execClrerr s
  | .clrcnt => Sys2Proof.Machine.execClrcnt s
  | .setie e => Sys2Proof.Machine.execSetie e s
  | .rdreg r => Sys2Proof.Machine.execRdreg r s
  -- the standalone integrity unit, 41_integrity.md
  | .ckinit a => Sys2Proof.Machine.execCkinit a s
  | .ckbyte b => Sys2Proof.Machine.execCkbyte b s
  | .ckread => Sys2Proof.Machine.execCkread s
  -- the unpacker, 42_unpack.md
  | .seek off => Sys2Proof.Machine.execSeek off s
  | .seekb off => Sys2Proof.Machine.execSeekb off s
  | .ldu8 slot off => Sys2Proof.Machine.execLdu8 slot off s
  | .ldu8Cur slot => Sys2Proof.Machine.execLdu8Cur slot s
  | .lds8 slot off => Sys2Proof.Machine.execLds8 slot off s
  | .lds8Cur slot => Sys2Proof.Machine.execLds8Cur slot s
  | .ldu16 slot off => Sys2Proof.Machine.execLdu16 slot off s
  | .ldu16Cur slot => Sys2Proof.Machine.execLdu16Cur slot s
  | .lds16 slot off => Sys2Proof.Machine.execLds16 slot off s
  | .lds16Cur slot => Sys2Proof.Machine.execLds16Cur slot s
  | .ld32 slot off => Sys2Proof.Machine.execLd32 slot off s
  | .ld32Cur slot => Sys2Proof.Machine.execLd32Cur slot s
  | .bits lsb w => Sys2Proof.Machine.execBits lsb w s
  | .sbits lsb w => Sys2Proof.Machine.execSbits lsb w s
  | .flags p => Sys2Proof.Machine.execFlags p s

end Sys2Proof.Machine
end

