-- ==== Sys2Proof/Machine/Engine.lean ====
section
/-! DEFINITION. The frame engine (40_frame_engine.md): one meaning per stream step, `Byte(b)` in
each receiving state and `Err`. -/

namespace Sys2Proof.Machine

/-! ### GNSS: sync scanner -/

/-- The sync marker as the scanner's window holds it (40_frame_engine.md R104). -/
def syncWindow (p : Params) : BitVec 24 := p.gSync0 ++ p.gSync1 ++ p.gSync2

/-- The registers that `HuntStep(b)` writes (40_frame_engine.md R103). -/
def State.shiftIn (s : State) (b : Byte) : State :=
  { s with
    cntSkip := if s.shcnt = 3 then satInc s.cntSkip else s.cntSkip,
    shreg := s.shreg.extractLsb' 0 16 ++ b,
    shcnt := if s.shcnt = 3 then 3 else s.shcnt + 1 }

/-- The condition of a lock, on the new window (40_frame_engine.md R104). -/
def State.locked (s : State) : Bool := decide (s.shcnt = 3 ∧ s.shreg = syncWindow s.cfg)

/-- The registers that a lock writes once the sync bytes are stored (40_frame_engine.md R104). -/
def State.lockRegs (s : State) : State :=
  { s with
    ck := crcAcc s.cfg [s.cfg.gSync0, s.cfg.gSync1, s.cfg.gSync2],
    pos := 3, shreg := 0, shcnt := 0, st := .header }

/-- A lock (40_frame_engine.md R104): the sync bytes are part of the frame. -/
def lockStep (s : State) : Host.Outcome State Fault Refusal :=
  orFault (s.memWrite 0 s.cfg.gSync0) fun s1 =>
  orFault (s1.memWrite 1 s.cfg.gSync1) fun s2 =>
  orFault (s2.memWrite 2 s.cfg.gSync2) fun s3 =>
  .next s3.lockRegs

/-- `HuntStep(b)` with the lock test at its end (40_frame_engine.md R103, R104). -/
def huntStep (s : State) (b : Byte) : Host.Outcome State Fault Refusal :=
  if (s.shiftIn b).locked then lockStep (s.shiftIn b) else .next (s.shiftIn b)

/-! ### Storing a byte -/

/-- `CK <- upd(CK, b); POS <- POS + 1`: the registers of a step that stores a covered byte
(40_frame_engine.md R105, R109, R116). -/
def State.cover (s : State) (b : Byte) : State :=
  { s with ck := accUpd s.cfg (algOfPath s.mode) s.ck b, pos := s.pos + 1 }

/-- `POS <- POS + 1`: the registers of a step that stores a trailer byte, which is not covered
(40_frame_engine.md R111, R116). -/
def State.pass (s : State) : State := { s with pos := s.pos + 1 }

/-! ### GNSS: header -/

/-- The header registers (40_frame_engine.md R107). -/
def State.latchHeader (s : State) (id : Nat) (type : Byte) (len : Nat) : State :=
  { s with
    hId := BitVec.ofNat 16 id, hType := type, hRsp := type.getLsbD s.cfg.gRspBit,
    hLen := BitVec.ofNat 16 len }

/-- The state that follows a completed header, its registers latched (40_frame_engine.md R108). -/
def State.afterHeader (s : State) : State :=
  if s.cfg.gMaxBody < s.hLen.toNat then ({ s with cntHdrerr := satInc s.cntHdrerr }).restart
  else if s.hLen = 0 then { s with st := .trailer }
  else { s with st := .body }

/-- Header completion: extraction, then the next state (40_frame_engine.md R106 to R108). -/
def headerComplete (s : State) : Host.Outcome State Fault Refusal :=
  orFault (s.memRead s.cfg.gOffId s.cfg.gWId) fun id =>
  orFault (s.readByte s.cfg.gOffType) fun type =>
  orFault (s.memRead s.cfg.gOffLen s.cfg.gWLen) fun len =>
  .next (s.latchHeader id type len).afterHeader

/-- `HeaderStep(b)` (40_frame_engine.md R105). -/
def headerStep (s : State) (b : Byte) : Host.Outcome State Fault Refusal :=
  orFault (s.memWrite s.pos.toNat b) fun s1 =>
  if (s1.cover b).pos.toNat = s.cfg.gHdrLen then headerComplete (s1.cover b)
  else .next (s1.cover b)

/-! ### GNSS: body -/

/-- `ST <- TRAILER` at the end of the body (40_frame_engine.md R109). -/
def State.afterBodyByte (s : State) : State :=
  if s.pos.toNat = s.cfg.gHdrLen + s.hLen.toNat then { s with st := .trailer } else s

/-- `BodyStep(b)` (40_frame_engine.md R109). -/
def bodyStep (s : State) (b : Byte) : Host.Outcome State Fault Refusal :=
  orFault (s.memWrite s.pos.toNat b) fun s1 => .next (s1.cover b).afterBodyByte

/-! ### GNSS: trailer and validator -/

/-- The result registers of a completed frame (40_frame_engine.md R112, R117). -/
def State.latchFrame (s : State) (rx cc : Word) (len : Half) : State :=
  { s with rxck := rx, calcCk := cc, flen := len }

/-- The verdict on a GNSS frame, its result registers latched (40_frame_engine.md R112): hold a
valid frame, drop and count a bad one. -/
def State.gnssVerdict (s : State) : State :=
  if s.rxck = s.calcCk then ({ s with cntOk := satInc s.cntOk }).hold .ok
  else ({ s with cntCkerr := satInc s.cntCkerr }).restart

/-- Trailer completion (40_frame_engine.md R112). -/
def trailerComplete (s : State) : Host.Outcome State Fault Refusal :=
  orFault (s.memRead (s.pos.toNat - 4) 4) fun rx =>
  .next (s.latchFrame (BitVec.ofNat 32 rx) (s.ck ^^^ s.cfg.crcXorOut) s.pos).gnssVerdict

/-- `TrailerStep(b)` (40_frame_engine.md R111). -/
def trailerStep (s : State) (b : Byte) : Host.Outcome State Fault Refusal :=
  orFault (s.memWrite s.pos.toNat b) fun s1 =>
  if s1.pass.pos.toNat = s.cfg.gHdrLen + s.hLen.toNat + 4 then trailerComplete s1.pass
  else .next s1.pass

/-! ### Attitude: window and validator -/

/-- The frame-type registers (40_frame_engine.md R117, 10_state.md R24). -/
def State.latchFtype (s : State) (f : Byte) : State :=
  { s with
    ftype := f,
    hasImu := decide (f &&& s.cfg.aImuMask = s.cfg.aImuVal),
    hasIrehs := decide (f &&& s.cfg.aIrehsMask = s.cfg.aIrehsVal) }

/-- The verdict on an attitude window, its registers latched (40_frame_engine.md R117): the sync
test first, then the checksum test; the window is held in all three cases. -/
def State.windowVerdict (s : State) (b0 b1 : Byte) : State :=
  if b0 ≠ s.cfg.aSync0 ∨ b1 ≠ s.cfg.aSync1 then
    ({ s with cntSyncerr := satInc s.cntSyncerr }).hold .eSync
  else if s.rxck ≠ s.calcCk then ({ s with cntCkerr := satInc s.cntCkerr }).hold .eCksum
  else ({ s with cntOk := satInc s.cntOk }).hold .ok

/-- Window completion (40_frame_engine.md R117). -/
def windowComplete (s : State) : Host.Outcome State Fault Refusal :=
  orFault (s.memRead s.cfg.aCkOff 2) fun rx =>
  orFault (s.readByte s.cfg.aOffFtype) fun f =>
  orFault (s.readByte 0) fun b0 =>
  orFault (s.readByte 1) fun b1 =>
  .next (((s.latchFrame (BitVec.ofNat 32 rx) ((s.ck.setWidth 16).setWidth 32)
    (BitVec.ofNat 16 s.cfg.aFrameLen)).latchFtype f).windowVerdict b0 b1)

/-- The registers of a collect step: the trailer is not covered; the test uses `POS` before the
increment (40_frame_engine.md R116). -/
def State.coverWindow (s : State) (b : Byte) : State :=
  if s.pos.toNat < s.cfg.aCkOff then s.cover b else s.pass

/-- `CollectStep(b)` (40_frame_engine.md R116). -/
def collectStep (s : State) (b : Byte) : Host.Outcome State Fault Refusal :=
  orFault (s.memWrite s.pos.toNat b) fun s1 =>
  if (s1.coverWindow b).pos.toNat = s.cfg.aFrameLen then windowComplete (s1.coverWindow b)
  else .next (s1.coverWindow b)

/-! ### The stream events -/

/-- The `Byte(b)` step of the current state (40_frame_engine.md R100); where no step is enabled the
byte stays with the transport and nothing changes. -/
def byteStep (s : State) (b : Byte) : Host.Outcome State Fault Refusal :=
  match s.st with
  | .hunt => huntStep s b
  | .header => headerStep s b
  | .body => bodyStep s b
  | .trailer => trailerStep s b
  | .collect => collectStep s b
  | .idle => .next s
  | .done => .next s
  | .fault => .next s

/-- The `Err` step (40_frame_engine.md R120), enabled like `Byte` (R100). -/
def errStep (s : State) : Host.Outcome State Fault Refusal :=
  if s.inReady then .next s.takeFault else .next s

end Sys2Proof.Machine
end

