-- ==== Sys2Proof/Machine/Ports.lean ====
section
/-! DEFINITION. The ports (10_state.md R40 to R42): which event a clock cycle holds, in which order
the events of one cycle happen (60_exceptions.md R224), and the step that each event causes. -/

namespace Sys2Proof.Machine

/-- An event of the byte-stream port (00_scope.md R7). -/
inductive StreamEvent where
  /-- `Byte(b)`. -/
  | byte (b : Byte)
  /-- `Err`. -/
  | err
  deriving DecidableEq, Repr

/-- The stream event of a cycle without reset, where `ready` is the level of `in_ready`: none while
`in_ready` is 0; `in_err` wins over `in_valid` (10_state.md R41, 60_exceptions.md R224). -/
def Cycle.streamEvent (c : Cycle) (ready : Bool) : Option StreamEvent :=
  if ready then
    if c.inErr then some .err else if c.inValid then some (.byte c.inData) else none
  else none

/-- The command of a cycle without reset: always taken (10_state.md R42). -/
def Cycle.command (c : Cycle) : Option Word := if c.cmdValid then some c.cmdWord else none

/-- The level that `in_ready` has during a cycle: it reads 0 while `rst` is 1
(70_reset_and_hazards.md R250). -/
def State.readyDuring (s : State) (c : Cycle) : Bool := s.inReady && !c.rst

/-- A cycle whose stream event has been taken, as it waits for its command. -/
def Cycle.commandOnly (c : Cycle) : Cycle := { c with inValid := false, inErr := false }

/-- The waiting inputs once the stream event of the cycle `c` has been taken: the command of the same
cycle comes next, if there is one (60_exceptions.md R224). -/
def cyclesAfterStream (c : Cycle) (cs : List Cycle) : List Cycle :=
  if c.cmdValid then c.commandOnly :: cs else cs

/-- The `Reset` event (10_state.md R43, 70_reset_and_hazards.md R250): every register to its reset
value; `BUF` is not written. The configuration and the inputs still to come are not the block's. -/
def resetStep (s : State) : State :=
  { State.resetWith s.cfg with buf := s.buf, cycles := s.cycles }

/-- The step of a stream event. -/
def streamStep (e : StreamEvent) (s : State) : Host.Outcome State Fault Refusal :=
  match e with
  | .byte b => byteStep s b
  | .err => errStep s

/-- The step of a command word (43_control.md R189): decode, then the command's rule; a word that
matches no row answers `ILLEGAL` and changes no state (30_encoding.md R87). -/
def commandStep (w : Word) (s : State) : Host.Outcome State Fault Refusal :=
  match decode w with
  | .error _ => .next (s.respond .illegal 0)
  | .ok i => exec i s

/-- `s` with the given inputs still to come and no response presented yet. -/
def State.awaiting (s : State) (cs : List Cycle) : State := { s with cycles := cs, rsp := none }

/-- One step with a waiting cycle: its reset alone; else its stream event, leaving its command for
the next step; else its command; else nothing, in a cycle without an event (60_exceptions.md R224,
70_reset_and_hazards.md R250, R262). -/
def cycleStep (c : Cycle) (cs : List Cycle) (s : State) : Host.Outcome State Fault Refusal :=
  if c.rst then .next (resetStep (s.awaiting cs))
  else
    match c.streamEvent (s.readyDuring c) with
    | some e => streamStep e (s.awaiting (cyclesAfterStream c cs))
    | none =>
      match c.command with
      | some w => commandStep w (s.awaiting cs)
      | none => .next (s.awaiting cs)

/-- One step of a block with a well-formed configuration: the next event of the waiting inputs, or
no event, in which the block does not move (00_scope.md R7, 70_reset_and_hazards.md R257). -/
def portStep (s : State) : Host.Outcome State Fault Refusal :=
  match s.cycles with
  | [] => .next (s.awaiting [])
  | c :: cs => cycleStep c cs s

/-- A cycle that offers one command word and nothing else. -/
def commandCycle (w : Word) : Cycle where
  rst := false
  inValid := false
  inData := 0
  inErr := false
  cmdValid := true
  cmdWord := w

end Sys2Proof.Machine
end

