-- ==== Sys2Proof/Machine/Step.lean ====
section
/-! DEFINITION. One step of the machine, and where a command word is placed so that the next step
runs it. -/

namespace Sys2Proof.Machine

/-- One step: the model refuses a configuration that is not well formed (00_scope.md R6); else the
next event of the waiting inputs (Machine/Ports.lean). -/
def step (s : State) : Host.Outcome State Fault Refusal :=
  if s.cfg.WF then portStep s else .refused .illFormedConfig

/-- `s` with the command word offered on the command port in the next clock cycle. The block has no
instruction memory and fetches nothing (20_memory.md R63): the port is where commands come from. -/
def State.withFetchWord (s : State) (nbits w : Nat) : State :=
  { s with cycles := commandCycle (tableWord nbits w) :: s.cycles }

end Sys2Proof.Machine
end

