-- ==== Sys2Proof/Safety.lean ====
section
/-! DEFINITION. What counts as a sound state and a safe run of the engine: the bytes of the frame in
progress or held, the invariant that 10_state.md R44 and 40_frame_engine.md R121 to R123 describe,
and reachability from reset. -/

namespace Sys2Proof.Machine

/-- A byte of the frame in progress or held is at every address below `POS` in these states
(10_state.md R14). -/
abbrev State.Storing (s : State) : Prop :=
  s.st = .header ∨ s.st = .body ∨ s.st = .trailer ∨ s.st = .collect ∨ s.st = .done

/-- The accumulator, in a 32-bit register, of a computation over the bytes `bs`
(41_integrity.md R141, R143). -/
def accOver (p : Params) : Alg → List Byte → Word
  | .crc32, bs => crcAcc p bs
  | .sum16, bs => (sumAcc p bs).setWidth 32

/-- How many of the stored bytes are covered by the integrity code (41_integrity.md R146). -/
def State.coveredLen (s : State) : Nat :=
  match s.mode with
  | .gnss => min s.pos.toNat (s.cfg.gHdrLen + s.hLen.toNat)
  | .attitude => min s.pos.toNat s.cfg.aCkOff

/-- The value of the `n`-byte little-endian field at offset `a` of the frame `bs`
(20_memory.md R53). -/
def fieldAt (bs : List Byte) (a n : Nat) : Nat := leValue ((bs.drop a).take n)

/-- The header registers describe the GNSS frame `bs` (10_state.md R19 to R22), whose body fits
(40_frame_engine.md R108). -/
def State.HeaderOf (s : State) (bs : List Byte) : Prop :=
  s.hId.toNat = fieldAt bs s.cfg.gOffId s.cfg.gWId ∧
  bs[s.cfg.gOffType]? = some s.hType ∧
  s.hRsp = s.hType.getLsbD s.cfg.gRspBit ∧
  s.hLen.toNat = fieldAt bs s.cfg.gOffLen s.cfg.gWLen ∧
  s.hLen.toNat ≤ s.cfg.gMaxBody

/-- The frame `bs` begins with the GNSS sync marker (30_encoding.md R71). -/
def GnssSynced (p : Params) (bs : List Byte) : Prop :=
  bs.take 3 = [p.gSync0, p.gSync1, p.gSync2]

/-- The verdict on an attitude window (40_frame_engine.md R117): sync first, then checksum. -/
def windowResult (p : Params) (bs : List Byte) : ResultCode :=
  if bs.take 2 ≠ [p.aSync0, p.aSync1] then .eSync
  else if fieldAt bs p.aCkOff 2 ≠ (sum16 p (bs.take p.aCkOff)).toNat then .eCksum
  else .ok

/-- The registers of a held GNSS frame `bs` (40_frame_engine.md R112, R122). -/
def State.HeldGnss (s : State) (bs : List Byte) : Prop :=
  GnssSynced s.cfg bs ∧ s.HeaderOf bs ∧
  bs.length = s.cfg.gHdrLen + s.hLen.toNat + 4 ∧
  s.rxck.toNat = fieldAt bs (bs.length - 4) 4 ∧
  s.calcCk = crc32 s.cfg (bs.take (bs.length - 4)) ∧
  s.rxck = s.calcCk ∧ s.result = .ok

/-- The registers of a held attitude window `bs` (40_frame_engine.md R117, R123). -/
def State.HeldWindow (s : State) (bs : List Byte) : Prop :=
  bs.length = s.cfg.aFrameLen ∧
  s.rxck.toNat = fieldAt bs s.cfg.aCkOff 2 ∧
  s.calcCk = (sum16 s.cfg (bs.take s.cfg.aCkOff)).setWidth 32 ∧
  bs[s.cfg.aOffFtype]? = some s.ftype ∧
  s.hasImu = decide (s.ftype &&& s.cfg.aImuMask = s.cfg.aImuVal) ∧
  s.hasIrehs = decide (s.ftype &&& s.cfg.aIrehsMask = s.cfg.aIrehsVal) ∧
  s.result = windowResult s.cfg bs

/-- What the stored bytes `bs` are, state by state: the bounds of `POS` that 40_frame_engine.md R105
to R117 give, the sync marker, and the registers that describe the frame. -/
def State.FrameSoFar (s : State) (bs : List Byte) : Prop :=
  match s.st with
  | .header => 3 ≤ bs.length ∧ bs.length < s.cfg.gHdrLen ∧ GnssSynced s.cfg bs
  | .body =>
    s.cfg.gHdrLen ≤ bs.length ∧ bs.length < s.cfg.gHdrLen + s.hLen.toNat ∧
      GnssSynced s.cfg bs ∧ s.HeaderOf bs
  | .trailer =>
    s.cfg.gHdrLen + s.hLen.toNat ≤ bs.length ∧ bs.length < s.cfg.gHdrLen + s.hLen.toNat + 4 ∧
      GnssSynced s.cfg bs ∧ s.HeaderOf bs
  | .collect => bs.length < s.cfg.aFrameLen
  | .done =>
    s.flen = s.pos ∧
      match s.mode with
      | .gnss => s.HeldGnss bs
      | .attitude => s.HeldWindow bs
  | .idle => True
  | .hunt => True
  | .fault => True

/-- The invariant of a block with a well-formed configuration. Its register clauses are those of
10_state.md R44 with R13, R14 and R28; its last clause says what the stored bytes are. Clause (g)
of R44 stands in it for every `ST` but `IDLE`, where 43_control.md R191 lets `SETMODE 1` leave a
`CK` with other bits (log entry 5). -/
structure State.Inv (s : State) : Prop where
  /-- The configuration is well formed (00_scope.md R6). -/
  cfg_wf : s.cfg.WF
  /-- `BUF` has its canonical form. -/
  buf_wf : s.buf.wf
  /-- No address at or above `BUF_SIZE` exists (20_memory.md R50). -/
  buf_in_range : ∀ c ∈ s.buf, c.1 < s.cfg.bufSize
  /-- In GNSS mode `ST` is never `COLLECT` (10_state.md R13). -/
  gnss_states : s.mode = .gnss → s.st ≠ .collect
  /-- In attitude mode `ST` is none of the four GNSS receiving states (10_state.md R13). -/
  attitude_states :
    s.mode = .attitude → s.st ≠ .hunt ∧ s.st ≠ .header ∧ s.st ≠ .body ∧ s.st ≠ .trailer
  /-- `POS` is 0 where no byte is stored (10_state.md R14). -/
  pos_at_rest : ¬s.Storing → s.pos = 0
  /-- The scanner's window is empty outside `HUNT` (10_state.md R15, R16, R44 (b)). -/
  window_empty : s.st ≠ .hunt → s.shreg = 0 ∧ s.shcnt = 0
  /-- `RESULT` is not `NONE` exactly when `ST` is `DONE` or `FAULT` (10_state.md R28). -/
  result_none : s.result = .none ↔ s.st ≠ .done ∧ s.st ≠ .fault
  /-- `ST = FAULT` is equivalent to `RESULT = E_IO` (10_state.md R44 (d)). -/
  fault_io : s.st = .fault ↔ s.result = .eIo
  /-- In attitude mode `CK[31:16] = 0`, outside `IDLE` (10_state.md R17, R44 (g); log entry 5). -/
  attitude_ck : s.mode = .attitude → s.st ≠ .idle → s.ck.extractLsb' 16 16 = 0
  /-- `XALG = 1` implies `XACC[31:16] = 0` (10_state.md R44 (h)). -/
  unit_sum : s.xalg = .sum16 → s.xacc.extractLsb' 16 16 = 0
  /-- Every byte below `POS` has been written, `CK` is the accumulator over the covered ones, and the
  registers describe them (10_state.md R14, R17, R44 (c), (e), (f)). -/
  stored : s.Storing → ∃ bs : List Byte,
    bs.length = s.pos.toNat ∧ s.readBytes 0 s.pos.toNat = .ok bs ∧
    s.ck = accOver s.cfg (algOfPath s.mode) (bs.take s.coveredLen) ∧ s.FrameSoFar bs

/-- A block that has just been reset, with a well-formed configuration and any inputs to come. -/
def State.Fresh (s : State) : Prop :=
  s.cfg.WF ∧ s = { State.resetWith s.cfg with cycles := s.cycles }

/-- The states that a run reaches: a run starts from reset with a well-formed configuration
(70_reset_and_hazards.md R251) and takes any inputs. -/
inductive Reachable : State → Prop where
  | fresh {s : State} : s.Fresh → Reachable s
  | step {s t : State} : Reachable s → step s = .next t → Reachable t

/-- A well-formed GNSS frame `f` (30_encoding.md R71, 40_frame_engine.md R121): sync marker, header
whose length field counts the body, body that fits, and a correct trailer. -/
def GnssFrame (p : Params) (f : List Byte) : Prop :=
  GnssSynced p f ∧
  f.length = p.gHdrLen + fieldAt f p.gOffLen p.gWLen + 4 ∧
  fieldAt f p.gOffLen p.gWLen ≤ p.gMaxBody ∧
  fieldAt f (f.length - 4) 4 = (crc32 p (f.take (f.length - 4))).toNat

/-- A cycle in which the transport offers one byte and the host nothing. -/
def byteCycle (b : Byte) : Cycle where
  rst := false
  inValid := true
  inData := b
  inErr := false
  cmdValid := false
  cmdWord := 0

/-- The commands of a list, run one after the other on the command port with no other event between
them. -/
def execAll : List Instr → State → Host.Outcome State Fault Refusal
  | [], s => .next s
  | i :: is, s =>
    match exec i s with
    | .next t => execAll is t
    | .fault f => .fault f
    | .refused r => .refused r

end Sys2Proof.Machine
end

