-- ==== Sys2Proof/Certificates/Slice0/Obligations.lean ====
section
/-! DEFINITION. The statements for the provers. Each docstring names the rule of spec/ it formalises.
A meaning's next state is written out as the state before with the fields that the rule writes, so
each equation is the instruction's result, its frame and its completion at once: a field that is
not named, `BUF` among them, is unchanged. -/

open Sys2Proof Sys2Proof.Machine

/-! ### Encoding -/

/-- Every well-formed command decodes from its own word, with every operand at every value that its
encoding admits (30_encoding.md R80 to R86). -/
def Obligations.DecodeOfEncodedCommand : Prop :=
  ∀ i : Instr, i.wellFormed = true → decode (encode i) = .ok i

/-- A word that decodes is the word of the well-formed command it decodes to: no bit of a legal word
is dropped (30_encoding.md R80 to R86). -/
def Obligations.EncodeOfDecodedWord : Prop :=
  ∀ (w : Word) (i : Instr), decode w = .ok i → i.wellFormed = true ∧ encode i = w

/-- The opcode map (30_encoding.md R86): 28 rows of 23 commands; the rows are disjoint; a word that
matches a row decodes to a command of that row's mnemonic, and a word that decodes matches one. -/
def Obligations.WordsDecodeByOpcodeMap : Prop :=
  opcodeMap.length = 28 ∧ (opcodeMap.map OpcodeRow.mnemonic).dedup.length = 23 ∧
  (∀ w : Word, ∀ r ∈ opcodeMap, ∀ r' ∈ opcodeMap,
    w &&& r.mask = r.pattern → w &&& r'.mask = r'.pattern → r = r') ∧
  (∀ w : Word, ∀ r ∈ opcodeMap, w &&& r.mask = r.pattern →
    ∃ i, decode w = .ok i ∧ i.mnemonic = r.mnemonic ∧ encode i = w) ∧
  (∀ (w : Word) (i : Instr), decode w = .ok i →
    ∃ r ∈ opcodeMap, w &&& r.mask = r.pattern ∧ i.mnemonic = r.mnemonic)

/-- A word is legal only if its reserved bits are 0, its opcode is assigned, and its other fields fit
its format; every other word answers `ILLEGAL` with data 0 and changes no state. An operand that
decodes but names nothing is not illegal, it answers `BADARG` (30_encoding.md R87). -/
def Obligations.IllegalWordsAnswerIllegal : Prop :=
  (∀ (w : Word) (s : State), (∀ r ∈ opcodeMap, w &&& r.mask ≠ r.pattern) →
    commandStep w s = .next { s with rsp := some ⟨.illegal, 0⟩ }) ∧
  (∀ (s : State) (c : Cycle) (cs : List Cycle), s.cfg.WF → s.cycles = c :: cs → c.rst = false →
    c.streamEvent s.inReady = none → c.cmdValid = true →
    (∀ r ∈ opcodeMap, c.cmdWord &&& r.mask ≠ r.pattern) →
    step s = .next { s with cycles := cs, rsp := some ⟨.illegal, 0⟩ }) ∧
  (∀ f : Fields,
    ((0x0A ≤ f.opc.toNat ∧ f.opc.toNat ≤ 0x0F) ∨ (0x13 ≤ f.opc.toNat ∧ f.opc.toNat ≤ 0x1F) ∨
      f.opc.toNat = 0x27 ∨ 0x2B ≤ f.opc.toNat ∨
      f.rsv ≠ 0 ∨
      ((f.slot ≠ 0 ∨ f.am ≠ 0) ∧ (f.opc.toNat < 0x22 ∨ 0x26 < f.opc.toNat)) ∨
      (f.imm ≠ 0 ∧ (f.opc.toNat = 0x00 ∨ (0x02 ≤ f.opc.toNat ∧ f.opc.toNat ≤ 0x07) ∨
        f.opc.toNat = 0x12)) ∨
      (1 < f.imm.toNat ∧ (f.opc.toNat = 0x01 ∨ f.opc.toNat = 0x10)) ∨
      (7 < f.imm.toNat ∧ (f.opc.toNat = 0x08 ∨ f.opc.toNat = 0x2A)) ∨
      (63 < f.imm.toNat ∧ f.opc.toNat = 0x09) ∨
      (255 < f.imm.toNat ∧ f.opc.toNat = 0x11) ∨
      (f.imm &&& 0xE0E0 ≠ 0 ∧ (f.opc.toNat = 0x28 ∨ f.opc.toNat = 0x29)) ∨
      (f.am = 1 ∧ f.imm ≠ 0 ∧ 0x22 ≤ f.opc.toNat ∧ f.opc.toNat ≤ 0x26)) →
    ∀ r ∈ opcodeMap, wordOf f &&& r.mask ≠ r.pattern) ∧
  (∀ (i : BitVec 6) (s : State), 23 ≤ i.toNat →
    commandStep (encode (.rdreg i)) s = .next { s with rsp := some ⟨.badArg, 0⟩ }) ∧
  (∀ (lsb : BitVec 5) (w : Nat) (s : State), FieldWidth w → 32 < lsb.toNat + w →
    commandStep (encode (.bits lsb w)) s = .next { s with rsp := some ⟨.badArg, 0⟩ } ∧
    commandStep (encode (.sbits lsb w)) s = .next { s with rsp := some ⟨.badArg, 0⟩ })

/-- A few words written out from R80's fields decode to the commands they stand for
(95_test_vectors.md V60). -/
def Obligations.WrittenOutWordsDecode : Prop :=
  decode 0b00000100000000000000000000000001 = .ok (.setmode .attitude) ∧
  decode 0b01000100000000000000000010101010 = .ok (.ckbyte 0xAA) ∧
  decode 0b10000000000000000000000000101000 = .ok (.seek 40) ∧
  decode 0b10010011000000000000000001100100 = .ok (.ldu16 .irehs 100) ∧
  decode 0b10010110100000000000000000000000 = .ok (.lds16Cur .imu) ∧
  decode 0b10100000000000000000011100001000 = .ok (.bits 8 8)

/-- The ten load commands with their width in bytes and their two operand forms
(42_unpack.md R166 to R170). -/
inductive IsLoad : Instr → Nat → Slot → AddrMode → Prop where
  | ldu8 (slot : Slot) (off : Half) : IsLoad (.ldu8 slot off) 1 slot (.absolute off)
  | ldu8Cur (slot : Slot) : IsLoad (.ldu8Cur slot) 1 slot .cursor
  | lds8 (slot : Slot) (off : Half) : IsLoad (.lds8 slot off) 1 slot (.absolute off)
  | lds8Cur (slot : Slot) : IsLoad (.lds8Cur slot) 1 slot .cursor
  | ldu16 (slot : Slot) (off : Half) : IsLoad (.ldu16 slot off) 2 slot (.absolute off)
  | ldu16Cur (slot : Slot) : IsLoad (.ldu16Cur slot) 2 slot .cursor
  | lds16 (slot : Slot) (off : Half) : IsLoad (.lds16 slot off) 2 slot (.absolute off)
  | lds16Cur (slot : Slot) : IsLoad (.lds16Cur slot) 2 slot .cursor
  | ld32 (slot : Slot) (off : Half) : IsLoad (.ld32 slot off) 4 slot (.absolute off)
  | ld32Cur (slot : Slot) : IsLoad (.ld32Cur slot) 4 slot .cursor

/-! ### The step: ports and events -/

/-- A step runs the decoded command: with no reset and no stream event in the waiting cycle, the step
is the meaning of the command that the offered word decodes to, on the state whose inputs have
moved past that cycle and which presents no earlier response (43_control.md R189). That the cycle
leaves the list of inputs, and that an earlier response is withdrawn, is the model's choice (log
entries 3 and 4). -/
def Obligations.StepRunsDecodedCommand : Prop :=
  ∀ (s : State) (c : Cycle) (cs : List Cycle) (i : Instr),
    s.cfg.WF → s.cycles = c :: cs → c.rst = false → c.streamEvent s.inReady = none →
    c.cmdValid = true → decode c.cmdWord = .ok i →
    step s = exec i { s with cycles := cs, rsp := none }

/-- `in_ready` is 1 exactly in the five receiving states; a byte is taken exactly when it is offered
without an error while `in_ready` is 1, an error whenever it is offered then (10_state.md R41). In
the last clause, while `in_ready` is 0, neither is taken and a cycle that offers nothing else
changes no register; that the untaken byte leaves the list of inputs with its cycle, and that the
step ends the presentation of the last response, is the model's choice (log entries 3 and 4). -/
def Obligations.StreamEventsNeedReady : Prop :=
  (∀ s : State, s.inReady = true ↔ s.st = .hunt ∨ s.st = .header ∨ s.st = .body ∨
    s.st = .trailer ∨ s.st = .collect) ∧
  (∀ (s : State) (c : Cycle) (b : Byte), c.streamEvent s.inReady = some (.byte b) ↔
    s.inReady = true ∧ c.inValid = true ∧ c.inErr = false ∧ b = c.inData) ∧
  (∀ (s : State) (c : Cycle), c.streamEvent s.inReady = some .err ↔
    s.inReady = true ∧ c.inErr = true) ∧
  (∀ (s : State) (c : Cycle) (cs : List Cycle), s.cfg.WF → s.cycles = c :: cs → c.rst = false →
    s.inReady = false → c.cmdValid = false →
    step s = .next { s with cycles := cs, rsp := none })

/-- The order of one cycle (60_exceptions.md R224): the step takes the stream event first; the command
of the same cycle, if there is one, comes next and sees the state that the stream event left. That
one cycle takes two steps is the model's choice (log entry 3), and so is that the stream step
withdraws an earlier response (log entry 4). -/
def Obligations.StreamEventGoesBeforeCommand : Prop :=
  ∀ (s : State) (c : Cycle) (cs : List Cycle) (e : StreamEvent),
    s.cfg.WF → s.cycles = c :: cs → c.rst = false → c.streamEvent s.inReady = some e →
    (c.cmdValid = false → step s = streamStep e { s with cycles := cs, rsp := none }) ∧
    (c.cmdValid = true → ∀ t : State, step s = .next t →
      streamStep e { s with cycles := t.cycles, rsp := none } = .next t ∧
      step t = commandStep c.cmdWord { t with cycles := cs, rsp := none })

/-- The block never moves on its own (00_scope.md R7, 70_reset_and_hazards.md R262): with no input
waiting, or in a cycle without an event, the step writes no register and not `BUF`. That the step
ends the presentation of the last response is the model's choice (log entry 4). -/
def Obligations.NoEventChangesNothing : Prop :=
  (∀ s : State, s.cfg.WF → s.cycles = [] → step s = .next { s with rsp := none }) ∧
  (∀ (s : State) (c : Cycle) (cs : List Cycle), s.cfg.WF → s.cycles = c :: cs → c.rst = false →
    c.inValid = false → c.inErr = false → c.cmdValid = false →
    step s = .next { s with cycles := cs, rsp := none })

/-- `Reset` happens alone: whatever else the cycle offers, `in_ready` reads 0 during it, no response
is given, every register takes its reset value and `BUF` is not written
(70_reset_and_hazards.md R250, 10_state.md R43). -/
def Obligations.ResetEventBeatsItsCycle : Prop :=
  ∀ (s : State) (c : Cycle) (cs : List Cycle),
    s.cfg.WF → s.cycles = c :: cs → c.rst = true →
    s.readyDuring c = false ∧
    step s = .next
      { cfg := s.cfg, mode := .gnss, st := .idle, pos := 0, shreg := 0, shcnt := 0,
        ck := s.cfg.crcInit, hId := 0, hType := 0, hRsp := false, hLen := 0, ftype := 0,
        hasImu := false, hasIrehs := false, flen := 0, rxck := 0, calcCk := 0, result := .none,
        acc := 0, cur := 0, xalg := .crc32, xacc := s.cfg.crcInit, cntOk := 0, cntCkerr := 0,
        cntHdrerr := 0, cntSyncerr := 0, cntSkip := 0, ie := 0, buf := s.buf, rsp := none,
        cycles := cs }

/-- After reset, for every configuration: `in_ready` and `irq` are 0, no response is presented,
`cmd_ready` is 1, `RDREG 0` returns 0, no byte is taken, and every load is refused with `BADSTATE`
(70_reset_and_hazards.md R252). -/
def Obligations.ResetStateOutputs : Prop :=
  ∀ p : Params,
    (State.resetWith p).outputs = ⟨false, true, false, 0, 0, false⟩ ∧
    exec (.rdreg 0) (State.resetWith p) =
      .next { State.resetWith p with rsp := some ⟨.ok, 0⟩ } ∧
    (∀ b : Byte, byteStep (State.resetWith p) b = .next (State.resetWith p)) ∧
    (∀ (i : Instr) (n : Nat) (slot : Slot) (am : AddrMode), IsLoad i n slot am →
      exec i (State.resetWith p) =
        .next { State.resetWith p with rsp := some ⟨.badState, 0⟩ })

/-- A configuration that is not well formed is refused (00_scope.md R6). -/
def Obligations.IllFormedConfigIsRefused : Prop :=
  ∀ s : State, ¬s.cfg.WF → step s = .refused .illFormedConfig

/-! ### Control and status commands -/

/-- `NOP` (43_control.md R190). -/
def Obligations.NopWritesNothing : Prop :=
  encode .nop = 0x00000000 ∧ ∀ s : State, exec .nop s = .next { s with rsp := some ⟨.ok, 0⟩ }

/-- `SETMODE m` (43_control.md R191). -/
def Obligations.SetmodeNeedsIdle : Prop :=
  encode (.setmode .gnss) = 0x04000000 ∧ encode (.setmode .attitude) = 0x04000001 ∧
  (∀ imm : Half, 1 < imm.toNat → ∃ e, decode ((0x0400 : Half) ++ imm) = .error e) ∧
  ∀ (m : DevicePath) (s : State),
    (s.st = .idle →
      exec (.setmode m) s = .next { s with mode := m, rsp := some ⟨.ok, 0⟩ }) ∧
    (s.st ≠ .idle → exec (.setmode m) s = .next { s with rsp := some ⟨.badState, 0⟩ })

/-- `START` (43_control.md R192), with `restart()` written out (40_frame_engine.md R101). -/
def Obligations.StartBeginsReception : Prop :=
  encode .start = 0x08000000 ∧
  ∀ s : State,
    (s.st = .idle → s.mode = .gnss →
      exec .start s = .next { s with
        result := .none, st := .hunt, pos := 0, shreg := 0, shcnt := 0, ck := s.cfg.crcInit,
        rsp := some ⟨.ok, 0⟩ }) ∧
    (s.st = .idle → s.mode = .attitude →
      exec .start s = .next { s with
        result := .none, st := .collect, pos := 0, shreg := 0, shcnt := 0,
        ck := s.cfg.sumInit.setWidth 32, rsp := some ⟨.ok, 0⟩ }) ∧
    (s.st = .idle → ∃ t, exec .start s = .next t ∧ t.inReady = true) ∧
    (s.st ≠ .idle → exec .start s = .next { s with rsp := some ⟨.badState, 0⟩ })

/-- `STOP` (43_control.md R193). -/
def Obligations.StopGoesIdle : Prop :=
  encode .stop = 0x0C000000 ∧
  ∀ s : State,
    (s.st ≠ .fault →
      exec .stop s = .next { s with
        st := .idle, result := .none, pos := 0, shreg := 0, shcnt := 0,
        rsp := some ⟨.ok, 0⟩ }) ∧
    (s.st ≠ .fault → ∃ t, exec .stop s = .next t ∧ t.inReady = false) ∧
    (s.st = .fault → exec .stop s = .next { s with rsp := some ⟨.badState, 0⟩ })

/-- `ACK` (43_control.md R194): from this step on no load can read the frame. -/
def Obligations.AckReleasesFrame : Prop :=
  encode .ack = 0x10000000 ∧
  ∀ s : State,
    (s.st = .done → s.mode = .gnss →
      exec .ack s = .next { s with
        result := .none, st := .hunt, pos := 0, shreg := 0, shcnt := 0, ck := s.cfg.crcInit,
        rsp := some ⟨.ok, 0⟩ }) ∧
    (s.st = .done → s.mode = .attitude →
      exec .ack s = .next { s with
        result := .none, st := .collect, pos := 0, shreg := 0, shcnt := 0,
        ck := s.cfg.sumInit.setWidth 32, rsp := some ⟨.ok, 0⟩ }) ∧
    (∀ (i : Instr) (n : Nat) (slot : Slot) (am : AddrMode), s.st = .done → IsLoad i n slot am →
      ∃ t, exec .ack s = .next t ∧ exec i t = .next { t with rsp := some ⟨.badState, 0⟩ }) ∧
    (s.st ≠ .done → exec .ack s = .next { s with rsp := some ⟨.badState, 0⟩ })

/-- `FLUSH` (43_control.md R195): `RESULT` and the counters are not written; in a sound state `RESULT`
is `NONE` before, hence after. -/
def Obligations.FlushBeginsAnew : Prop :=
  encode .flush = 0x14000000 ∧
  ∀ s : State,
    (s.st ∈ [EngineState.hunt, .header, .body, .trailer, .collect] → s.mode = .gnss →
      exec .flush s = .next { s with
        st := .hunt, pos := 0, shreg := 0, shcnt := 0, ck := s.cfg.crcInit,
        rsp := some ⟨.ok, 0⟩ }) ∧
    (s.st ∈ [EngineState.hunt, .header, .body, .trailer, .collect] → s.mode = .attitude →
      exec .flush s = .next { s with
        st := .collect, pos := 0, shreg := 0, shcnt := 0, ck := s.cfg.sumInit.setWidth 32,
        rsp := some ⟨.ok, 0⟩ }) ∧
    (s.st ∉ [EngineState.hunt, .header, .body, .trailer, .collect] →
      exec .flush s = .next { s with rsp := some ⟨.badState, 0⟩ }) ∧
    (s.Inv → s.st ∈ [EngineState.hunt, .header, .body, .trailer, .collect] → s.result = .none)

/-- `CLRERR` (43_control.md R196). -/
def Obligations.ClrerrLeavesFault : Prop :=
  encode .clrerr = 0x18000000 ∧
  ∀ s : State,
    (s.st = .fault →
      exec .clrerr s = .next { s with st := .idle, result := .none, rsp := some ⟨.ok, 0⟩ }) ∧
    (s.st ≠ .fault → exec .clrerr s = .next { s with rsp := some ⟨.badState, 0⟩ })

/-- `CLRCNT` (43_control.md R197): it clears the five counters together, in every state, and no other
command writes a counter. -/
def Obligations.ClrcntClearsFiveCounters : Prop :=
  encode .clrcnt = 0x1C000000 ∧
  (∀ s : State, exec .clrcnt s = .next { s with
    cntOk := 0, cntCkerr := 0, cntHdrerr := 0, cntSyncerr := 0, cntSkip := 0,
    rsp := some ⟨.ok, 0⟩ }) ∧
  (∀ (i : Instr) (s t : State), i ≠ .clrcnt → exec i s = .next t →
    t.cntOk = s.cntOk ∧ t.cntCkerr = s.cntCkerr ∧ t.cntHdrerr = s.cntHdrerr ∧
    t.cntSyncerr = s.cntSyncerr ∧ t.cntSkip = s.cntSkip)

/-- `SETIE e` (43_control.md R198), and the interrupt line, a level that depends on `IE`, `ST` and
`RESULT` alone and so follows in the same step (60_exceptions.md R226). -/
def Obligations.SetieAndInterruptLine : Prop :=
  encode (.setie 7) = 0x20000007 ∧
  (∀ imm : Half, 7 < imm.toNat → ∃ e, decode ((0x2000 : Half) ++ imm) = .error e) ∧
  (∀ (e : BitVec 3) (s : State),
    exec (.setie e) s = .next { s with ie := e, rsp := some ⟨.ok, 0⟩ }) ∧
  (∀ s : State, s.irq = true ↔
    (s.ie.getLsbD 0 = true ∧ s.st = .done ∧ s.result = .ok) ∨
    (s.ie.getLsbD 1 = true ∧ s.st = .done ∧ (s.result = .eCksum ∨ s.result = .eSync)) ∨
    (s.ie.getLsbD 2 = true ∧ s.st = .fault)) ∧
  (∀ s t : State, s.ie = t.ie → s.st = t.st → s.result = t.result → s.irq = t.irq)

/-- `RDREG i` (43_control.md R199) over the register map (10_state.md R37, R38). -/
def Obligations.RdregReadsTheRegisterMap : Prop :=
  encode (.rdreg 21) = 0x24000015 ∧
  (∀ imm : Half, 63 < imm.toNat → ∃ e, decode ((0x2400 : Half) ++ imm) = .error e) ∧
  ∀ (i : BitVec 6) (s : State),
    (22 < i.toNat → exec (.rdreg i) s = .next { s with rsp := some ⟨.badArg, 0⟩ }) ∧
    (∀ v : Word,
      [s.statusWord, s.ie.setWidth 32, s.pos.setWidth 32, s.flen.setWidth 32,
        s.bodyOff.setWidth 32, s.hType.setWidth 32, s.hId.setWidth 32, s.hLen.setWidth 32,
        s.ftype.setWidth 32, s.rxck, s.calcCk, s.ck, s.acc, s.cur.setWidth 32, s.xacc,
        (algCode s.xalg).setWidth 32, s.cntOk.setWidth 32, s.cntCkerr.setWidth 32,
        s.cntHdrerr.setWidth 32, s.cntSyncerr.setWidth 32, s.cntSkip.setWidth 32,
        0x0D270D07, BitVec.ofNat 32 s.cfg.bufSize][i.toNat]? = some v →
      exec (.rdreg i) s = .next { s with rsp := some ⟨.ok, v⟩ })

/-- The `STATUS` word with the codes of its fields (10_state.md R36; the codes of `ST`, `MODE` and
`RESULT` from R13, R12 and R28), and the output ports in every state (R40, R42; the codes of
`rsp_status` from 60_exceptions.md R222). A pair that is listed is a name with its code. That
`rsp_status` and `rsp_data` read 0 while `rsp_valid` is 0, and that the response is that of the
last step, is the model's choice (log entry 4). -/
def Obligations.StatusWordFields : Prop :=
  (∀ s : State,
    (s.st, (s.statusWord.extractLsb' 0 3).toNat) ∈ [(EngineState.idle, 0), (.hunt, 1),
      (.header, 2), (.body, 3), (.trailer, 4), (.collect, 5), (.done, 6), (.fault, 7)] ∧
    (s.mode, (s.statusWord.extractLsb' 3 1).toNat) ∈ [(DevicePath.gnss, 0), (.attitude, 1)] ∧
    (s.result, (s.statusWord.extractLsb' 4 4).toNat) ∈ [(ResultCode.none, 0), (.ok, 1),
      (.eCksum, 2), (.eSync, 3), (.eIo, 4)] ∧
    s.statusWord.getLsbD 8 = s.hRsp ∧
    s.statusWord.getLsbD 9 = s.hasImu ∧
    s.statusWord.getLsbD 10 = s.hasIrehs ∧
    s.statusWord.getLsbD 11 = s.irq ∧
    s.statusWord.getLsbD 12 = s.inReady ∧
    s.statusWord.extractLsb' 13 19 = 0) ∧
  (∀ s : State,
    s.outputs.inReady = s.inReady ∧ s.outputs.cmdReady = true ∧ s.outputs.irq = s.irq ∧
    s.outputs.rspValid = s.rsp.isSome ∧
    (s.rsp = none → s.outputs.rspStatus = 0 ∧ s.outputs.rspData = 0) ∧
    (∀ r : Response, s.rsp = some r → s.outputs.rspData = r.data ∧
      (r.status, s.outputs.rspStatus.toNat) ∈ [(Status.ok, 0), (.illegal, 1), (.badState, 2),
        (.notOk, 3), (.absent, 4), (.range, 5), (.badArg, 6)]))

/-! ### The standalone integrity unit -/

/-- `CKINIT a` (41_integrity.md R150); after reset the unit is already as after `CKINIT 0`. -/
def Obligations.CkinitLoadsAccumulator : Prop :=
  encode (.ckinit .crc32) = 0x40000000 ∧ encode (.ckinit .sum16) = 0x40000001 ∧
  (∀ imm : Half, 1 < imm.toNat → ∃ e, decode ((0x4000 : Half) ++ imm) = .error e) ∧
  (∀ s : State,
    exec (.ckinit .crc32) s = .next { s with
      xalg := .crc32, xacc := s.cfg.crcInit, rsp := some ⟨.ok, 0⟩ } ∧
    exec (.ckinit .sum16) s = .next { s with
      xalg := .sum16, xacc := s.cfg.sumInit.setWidth 32, rsp := some ⟨.ok, 0⟩ }) ∧
  (∀ p : Params, exec (.ckinit .crc32) (State.resetWith p) =
    .next { State.resetWith p with rsp := some ⟨.ok, 0⟩ })

/-- `CKBYTE b` (41_integrity.md R151). -/
def Obligations.CkbyteUpdatesAccumulator : Prop :=
  encode (.ckbyte 0xAA) = 0x440000AA ∧
  (∀ imm : Half, 255 < imm.toNat → ∃ e, decode ((0x4400 : Half) ++ imm) = .error e) ∧
  ∀ (b : Byte) (s : State),
    (s.xalg = .crc32 → exec (.ckbyte b) s = .next { s with
      xacc := crcUpd s.cfg s.xacc b, rsp := some ⟨.ok, 0⟩ }) ∧
    (s.xalg = .sum16 → exec (.ckbyte b) s = .next { s with
      xacc := BitVec.ofNat 32 ((s.xacc.toNat % 65536 + b.toNat) % 65536),
      rsp := some ⟨.ok, 0⟩ })

/-- `CKREAD` (41_integrity.md R152): a second one returns the same value. -/
def Obligations.CkreadAnswersCode : Prop :=
  encode .ckread = 0x48000000 ∧
  ∀ s : State,
    (s.xalg = .crc32 → exec .ckread s = .next { s with
      rsp := some ⟨.ok, s.xacc ^^^ s.cfg.crcXorOut⟩ }) ∧
    (s.xalg = .sum16 → exec .ckread s = .next { s with rsp := some ⟨.ok, s.xacc⟩ }) ∧
    ∃ t, exec .ckread s = .next t ∧ exec .ckread t = .next t

/-- The unit over a byte string (41_integrity.md R149): `CKINIT`, one `CKBYTE` per byte, `CKREAD`
answer the integrity code of the string and leave everything but the unit alone. -/
def Obligations.UnitComputesIntegrityCode : Prop :=
  ∀ (bs : List Byte) (s : State),
    execAll ([Instr.ckinit .crc32] ++ bs.map Instr.ckbyte ++ [Instr.ckread]) s = .next { s with
      xalg := .crc32, xacc := crcAcc s.cfg bs, rsp := some ⟨.ok, crc32 s.cfg bs⟩ } ∧
    execAll ([Instr.ckinit .sum16] ++ bs.map Instr.ckbyte ++ [Instr.ckread]) s = .next { s with
      xalg := .sum16, xacc := (sum16 s.cfg bs).setWidth 32,
      rsp := some ⟨.ok, (sum16 s.cfg bs).setWidth 32⟩ }

/-- The engine and the unit agree (41_integrity.md R149): while a frame is held, the unit over the
covered bytes answers `CALC`. -/
def Obligations.UnitAgreesWithEngine : Prop :=
  ∀ s : State, s.Inv → s.st = .done →
    ∃ bs, s.readBytes 0 s.coveredLen = .ok bs ∧
      ∃ t, execAll ([Instr.ckinit (algOfPath s.mode)] ++ bs.map Instr.ckbyte ++ [Instr.ckread]) s =
        .next t ∧ t.rsp = some ⟨.ok, s.calcCk⟩

/-- CRC-32 over byte strings (41_integrity.md R140 to R142), for every polynomial, initial value and
final XOR (R153): the byte step is eight rounds of a logical right shift, with the polynomial xored
in where the bit shifted out is 1; and the worked examples for both named parameter sets. -/
def Obligations.CrcOfByteStrings : Prop :=
  (∀ (p : Params) (c : Word) (b : Byte), crcUpd p c b =
    (fun x : Word => if x.getLsbD 0 = true then (x >>> 1) ^^^ p.crcPolyRefl else x >>> 1)^[8]
      (c ^^^ b.setWidth 32)) ∧
  crcUpd Params.default 0 0x01 = 0x77073096 ∧
  crcUpd Params.default 0 0x80 = 0xEDB88320 ∧
  crcUpd Params.default 0xFFFFFFFF 0x00 = 0x2DFD1072 ∧
  (∀ p : Params, crcAcc p [] = p.crcInit) ∧
  (∀ (p : Params) (bs : List Byte) (b : Byte),
    crcAcc p (bs ++ [b]) = crcUpd p (crcAcc p bs) b) ∧
  (∀ (p : Params) (bs : List Byte), crc32 p bs = crcAcc p bs ^^^ p.crcXorOut) ∧
  crc32 Params.default [] = 0 ∧
  crc32 Params.default [0x31, 0x32, 0x33, 0x34, 0x35, 0x36, 0x37, 0x38, 0x39] = 0xCBF43926 ∧
  crc32 Params.default [0x00] = 0xD202EF8D ∧
  crc32 Params.default [0xFF] = 0xFF000000 ∧
  crc32 Params.default [0xAA, 0x44, 0x12] = 0x4C02FAED ∧
  crc32 Params.alternative [] = 0 ∧
  crc32 Params.alternative [0x31, 0x32, 0x33, 0x34, 0x35, 0x36, 0x37, 0x38, 0x39] = 0x2DFD2D88 ∧
  crc32 Params.alternative [0xAA, 0x44, 0x12] = 0xB34323FF

/-- SUM16 (41_integrity.md R143): the sum of the bytes and `SUM_INIT` modulo 2^16; it wraps silently
and does not depend on the order of the bytes. -/
def Obligations.SumIsModularAndOrderFree : Prop :=
  (∀ (p : Params) (bs : List Byte),
    (sum16 p bs).toNat = (p.sumInit.toNat + (bs.map BitVec.toNat).sum) % 65536) ∧
  (∀ (p : Params) (bs cs : List Byte), bs.Perm cs → sum16 p bs = sum16 p cs) ∧
  sum16 Params.default (List.replicate 257 0xFF) = 0xFFFF ∧
  sum16 Params.default (List.replicate 258 0xFF) = 0x00FE ∧
  sum16 Params.default [] = 0 ∧
  sum16 Params.default [0x31, 0x32, 0x33, 0x34, 0x35, 0x36, 0x37, 0x38, 0x39] = 0x01DD ∧
  sum16 Params.default [0x90, 0xEB] = 0x017B

/-- A CRC whose reflected polynomial has its top bit (the default one has) tells two byte strings
apart that differ in exactly one byte (40_frame_engine.md R122). -/
def Obligations.CrcTellsOneChangedByte : Prop :=
  ∀ (p : Params) (xs ys : List Byte) (b b' : Byte),
    p.crcPolyRefl.getLsbD 31 = true → b ≠ b' →
    crc32 p (xs ++ b :: ys) ≠ crc32 p (xs ++ b' :: ys)

/-! ### The unpacker -/

/-- `SEEK off` (42_unpack.md R160): legal in every state, with no range check. `SEEKB off` (R161):
relative to `BODY_OFF` (10_state.md R29), modulo 2^16. -/
def Obligations.CursorCommandsSetCursor : Prop :=
  encode (.seek 40) = 0x80000028 ∧ encode (.seekb 1) = 0x84000001 ∧
  (∀ imm : Half, decode ((0x8000 : Half) ++ imm) = .ok (.seek imm) ∧
    decode ((0x8400 : Half) ++ imm) = .ok (.seekb imm)) ∧
  ∀ (off : Half) (s : State),
    exec (.seek off) s = .next { s with cur := off, rsp := some ⟨.ok, 0⟩ } ∧
    (s.mode = .gnss → exec (.seekb off) s = .next { s with
      cur := BitVec.ofNat 16 ((s.cfg.gHdrLen + off.toNat) % 65536), rsp := some ⟨.ok, 0⟩ }) ∧
    (s.mode = .attitude → exec (.seekb off) s = .next { s with
      cur := BitVec.ofNat 16 ((s.cfg.aHdrLen + off.toNat) % 65536), rsp := some ⟨.ok, 0⟩ })

/-- `present(slot)` as a proposition (42_unpack.md R164). -/
def SlotPresent (s : State) : Slot → Prop
  | .raw => True
  | .std => s.mode = .attitude
  | .imu => s.mode = .attitude ∧ s.hasImu = true
  | .irehs => s.mode = .attitude ∧ s.hasIrehs = true

/-- The checks of every load, in order: the first that fails ends the command with its status, data 0
and no state change (42_unpack.md R162 to R165, 60_exceptions.md R223). -/
def Obligations.LoadChecksInOrder : Prop :=
  ∀ (i : Instr) (n : Nat) (slot : Slot) (am : AddrMode) (s : State), IsLoad i n slot am →
    (s.st ≠ .done → exec i s = .next { s with rsp := some ⟨.badState, 0⟩ }) ∧
    (s.st = .done → s.result ≠ .ok → exec i s = .next { s with rsp := some ⟨.notOk, 0⟩ }) ∧
    (s.st = .done → s.result = .ok → ¬SlotPresent s slot →
      exec i s = .next { s with rsp := some ⟨.absent, 0⟩ }) ∧
    (s.st = .done → s.result = .ok → SlotPresent s slot →
      s.flen.toNat < (s.effectiveAddr am).toNat + n →
      exec i s = .next { s with rsp := some ⟨.range, 0⟩ })

/-- The checks of a load of `n` bytes at `ea` all pass (42_unpack.md R162 to R165). -/
def LoadAllowed (s : State) (slot : Slot) (ea n : Nat) : Prop :=
  s.st = .done ∧ s.result = .ok ∧ SlotPresent s slot ∧ ea + n ≤ s.flen.toNat

/-- `LDU8` and `LDS8`, both forms, where the checks pass and the byte has been written
(42_unpack.md R166, R167). -/
def Obligations.ByteLoadsExtend : Prop :=
  ∀ (s : State) (slot : Slot) (off : Half) (b : Byte),
    (LoadAllowed s slot off.toNat 1 → s.readByte off.toNat = .ok b →
      exec (.ldu8 slot off) s = .next { s with
        acc := BitVec.ofNat 32 b.toNat, rsp := some ⟨.ok, BitVec.ofNat 32 b.toNat⟩ } ∧
      exec (.lds8 slot off) s = .next { s with
        acc := BitVec.ofInt 32 b.toInt, rsp := some ⟨.ok, BitVec.ofInt 32 b.toInt⟩ }) ∧
    (LoadAllowed s slot s.cur.toNat 1 → s.readByte s.cur.toNat = .ok b →
      exec (.ldu8Cur slot) s = .next { s with
        acc := BitVec.ofNat 32 b.toNat, cur := s.cur + 1,
        rsp := some ⟨.ok, BitVec.ofNat 32 b.toNat⟩ } ∧
      exec (.lds8Cur slot) s = .next { s with
        acc := BitVec.ofInt 32 b.toInt, cur := s.cur + 1,
        rsp := some ⟨.ok, BitVec.ofInt 32 b.toInt⟩ })

/-- `LDU16` and `LDS16`, both forms, at any alignment (42_unpack.md R168, R169,
20_memory.md R53, R57): the byte at the lower address is the less significant. -/
def Obligations.HalfLoadsExtend : Prop :=
  ∀ (s : State) (slot : Slot) (off : Half) (b0 b1 : Byte),
    (LoadAllowed s slot off.toNat 2 → s.readByte off.toNat = .ok b0 →
      s.readByte (off.toNat + 1) = .ok b1 →
      exec (.ldu16 slot off) s = .next { s with
        acc := BitVec.ofNat 32 (b0.toNat + 256 * b1.toNat),
        rsp := some ⟨.ok, BitVec.ofNat 32 (b0.toNat + 256 * b1.toNat)⟩ } ∧
      exec (.lds16 slot off) s = .next { s with
        acc := BitVec.ofInt 32 (b0.toNat + 256 * b1.toInt),
        rsp := some ⟨.ok, BitVec.ofInt 32 (b0.toNat + 256 * b1.toInt)⟩ }) ∧
    (LoadAllowed s slot s.cur.toNat 2 → s.readByte s.cur.toNat = .ok b0 →
      s.readByte (s.cur.toNat + 1) = .ok b1 →
      exec (.ldu16Cur slot) s = .next { s with
        acc := BitVec.ofNat 32 (b0.toNat + 256 * b1.toNat), cur := s.cur + 2,
        rsp := some ⟨.ok, BitVec.ofNat 32 (b0.toNat + 256 * b1.toNat)⟩ } ∧
      exec (.lds16Cur slot) s = .next { s with
        acc := BitVec.ofInt 32 (b0.toNat + 256 * b1.toInt), cur := s.cur + 2,
        rsp := some ⟨.ok, BitVec.ofInt 32 (b0.toNat + 256 * b1.toInt)⟩ })

/-- `LD32`, both forms, at any alignment (42_unpack.md R170). -/
def Obligations.WordLoadsAssemble : Prop :=
  ∀ (s : State) (slot : Slot) (off : Half) (b0 b1 b2 b3 : Byte),
    (LoadAllowed s slot off.toNat 4 → s.readByte off.toNat = .ok b0 →
      s.readByte (off.toNat + 1) = .ok b1 → s.readByte (off.toNat + 2) = .ok b2 →
      s.readByte (off.toNat + 3) = .ok b3 →
      exec (.ld32 slot off) s = .next { s with
        acc := b3 ++ b2 ++ b1 ++ b0, rsp := some ⟨.ok, b3 ++ b2 ++ b1 ++ b0⟩ }) ∧
    (LoadAllowed s slot s.cur.toNat 4 → s.readByte s.cur.toNat = .ok b0 →
      s.readByte (s.cur.toNat + 1) = .ok b1 → s.readByte (s.cur.toNat + 2) = .ok b2 →
      s.readByte (s.cur.toNat + 3) = .ok b3 →
      exec (.ld32Cur slot) s = .next { s with
        acc := b3 ++ b2 ++ b1 ++ b0, cur := s.cur + 4,
        rsp := some ⟨.ok, b3 ++ b2 ++ b1 ++ b0⟩ })

/-- `BITS lsb, w` and `SBITS lsb, w` (42_unpack.md R171, R172), bit by bit: bit `k` of the answer is
bit `lsb + k` of `ACC` inside the field; above it, 0 for `BITS` and the field's top bit for
`SBITS`. Neither writes `ACC`. -/
def Obligations.BitFieldsOfAcc : Prop :=
  encode (.bits 8 8) = 0xA0000708 ∧ encode (.sbits 24 8) = 0xA4000718 ∧
  (∀ imm : Half, imm &&& 0xE0E0 ≠ 0 → (∃ e, decode ((0xA000 : Half) ++ imm) = .error e) ∧
    ∃ e, decode ((0xA400 : Half) ++ imm) = .error e) ∧
  ∀ (s : State) (lsb : BitVec 5) (w : Nat), FieldWidth w →
    (32 < lsb.toNat + w →
      exec (.bits lsb w) s = .next { s with rsp := some ⟨.badArg, 0⟩ } ∧
      exec (.sbits lsb w) s = .next { s with rsp := some ⟨.badArg, 0⟩ }) ∧
    (lsb.toNat + w ≤ 32 →
      (∃ v : Word, exec (.bits lsb w) s = .next { s with rsp := some ⟨.ok, v⟩ } ∧
        ∀ k < 32, v.getLsbD k = (decide (k < w) && s.acc.getLsbD (lsb.toNat + k))) ∧
      (∃ v : Word, exec (.sbits lsb w) s = .next { s with rsp := some ⟨.ok, v⟩ } ∧
        ∀ k < 32, v.getLsbD k = s.acc.getLsbD (lsb.toNat + min k (w - 1))))

/-- `FLAGS p` (42_unpack.md R173): bits `2p + 1` and `2p` of `ACC` as a number 0 to 3; it is the same
as `BITS 2p, 2`. -/
def Obligations.FlagsOfAPosition : Prop :=
  encode (.flags 7) = 0xA8000007 ∧
  (∀ imm : Half, 7 < imm.toNat → ∃ e, decode ((0xA800 : Half) ++ imm) = .error e) ∧
  ∀ (s : State) (p : BitVec 3),
    exec (.flags p) s = .next { s with
      rsp := some ⟨.ok, BitVec.ofNat 32 (s.acc.toNat / 4 ^ p.toNat % 4)⟩ } ∧
    exec (.flags p) s = exec (.bits (BitVec.ofNat 5 (2 * p.toNat)) 2) s

/-- The datum of the response that `FLAGS p` gives. -/
def flagsData (s : State) (p : BitVec 3) : Option Word :=
  match exec (.flags p) s with
  | .next t => t.rsp.map Response.data
  | .fault _ => none
  | .refused _ => none

/-- No leakage between flag positions (42_unpack.md R174): `FLAGS p` depends only on bits `2p + 1` and
`2p` of `ACC`, and the eight results determine `ACC[15:0]` and are determined by it. -/
def Obligations.FlagPositionsDoNotLeak : Prop :=
  (∀ (s t : State) (p : BitVec 3),
    s.acc.getLsbD (2 * p.toNat) = t.acc.getLsbD (2 * p.toNat) →
    s.acc.getLsbD (2 * p.toNat + 1) = t.acc.getLsbD (2 * p.toNat + 1) →
    flagsData s p = flagsData t p) ∧
  (∀ s t : State,
    (∀ p : BitVec 3, flagsData s p = flagsData t p) ↔
      s.acc.extractLsb' 0 16 = t.acc.extractLsb' 0 16) ∧
  (∀ s : State, ∃ r : Fin 8 → Nat,
    (∀ k : Fin 8, flagsData s (BitVec.ofNat 3 k.val) = some (BitVec.ofNat 32 (r k)) ∧ r k < 4) ∧
    (s.acc.extractLsb' 0 16).toNat = ∑ k : Fin 8, r k * 4 ^ k.val)

/-! ### Frames of the commands -/

/-- No command writes `BUF` (20_memory.md R51): every byte reads after it as it read before. -/
def Obligations.CommandsNeverWriteBuf : Prop :=
  ∀ (i : Instr) (s t : State), exec i s = .next t →
    t.buf = s.buf ∧ ∀ a : Nat, t.readByte a = s.readByte a

/-- A status other than `OK` means the command did nothing (60_exceptions.md R222): no register, no
byte of `BUF` and no output but the response changed, and its data is 0. -/
def Obligations.RefusedCommandDoesNothing : Prop :=
  ∀ (i : Instr) (s t : State) (r : Response), exec i s = .next t → t.rsp = some r →
    r.status ≠ .ok → r.data = 0 ∧ t = { s with rsp := some ⟨r.status, 0⟩ } ∧ t.irq = s.irq ∧
      t.inReady = s.inReady

/-- Every command that answers a next state presents a response (10_state.md R42), and writes only the
registers that name it in the column *written by* of 10_state.md R10; of the loads only those in
cursor mode write `CUR`. -/
def Obligations.CommandsWriteOnlyTheirRegisters : Prop :=
  ∀ (i : Instr) (s t : State), exec i s = .next t →
    t.rsp.isSome = true ∧ t.cfg = s.cfg ∧ t.cycles = s.cycles ∧
    t.hId = s.hId ∧ t.hType = s.hType ∧ t.hRsp = s.hRsp ∧ t.hLen = s.hLen ∧
    t.ftype = s.ftype ∧ t.hasImu = s.hasImu ∧ t.hasIrehs = s.hasIrehs ∧
    t.flen = s.flen ∧ t.rxck = s.rxck ∧ t.calcCk = s.calcCk ∧
    (i.mnemonic ≠ "SETMODE" → t.mode = s.mode) ∧
    (i.mnemonic ∉ ["START", "STOP", "ACK", "FLUSH", "CLRERR"] → t.st = s.st) ∧
    (i.mnemonic ∉ ["START", "STOP", "ACK", "FLUSH"] →
      t.pos = s.pos ∧ t.shreg = s.shreg ∧ t.shcnt = s.shcnt) ∧
    (i.mnemonic ∉ ["START", "ACK", "FLUSH"] → t.ck = s.ck) ∧
    (i.mnemonic ∉ ["START", "STOP", "ACK", "CLRERR"] → t.result = s.result) ∧
    (i.mnemonic ∉ ["LDU8", "LDS8", "LDU16", "LDS16", "LD32"] → t.acc = s.acc) ∧
    (i.mnemonic ∉ ["SEEK", "SEEKB"] →
      (∀ (n : Nat) (slot : Slot), ¬IsLoad i n slot .cursor) → t.cur = s.cur) ∧
    (i.mnemonic ≠ "CKINIT" → t.xalg = s.xalg) ∧
    (i.mnemonic ∉ ["CKINIT", "CKBYTE"] → t.xacc = s.xacc) ∧
    (i.mnemonic ≠ "CLRCNT" → t.cntOk = s.cntOk ∧ t.cntCkerr = s.cntCkerr ∧
      t.cntHdrerr = s.cntHdrerr ∧ t.cntSyncerr = s.cntSyncerr ∧ t.cntSkip = s.cntSkip) ∧
    (i.mnemonic ≠ "SETIE" → t.ie = s.ie)

/-! ### The frame engine -/

/-- The stream steps leave the host's registers alone: `MODE`, `IE`, `ACC`, `XALG`, `XACC` and the
inputs (10_state.md R10, R30, R33). -/
def Obligations.StreamStepsLeaveHostRegisters : Prop :=
  ∀ (e : StreamEvent) (s t : State), streamStep e s = .next t →
    t.cfg = s.cfg ∧ t.mode = s.mode ∧ t.ie = s.ie ∧ t.acc = s.acc ∧ t.xalg = s.xalg ∧
    t.xacc = s.xacc ∧ t.rsp = s.rsp ∧ t.cycles = s.cycles

/-- Which byte of `BUF` a byte step stores (20_memory.md R52): in `HUNT` none but the sync bytes at a
lock, at addresses 0 to 2; in the other receiving states the byte itself, at address `POS`; in
`IDLE`, `DONE` and `FAULT` none. Every other byte reads as before. -/
def Obligations.ByteStepStoresOneByte : Prop :=
  ∀ (s t : State) (b : Byte), byteStep s b = .next t →
    (s.st = .hunt → ∀ a : Nat, (t.st = .hunt ∨ 2 < a) → t.readByte a = s.readByte a) ∧
    (s.st = .hunt → t.st ≠ .hunt → t.readByte 0 = .ok s.cfg.gSync0 ∧
      t.readByte 1 = .ok s.cfg.gSync1 ∧ t.readByte 2 = .ok s.cfg.gSync2) ∧
    (s.st = .header ∨ s.st = .body ∨ s.st = .trailer ∨ s.st = .collect →
      t.readByte s.pos.toNat = .ok b ∧
        ∀ a : Nat, a ≠ s.pos.toNat → t.readByte a = s.readByte a) ∧
    (s.st = .idle ∨ s.st = .done ∨ s.st = .fault → t = s)

/-- The hunt step and the lock (40_frame_engine.md R103, R104). -/
def Obligations.HuntStepShiftsAndLocks : Prop :=
  ∀ (s : State) (b : Byte), s.st = .hunt → 2 < s.cfg.bufSize →
    (∀ (skip : Half) (w : BitVec 24) (n : BitVec 2),
      skip = (if s.shcnt = 3 then satInc s.cntSkip else s.cntSkip) →
      w = s.shreg.extractLsb' 0 16 ++ b →
      n.toNat = min (s.shcnt.toNat + 1) 3 →
      ((n = 3 ∧ w = s.cfg.gSync0 ++ s.cfg.gSync1 ++ s.cfg.gSync2) →
        byteStep s b = .next { s with
          cntSkip := skip, shreg := 0, shcnt := 0, pos := 3, st := .header,
          ck := crcUpd s.cfg (crcUpd s.cfg (crcUpd s.cfg s.cfg.crcInit s.cfg.gSync0)
            s.cfg.gSync1) s.cfg.gSync2,
          buf := ((s.buf.write 0 s.cfg.gSync0).write 1 s.cfg.gSync1).write 2 s.cfg.gSync2 }) ∧
      (¬(n = 3 ∧ w = s.cfg.gSync0 ++ s.cfg.gSync1 ++ s.cfg.gSync2) →
        byteStep s b = .next { s with cntSkip := skip, shreg := w, shcnt := n }))

/-- The steps that store a byte and do not complete a header, a GNSS trailer or a window: the byte goes
to address `POS`, whatever it is; header and body bytes are covered, trailer bytes are not, window
bytes are covered below `A_CK_OFF`; the last body byte leads to the trailer
(40_frame_engine.md R105, R106, R109, R111, R116). -/
def Obligations.StoredBytesAreCovered : Prop :=
  ∀ (s : State) (b : Byte), s.pos.toNat < s.cfg.bufSize → s.pos.toNat < 65535 →
    (s.st = .header → s.mode = .gnss → s.pos.toNat + 1 ≠ s.cfg.gHdrLen →
      byteStep s b = .next { s with
        buf := s.buf.write s.pos.toNat b, ck := crcUpd s.cfg s.ck b, pos := s.pos + 1 }) ∧
    (s.st = .body → s.mode = .gnss →
      byteStep s b = .next { s with
        buf := s.buf.write s.pos.toNat b, ck := crcUpd s.cfg s.ck b, pos := s.pos + 1,
        st := if s.pos.toNat + 1 = s.cfg.gHdrLen + s.hLen.toNat then .trailer else .body }) ∧
    (s.st = .trailer → s.pos.toNat + 1 ≠ s.cfg.gHdrLen + s.hLen.toNat + 4 →
      byteStep s b = .next { s with buf := s.buf.write s.pos.toNat b, pos := s.pos + 1 }) ∧
    (s.st = .collect → s.mode = .attitude → s.pos.toNat + 1 ≠ s.cfg.aFrameLen →
      byteStep s b = .next { s with
        buf := s.buf.write s.pos.toNat b,
        ck := if s.pos.toNat < s.cfg.aCkOff
          then BitVec.ofNat 32 ((s.ck.toNat % 65536 + b.toNat) % 65536) else s.ck,
        pos := s.pos + 1 })

/-- The last header byte: the header registers take the fields of the stored header, and the engine
drops the frame, goes to the body or to the trailer (40_frame_engine.md R105 to R108). -/
def Obligations.HeaderCompletion : Prop :=
  ∀ (s : State) (b : Byte) (bs : List Byte), s.st = .header → s.mode = .gnss → s.cfg.WF →
    s.pos.toNat + 1 = s.cfg.gHdrLen → s.readBytes 0 s.pos.toNat = .ok bs →
    ∀ (id len ty : Nat),
      id = fieldAt (bs ++ [b]) s.cfg.gOffId s.cfg.gWId →
      ty = fieldAt (bs ++ [b]) s.cfg.gOffType 1 →
      len = fieldAt (bs ++ [b]) s.cfg.gOffLen s.cfg.gWLen →
      (s.cfg.gMaxBody < len →
        byteStep s b = .next { s with
          buf := s.buf.write s.pos.toNat b,
          hId := BitVec.ofNat 16 id, hType := BitVec.ofNat 8 ty,
          hRsp := ty.testBit s.cfg.gRspBit, hLen := BitVec.ofNat 16 len,
          cntHdrerr := satInc s.cntHdrerr,
          st := .hunt, pos := 0, shreg := 0, shcnt := 0, ck := s.cfg.crcInit }) ∧
      (len ≤ s.cfg.gMaxBody →
        byteStep s b = .next { s with
          buf := s.buf.write s.pos.toNat b,
          hId := BitVec.ofNat 16 id, hType := BitVec.ofNat 8 ty,
          hRsp := ty.testBit s.cfg.gRspBit, hLen := BitVec.ofNat 16 len,
          ck := crcUpd s.cfg s.ck b, pos := s.pos + 1,
          st := if len = 0 then .trailer else .body })

/-- The fourth trailer byte, the validation of a GNSS frame (40_frame_engine.md R112): a valid frame
is held, a bad one is counted and dropped with `RESULT` unchanged. -/
def Obligations.TrailerCompletion : Prop :=
  ∀ (s : State) (b : Byte) (bs : List Byte), s.st = .trailer → s.mode = .gnss →
    s.pos.toNat < s.cfg.bufSize → s.pos.toNat < 65535 →
    s.pos.toNat + 1 = s.cfg.gHdrLen + s.hLen.toNat + 4 → s.readBytes 0 s.pos.toNat = .ok bs →
    ∀ rx : Word, rx.toNat = fieldAt (bs ++ [b]) (s.pos.toNat - 3) 4 →
      (rx = s.ck ^^^ s.cfg.crcXorOut →
        byteStep s b = .next { s with
          buf := s.buf.write s.pos.toNat b, pos := s.pos + 1,
          rxck := rx, calcCk := s.ck ^^^ s.cfg.crcXorOut, flen := s.pos + 1,
          result := .ok, cntOk := satInc s.cntOk, cur := BitVec.ofNat 16 s.cfg.gHdrLen,
          st := .done }) ∧
      (rx ≠ s.ck ^^^ s.cfg.crcXorOut →
        byteStep s b = .next { s with
          buf := s.buf.write s.pos.toNat b,
          rxck := rx, calcCk := s.ck ^^^ s.cfg.crcXorOut, flen := s.pos + 1,
          cntCkerr := satInc s.cntCkerr,
          st := .hunt, pos := 0, shreg := 0, shcnt := 0, ck := s.cfg.crcInit })

/-- The last window byte, the validation of an attitude frame (40_frame_engine.md R117): the sync test
first, then the checksum test; the window is held in all three cases. -/
def Obligations.WindowCompletion : Prop :=
  ∀ (s : State) (b : Byte) (bs : List Byte), s.st = .collect → s.mode = .attitude → s.cfg.WF →
    s.pos.toNat + 1 = s.cfg.aFrameLen → s.readBytes 0 s.pos.toNat = .ok bs →
    ∀ (rx cc : Word) (f : Byte),
      rx.toNat = fieldAt (bs ++ [b]) s.cfg.aCkOff 2 →
      cc.toNat = s.ck.toNat % 65536 →
      f.toNat = fieldAt (bs ++ [b]) s.cfg.aOffFtype 1 →
      ∃ t : State, byteStep s b = .next t ∧
        t = { s with
          buf := s.buf.write s.pos.toNat b, pos := s.pos + 1,
          rxck := rx, calcCk := cc, flen := BitVec.ofNat 16 s.cfg.aFrameLen, ftype := f,
          hasImu := decide (f &&& s.cfg.aImuMask = s.cfg.aImuVal),
          hasIrehs := decide (f &&& s.cfg.aIrehsMask = s.cfg.aIrehsVal),
          cur := BitVec.ofNat 16 s.cfg.aHdrLen, st := .done,
          result := t.result, cntOk := t.cntOk, cntCkerr := t.cntCkerr,
          cntSyncerr := t.cntSyncerr } ∧
        (if (bs ++ [b]).take 2 ≠ [s.cfg.aSync0, s.cfg.aSync1] then
          t.result = .eSync ∧ t.cntSyncerr = satInc s.cntSyncerr ∧ t.cntCkerr = s.cntCkerr ∧
            t.cntOk = s.cntOk
        else if rx ≠ cc then
          t.result = .eCksum ∧ t.cntCkerr = satInc s.cntCkerr ∧ t.cntSyncerr = s.cntSyncerr ∧
            t.cntOk = s.cntOk
        else
          t.result = .ok ∧ t.cntOk = satInc s.cntOk ∧ t.cntSyncerr = s.cntSyncerr ∧
            t.cntCkerr = s.cntCkerr)

/-- The error step (40_frame_engine.md R120): in every receiving state, in either mode. -/
def Obligations.ErrorStepFaults : Prop :=
  ∀ s : State,
    (s.inReady = true →
      errStep s = .next { s with
        st := .fault, result := .eIo, pos := 0, shreg := 0, shcnt := 0 }) ∧
    (s.inReady = false → errStep s = .next s)

/-! ### Invariants and whole-machine rules -/

/-- A block that has just been reset satisfies the invariant, with every well-formed configuration
and any inputs to come (10_state.md R43, R44). -/
def Obligations.ResetSatisfiesInv : Prop :=
  ∀ s : State, s.Fresh → s.Inv

/-- Every step keeps the invariant (10_state.md R44 with R13, R14, R28, and 40_frame_engine.md R121 to
R123). -/
def Obligations.EveryStepKeepsInv : Prop :=
  ∀ s t : State, s.Inv → step s = .next t → t.Inv

/-- The step is total (70_reset_and_hazards.md R259): in a state that satisfies the invariant every
step, whatever inputs are waiting, answers a next state. In particular no step reads a byte of
`BUF` that nothing has written (20_memory.md R56) or reaches an address that does not exist. -/
def Obligations.EveryStepAnswersNext : Prop :=
  ∀ s : State, s.Inv → ∃ t, step s = .next t

/-- Every state that a run reaches from reset, with any well-formed configuration and any inputs,
satisfies the invariant (10_state.md R44). -/
def Obligations.ReachableStatesSatisfyInv : Prop :=
  ∀ s : State, Reachable s → s.Inv

/-- The clauses of 10_state.md R44 in every state that satisfies the invariant, clause (g) for every
`ST` but `IDLE` (log entry 5).

That a byte below `FLEN` was written since the last `restart()`, in clause (f), is said in two
parts, because a stale byte of an earlier frame can be read as well: the byte's address is below
`POS`, and `POS` counts the bytes stored since it was 0. For the second part a step leaves `POS`
at 0, or as it was with the bytes below it unchanged, or stores the sync bytes at 0 to 2 with `POS`
going from 0 to 3 (40_frame_engine.md R104), or stores the byte it takes at `POS`, which grows by
1 (10_state.md R14); `restart()` sets it to 0 (40_frame_engine.md R101, stated by
StartBeginsReception, AckReleasesFrame and FlushBeginsAnew).

The last clause says where clause (g) can begin to fail: not in a step from attitude mode to
attitude mode, so only in a `SETMODE 1` that comes from GNSS mode (43_control.md R191). -/
def Obligations.SoundStatesMeetR44 : Prop :=
  (∀ s : State, s.Inv →
    s.pos.toNat ≤ s.cfg.bufSize ∧
    (s.st ≠ .hunt → s.shcnt = 0) ∧
    (s.st = .done → s.pos = s.flen ∧
      (s.result = .ok ∨ s.result = .eCksum ∨ s.result = .eSync)) ∧
    (s.st = .fault ↔ s.result = .eIo) ∧
    (s.st = .done → s.mode = .gnss → s.result = .ok ∧ s.rxck = s.calcCk) ∧
    (s.st = .done → s.result = .ok → s.rxck = s.calcCk ∧
      ∀ a < s.flen.toNat, a < s.pos.toNat ∧ ∃ b, s.readByte a = .ok b) ∧
    (s.mode = .attitude → s.st ≠ .idle → s.ck.extractLsb' 16 16 = 0) ∧
    (s.xalg = .sum16 → s.xacc.extractLsb' 16 16 = 0)) ∧
  (∀ s t : State, s.Inv → step s = .next t →
    t.pos = 0 ∨
    (t.pos = s.pos ∧ ∀ a < s.pos.toNat, t.readByte a = s.readByte a) ∨
    (s.pos = 0 ∧ t.pos = 3 ∧
      t.readBytes 0 3 = .ok [s.cfg.gSync0, s.cfg.gSync1, s.cfg.gSync2]) ∨
    (t.pos.toNat = s.pos.toNat + 1 ∧ (∀ a < s.pos.toNat, t.readByte a = s.readByte a) ∧
      ∃ (c : Cycle) (cs : List Cycle) (b : Byte), s.cycles = c :: cs ∧
        c.streamEvent s.inReady = some (.byte b) ∧ t.readByte s.pos.toNat = .ok b)) ∧
  (∀ s t : State, s.Inv → step s = .next t → s.mode = .attitude → t.mode = .attitude →
    s.ck.extractLsb' 16 16 = 0 → t.ck.extractLsb' 16 16 = 0)

/-- Clause (g) of 10_state.md R44 as it is written, "in attitude mode `CK[31:16] = 0`", for every
reachable state. Expected to fail: `SETMODE 1` after reset leaves `CK` at `CRC_INIT`
(43_control.md R191; log entry 5). -/
def Obligations.AttitudeModeAlwaysShortCk : Prop :=
  ∀ s : State, Reachable s → s.mode = .attitude → s.ck.extractLsb' 16 16 = 0

/-- Every held GNSS frame is valid (40_frame_engine.md R122): it begins with the sync marker, its
length is header, body and trailer, and its integrity code is its trailer. -/
def Obligations.HeldGnssFrameIsValid : Prop :=
  ∀ s : State, s.Inv → s.st = .done → s.mode = .gnss →
    ∃ bs, s.readBytes 0 s.flen.toNat = .ok bs ∧ GnssSynced s.cfg bs ∧
      s.flen.toNat = s.cfg.gHdrLen + s.hLen.toNat + 4 ∧
      s.memRead (s.flen.toNat - 4) 4 = .ok (crc32 s.cfg (bs.take (s.flen.toNat - 4))).toNat ∧
      GnssFrame s.cfg bs

/-- Attitude acceptance and rejection (40_frame_engine.md R123): a held window has `RESULT = OK`
exactly when its first two bytes are `A_SYNC` and its sum is its checksum; and of two held windows
that differ in exactly one byte, hence of two that differ in one bit, at most one has
`RESULT = OK`. -/
def Obligations.WindowAcceptance : Prop :=
  (∀ s : State, s.Inv → s.st = .done → s.mode = .attitude →
    ∃ bs, s.readBytes 0 s.cfg.aFrameLen = .ok bs ∧
      (s.result = .ok ↔ bs.take 2 = [s.cfg.aSync0, s.cfg.aSync1] ∧
        s.memRead s.cfg.aCkOff 2 = .ok (sum16 s.cfg (bs.take s.cfg.aCkOff)).toNat)) ∧
  (∀ (s t : State) (bs : List Byte) (k : Nat) (b : Byte), s.Inv → t.Inv → t.cfg = s.cfg →
    s.st = .done → t.st = .done → s.mode = .attitude → t.mode = .attitude →
    s.readBytes 0 s.cfg.aFrameLen = .ok bs → t.readBytes 0 s.cfg.aFrameLen = .ok (bs.set k b) →
    k < bs.length → bs[k]? ≠ some b → s.result = .ok → t.result ≠ .ok)

/-- GNSS acceptance (40_frame_engine.md R121): from `HUNT` with an empty window, a noise string and a
well-formed frame, whose sync marker is the first in the stream, end in `DONE` with `RESULT = OK`,
`FLEN` and `BUF` the frame's, and `CNT_SKIP` grown by the length of the noise, saturating. -/
def Obligations.GnssFrameIsHeld : Prop :=
  ∀ (s : State) (noise frame : List Byte) (rest : List Cycle),
    s.Inv → s.st = .hunt → s.shcnt = 0 → GnssFrame s.cfg frame →
    (∀ k : Nat, ((noise ++ frame).drop k).take 3 =
      [s.cfg.gSync0, s.cfg.gSync1, s.cfg.gSync2] → noise.length ≤ k) →
    s.cycles = (noise ++ frame).map byteCycle ++ rest →
    ∃ t : State, Sys2Proof.core.run (noise ++ frame).length s = .next t ∧
      t.st = .done ∧ t.result = .ok ∧ t.flen.toNat = frame.length ∧
      t.readBytes 0 frame.length = .ok frame ∧
      t.cntSkip.toNat = min (s.cntSkip.toNat + noise.length) 0xFFFF ∧ t.cycles = rest

/-- No observable behaviour depends on a byte of `BUF` that has not been stored since the last
`restart()` (20_memory.md R56): two states that differ only in such bytes step alike, and again
differ only in such bytes. -/
def Obligations.StaleBytesAreUnobservable : Prop :=
  ∀ (s : State) (m : Memory), s.Inv → ({ s with buf := m } : State).Inv →
    (∀ a < s.pos.toNat, m.read a = s.buf.read a) →
    ∃ (t : State) (m' : Memory), step s = .next t ∧
      step { s with buf := m } = .next { t with buf := m' } ∧
      ∀ a < t.pos.toNat, m'.read a = t.buf.read a
end

