-- ==== Sys2Proof/Laws/Decode.lean ====
section
/-! SUPPORT. The fields of a command word, and the codes of its operands (30_encoding.md R80). -/

namespace Sys2Proof

/-- Taking a word apart undoes putting it together. -/
@[simp] theorem fieldsOf_wordOf (f : Fields) : fieldsOf (wordOf f) = f := by
  obtain ⟨opc, slot, am, rsv, imm⟩ := f
  simp only [fieldsOf, wordOf, Fields.mk.injEq]
  refine ⟨?_, ?_, ?_, ?_, ?_⟩ <;> apply BitVec.eq_of_getLsbD_eq <;> intro i hi <;>
    simp only [BitVec.getLsbD_extractLsb', BitVec.getLsbD_append] <;> grind

/-- Putting a word together undoes taking it apart. -/
@[simp] theorem wordOf_fieldsOf (w : Word) : wordOf (fieldsOf w) = w := by
  simp only [fieldsOf, wordOf]
  apply BitVec.eq_of_getLsbD_eq
  intro i hi
  simp only [BitVec.getLsbD_extractLsb', BitVec.getLsbD_append]
  grind

@[simp] theorem slotOf_slotCode (s : Slot) : slotOf (slotCode s) = s := by cases s <;> rfl

@[simp] theorem slotCode_slotOf (v : BitVec 2) : slotCode (slotOf v) = v := by revert v; decide

@[simp] theorem pathOf_pathCode (m : DevicePath) : pathOf (pathCode m) = m := by cases m <;> rfl

@[simp] theorem pathCode_pathOf (v : BitVec 1) : pathCode (pathOf v) = v := by revert v; decide

@[simp] theorem algOf_algCode (a : Alg) : algOf (algCode a) = a := by cases a <;> rfl

@[simp] theorem algCode_algOf (v : BitVec 1) : algCode (algOf v) = v := by revert v; decide

/-- Decoding a command's word is decoding its fields. -/
theorem decode_encode_fields (i : Instr) : decode (encode i) = decodeFields (encodeFields i) := by
  simp [decode, encode]

/-- All that `noLoadFields` can answer: a refusal by name, or what the format goes on with. -/
theorem noLoadFields_eq_ok {f : Fields} {k : Except Illegal Instr} {i : Instr} :
    noLoadFields f k = .ok i ↔ f.rsv = 0 ∧ f.slot = 0 ∧ f.am = 0 ∧ k = .ok i := by
  unfold noLoadFields
  by_cases h : f.rsv = 0#7 <;> by_cases h2 : f.slot = 0#2 <;> by_cases h3 : f.am = 0#1 <;>
    simp [h, h2, h3]

/-- A format Z word decodes exactly when every field but the opcode is 0 (30_encoding.md R81). -/
theorem formatZ_eq_ok {f : Fields} {i j : Instr} :
    formatZ f i = .ok j ↔ f.rsv = 0 ∧ f.slot = 0 ∧ f.am = 0 ∧ f.imm = 0 ∧ i = j := by
  simp only [formatZ, noLoadFields_eq_ok]
  by_cases h : f.imm = 0#16 <;> simp [h]

/-- A format I word decodes exactly when the unused bits are 0 (30_encoding.md R82). -/
theorem formatI_eq_ok {f : Fields} {n : Nat} {mk : BitVec n → Instr} {j : Instr} :
    formatI f n mk = .ok j ↔
      f.rsv = 0 ∧ f.slot = 0 ∧ f.am = 0 ∧ f.imm = (f.imm.setWidth n).setWidth 16 ∧
        mk (f.imm.setWidth n) = j := by
  simp only [formatI, noLoadFields_eq_ok]
  by_cases h : f.imm = (f.imm.setWidth n).setWidth 16
  · rw [if_neg (not_not.2 h)]; simp [← h]
  · simp [h]

/-- A format B word decodes exactly when the unused bits are 0 (30_encoding.md R84). -/
theorem formatB_eq_ok {f : Fields} {mk : BitVec 5 → Nat → Instr} {j : Instr} :
    formatB f mk = .ok j ↔
      f.rsv = 0 ∧ f.slot = 0 ∧ f.am = 0 ∧
        f.imm.extractLsb' 5 3 = 0 ∧ f.imm.extractLsb' 13 3 = 0 ∧
        mk (f.imm.extractLsb' 0 5) ((f.imm.extractLsb' 8 5).toNat + 1) = j := by
  simp only [formatB, noLoadFields_eq_ok]
  by_cases h : f.imm.extractLsb' 5 3 = 0#3 <;> by_cases h2 : f.imm.extractLsb' 13 3 = 0#3 <;>
    simp [h, h2]

/-- A format L word decodes to the absolute form, or with `am = 1` and `imm = 0` to the cursor form
(30_encoding.md R83). -/
theorem formatL_eq_ok {f : Fields} {abs : Slot → Half → Instr} {cur : Slot → Instr} {j : Instr} :
    formatL f abs cur = .ok j ↔
      f.rsv = 0 ∧ ((f.am = 0 ∧ abs (slotOf f.slot) f.imm = j) ∨
        (f.am = 1 ∧ f.imm = 0 ∧ cur (slotOf f.slot) = j)) := by
  have ham : f.am = 0#1 ∨ f.am = 1#1 := by generalize f.am = x; revert x; decide
  unfold formatL
  by_cases hr : f.rsv = 0#7
  · rcases ham with h | h
    · simp [hr, h]
    · by_cases hi : f.imm = 0#16 <;> simp [hr, h, hi]
  · simp [hr]

end Sys2Proof
end

