-- ==== Sys2Proof/Laws/State.lean ====
section
/-! SUPPORT. One lemma per field for each named update of the state: what the update writes into the
field, or that it leaves the field alone. All true by `rfl`. -/

namespace Sys2Proof.Machine

/-! ### `respond` -/

@[simp] theorem State.respond_cfg (s : State) (st : Status) (d : Word) :
    (s.respond st d).cfg = s.cfg := rfl
@[simp] theorem State.respond_mode (s : State) (st : Status) (d : Word) :
    (s.respond st d).mode = s.mode := rfl
@[simp] theorem State.respond_st (s : State) (st : Status) (d : Word) :
    (s.respond st d).st = s.st := rfl
@[simp] theorem State.respond_pos (s : State) (st : Status) (d : Word) :
    (s.respond st d).pos = s.pos := rfl
@[simp] theorem State.respond_shreg (s : State) (st : Status) (d : Word) :
    (s.respond st d).shreg = s.shreg := rfl
@[simp] theorem State.respond_shcnt (s : State) (st : Status) (d : Word) :
    (s.respond st d).shcnt = s.shcnt := rfl
@[simp] theorem State.respond_ck (s : State) (st : Status) (d : Word) :
    (s.respond st d).ck = s.ck := rfl
@[simp] theorem State.respond_hId (s : State) (st : Status) (d : Word) :
    (s.respond st d).hId = s.hId := rfl
@[simp] theorem State.respond_hType (s : State) (st : Status) (d : Word) :
    (s.respond st d).hType = s.hType := rfl
@[simp] theorem State.respond_hRsp (s : State) (st : Status) (d : Word) :
    (s.respond st d).hRsp = s.hRsp := rfl
@[simp] theorem State.respond_hLen (s : State) (st : Status) (d : Word) :
    (s.respond st d).hLen = s.hLen := rfl
@[simp] theorem State.respond_ftype (s : State) (st : Status) (d : Word) :
    (s.respond st d).ftype = s.ftype := rfl
@[simp] theorem State.respond_hasImu (s : State) (st : Status) (d : Word) :
    (s.respond st d).hasImu = s.hasImu := rfl
@[simp] theorem State.respond_hasIrehs (s : State) (st : Status) (d : Word) :
    (s.respond st d).hasIrehs = s.hasIrehs := rfl
@[simp] theorem State.respond_flen (s : State) (st : Status) (d : Word) :
    (s.respond st d).flen = s.flen := rfl
@[simp] theorem State.respond_rxck (s : State) (st : Status) (d : Word) :
    (s.respond st d).rxck = s.rxck := rfl
@[simp] theorem State.respond_calcCk (s : State) (st : Status) (d : Word) :
    (s.respond st d).calcCk = s.calcCk := rfl
@[simp] theorem State.respond_result (s : State) (st : Status) (d : Word) :
    (s.respond st d).result = s.result := rfl
@[simp] theorem State.respond_acc (s : State) (st : Status) (d : Word) :
    (s.respond st d).acc = s.acc := rfl
@[simp] theorem State.respond_cur (s : State) (st : Status) (d : Word) :
    (s.respond st d).cur = s.cur := rfl
@[simp] theorem State.respond_xalg (s : State) (st : Status) (d : Word) :
    (s.respond st d).xalg = s.xalg := rfl
@[simp] theorem State.respond_xacc (s : State) (st : Status) (d : Word) :
    (s.respond st d).xacc = s.xacc := rfl
@[simp] theorem State.respond_cntOk (s : State) (st : Status) (d : Word) :
    (s.respond st d).cntOk = s.cntOk := rfl
@[simp] theorem State.respond_cntCkerr (s : State) (st : Status) (d : Word) :
    (s.respond st d).cntCkerr = s.cntCkerr := rfl
@[simp] theorem State.respond_cntHdrerr (s : State) (st : Status) (d : Word) :
    (s.respond st d).cntHdrerr = s.cntHdrerr := rfl
@[simp] theorem State.respond_cntSyncerr (s : State) (st : Status) (d : Word) :
    (s.respond st d).cntSyncerr = s.cntSyncerr := rfl
@[simp] theorem State.respond_cntSkip (s : State) (st : Status) (d : Word) :
    (s.respond st d).cntSkip = s.cntSkip := rfl
@[simp] theorem State.respond_ie (s : State) (st : Status) (d : Word) :
    (s.respond st d).ie = s.ie := rfl
@[simp] theorem State.respond_buf (s : State) (st : Status) (d : Word) :
    (s.respond st d).buf = s.buf := rfl
@[simp] theorem State.respond_rsp (s : State) (st : Status) (d : Word) :
    (s.respond st d).rsp = some { status := st, data := d } := rfl
@[simp] theorem State.respond_cycles (s : State) (st : Status) (d : Word) :
    (s.respond st d).cycles = s.cycles := rfl

/-! ### `clearCounters` -/

@[simp] theorem State.clearCounters_cfg (s : State) : s.clearCounters.cfg = s.cfg := rfl
@[simp] theorem State.clearCounters_mode (s : State) : s.clearCounters.mode = s.mode := rfl
@[simp] theorem State.clearCounters_st (s : State) : s.clearCounters.st = s.st := rfl
@[simp] theorem State.clearCounters_pos (s : State) : s.clearCounters.pos = s.pos := rfl
@[simp] theorem State.clearCounters_shreg (s : State) : s.clearCounters.shreg = s.shreg := rfl
@[simp] theorem State.clearCounters_shcnt (s : State) : s.clearCounters.shcnt = s.shcnt := rfl
@[simp] theorem State.clearCounters_ck (s : State) : s.clearCounters.ck = s.ck := rfl
@[simp] theorem State.clearCounters_hId (s : State) : s.clearCounters.hId = s.hId := rfl
@[simp] theorem State.clearCounters_hType (s : State) : s.clearCounters.hType = s.hType := rfl
@[simp] theorem State.clearCounters_hRsp (s : State) : s.clearCounters.hRsp = s.hRsp := rfl
@[simp] theorem State.clearCounters_hLen (s : State) : s.clearCounters.hLen = s.hLen := rfl
@[simp] theorem State.clearCounters_ftype (s : State) : s.clearCounters.ftype = s.ftype := rfl
@[simp] theorem State.clearCounters_hasImu (s : State) : s.clearCounters.hasImu = s.hasImu := rfl
@[simp] theorem State.clearCounters_hasIrehs (s : State) :
    s.clearCounters.hasIrehs = s.hasIrehs := rfl
@[simp] theorem State.clearCounters_flen (s : State) : s.clearCounters.flen = s.flen := rfl
@[simp] theorem State.clearCounters_rxck (s : State) : s.clearCounters.rxck = s.rxck := rfl
@[simp] theorem State.clearCounters_calcCk (s : State) : s.clearCounters.calcCk = s.calcCk := rfl
@[simp] theorem State.clearCounters_result (s : State) : s.clearCounters.result = s.result := rfl
@[simp] theorem State.clearCounters_acc (s : State) : s.clearCounters.acc = s.acc := rfl
@[simp] theorem State.clearCounters_cur (s : State) : s.clearCounters.cur = s.cur := rfl
@[simp] theorem State.clearCounters_xalg (s : State) : s.clearCounters.xalg = s.xalg := rfl
@[simp] theorem State.clearCounters_xacc (s : State) : s.clearCounters.xacc = s.xacc := rfl
@[simp] theorem State.clearCounters_cntOk (s : State) : s.clearCounters.cntOk = 0 := rfl
@[simp] theorem State.clearCounters_cntCkerr (s : State) : s.clearCounters.cntCkerr = 0 := rfl
@[simp] theorem State.clearCounters_cntHdrerr (s : State) : s.clearCounters.cntHdrerr = 0 := rfl
@[simp] theorem State.clearCounters_cntSyncerr (s : State) : s.clearCounters.cntSyncerr = 0 := rfl
@[simp] theorem State.clearCounters_cntSkip (s : State) : s.clearCounters.cntSkip = 0 := rfl
@[simp] theorem State.clearCounters_ie (s : State) : s.clearCounters.ie = s.ie := rfl
@[simp] theorem State.clearCounters_buf (s : State) : s.clearCounters.buf = s.buf := rfl
@[simp] theorem State.clearCounters_rsp (s : State) : s.clearCounters.rsp = s.rsp := rfl
@[simp] theorem State.clearCounters_cycles (s : State) : s.clearCounters.cycles = s.cycles := rfl

/-! ### `restart` -/

@[simp] theorem State.restart_cfg (s : State) : s.restart.cfg = s.cfg := rfl
@[simp] theorem State.restart_mode (s : State) : s.restart.mode = s.mode := rfl
@[simp] theorem State.restart_st (s : State) : s.restart.st = firstState s.mode := rfl
@[simp] theorem State.restart_pos (s : State) : s.restart.pos = 0 := rfl
@[simp] theorem State.restart_shreg (s : State) : s.restart.shreg = 0 := rfl
@[simp] theorem State.restart_shcnt (s : State) : s.restart.shcnt = 0 := rfl
@[simp] theorem State.restart_ck (s : State) :
    s.restart.ck = accInit s.cfg (algOfPath s.mode) := rfl
@[simp] theorem State.restart_hId (s : State) : s.restart.hId = s.hId := rfl
@[simp] theorem State.restart_hType (s : State) : s.restart.hType = s.hType := rfl
@[simp] theorem State.restart_hRsp (s : State) : s.restart.hRsp = s.hRsp := rfl
@[simp] theorem State.restart_hLen (s : State) : s.restart.hLen = s.hLen := rfl
@[simp] theorem State.restart_ftype (s : State) : s.restart.ftype = s.ftype := rfl
@[simp] theorem State.restart_hasImu (s : State) : s.restart.hasImu = s.hasImu := rfl
@[simp] theorem State.restart_hasIrehs (s : State) : s.restart.hasIrehs = s.hasIrehs := rfl
@[simp] theorem State.restart_flen (s : State) : s.restart.flen = s.flen := rfl
@[simp] theorem State.restart_rxck (s : State) : s.restart.rxck = s.rxck := rfl
@[simp] theorem State.restart_calcCk (s : State) : s.restart.calcCk = s.calcCk := rfl
@[simp] theorem State.restart_result (s : State) : s.restart.result = s.result := rfl
@[simp] theorem State.restart_acc (s : State) : s.restart.acc = s.acc := rfl
@[simp] theorem State.restart_cur (s : State) : s.restart.cur = s.cur := rfl
@[simp] theorem State.restart_xalg (s : State) : s.restart.xalg = s.xalg := rfl
@[simp] theorem State.restart_xacc (s : State) : s.restart.xacc = s.xacc := rfl
@[simp] theorem State.restart_cntOk (s : State) : s.restart.cntOk = s.cntOk := rfl
@[simp] theorem State.restart_cntCkerr (s : State) : s.restart.cntCkerr = s.cntCkerr := rfl
@[simp] theorem State.restart_cntHdrerr (s : State) : s.restart.cntHdrerr = s.cntHdrerr := rfl
@[simp] theorem State.restart_cntSyncerr (s : State) : s.restart.cntSyncerr = s.cntSyncerr := rfl
@[simp] theorem State.restart_cntSkip (s : State) : s.restart.cntSkip = s.cntSkip := rfl
@[simp] theorem State.restart_ie (s : State) : s.restart.ie = s.ie := rfl
@[simp] theorem State.restart_buf (s : State) : s.restart.buf = s.buf := rfl
@[simp] theorem State.restart_rsp (s : State) : s.restart.rsp = s.rsp := rfl
@[simp] theorem State.restart_cycles (s : State) : s.restart.cycles = s.cycles := rfl

/-! ### `hold` -/

@[simp] theorem State.hold_cfg (s : State) (r : ResultCode) : (s.hold r).cfg = s.cfg := rfl
@[simp] theorem State.hold_mode (s : State) (r : ResultCode) : (s.hold r).mode = s.mode := rfl
@[simp] theorem State.hold_st (s : State) (r : ResultCode) : (s.hold r).st = .done := rfl
@[simp] theorem State.hold_pos (s : State) (r : ResultCode) : (s.hold r).pos = s.pos := rfl
@[simp] theorem State.hold_shreg (s : State) (r : ResultCode) : (s.hold r).shreg = s.shreg := rfl
@[simp] theorem State.hold_shcnt (s : State) (r : ResultCode) : (s.hold r).shcnt = s.shcnt := rfl
@[simp] theorem State.hold_ck (s : State) (r : ResultCode) : (s.hold r).ck = s.ck := rfl
@[simp] theorem State.hold_hId (s : State) (r : ResultCode) : (s.hold r).hId = s.hId := rfl
@[simp] theorem State.hold_hType (s : State) (r : ResultCode) : (s.hold r).hType = s.hType := rfl
@[simp] theorem State.hold_hRsp (s : State) (r : ResultCode) : (s.hold r).hRsp = s.hRsp := rfl
@[simp] theorem State.hold_hLen (s : State) (r : ResultCode) : (s.hold r).hLen = s.hLen := rfl
@[simp] theorem State.hold_ftype (s : State) (r : ResultCode) : (s.hold r).ftype = s.ftype := rfl
@[simp] theorem State.hold_hasImu (s : State) (r : ResultCode) : (s.hold r).hasImu = s.hasImu := rfl
@[simp] theorem State.hold_hasIrehs (s : State) (r : ResultCode) :
    (s.hold r).hasIrehs = s.hasIrehs := rfl
@[simp] theorem State.hold_flen (s : State) (r : ResultCode) : (s.hold r).flen = s.flen := rfl
@[simp] theorem State.hold_rxck (s : State) (r : ResultCode) : (s.hold r).rxck = s.rxck := rfl
@[simp] theorem State.hold_calcCk (s : State) (r : ResultCode) : (s.hold r).calcCk = s.calcCk := rfl
@[simp] theorem State.hold_result (s : State) (r : ResultCode) : (s.hold r).result = r := rfl
@[simp] theorem State.hold_acc (s : State) (r : ResultCode) : (s.hold r).acc = s.acc := rfl
@[simp] theorem State.hold_cur (s : State) (r : ResultCode) : (s.hold r).cur = s.bodyOff := rfl
@[simp] theorem State.hold_xalg (s : State) (r : ResultCode) : (s.hold r).xalg = s.xalg := rfl
@[simp] theorem State.hold_xacc (s : State) (r : ResultCode) : (s.hold r).xacc = s.xacc := rfl
@[simp] theorem State.hold_cntOk (s : State) (r : ResultCode) : (s.hold r).cntOk = s.cntOk := rfl
@[simp] theorem State.hold_cntCkerr (s : State) (r : ResultCode) :
    (s.hold r).cntCkerr = s.cntCkerr := rfl
@[simp] theorem State.hold_cntHdrerr (s : State) (r : ResultCode) :
    (s.hold r).cntHdrerr = s.cntHdrerr := rfl
@[simp] theorem State.hold_cntSyncerr (s : State) (r : ResultCode) :
    (s.hold r).cntSyncerr = s.cntSyncerr := rfl
@[simp] theorem State.hold_cntSkip (s : State) (r : ResultCode) :
    (s.hold r).cntSkip = s.cntSkip := rfl
@[simp] theorem State.hold_ie (s : State) (r : ResultCode) : (s.hold r).ie = s.ie := rfl
@[simp] theorem State.hold_buf (s : State) (r : ResultCode) : (s.hold r).buf = s.buf := rfl
@[simp] theorem State.hold_rsp (s : State) (r : ResultCode) : (s.hold r).rsp = s.rsp := rfl
@[simp] theorem State.hold_cycles (s : State) (r : ResultCode) : (s.hold r).cycles = s.cycles := rfl

/-! ### `takeFault` -/

@[simp] theorem State.takeFault_cfg (s : State) : s.takeFault.cfg = s.cfg := rfl
@[simp] theorem State.takeFault_mode (s : State) : s.takeFault.mode = s.mode := rfl
@[simp] theorem State.takeFault_st (s : State) : s.takeFault.st = .fault := rfl
@[simp] theorem State.takeFault_pos (s : State) : s.takeFault.pos = 0 := rfl
@[simp] theorem State.takeFault_shreg (s : State) : s.takeFault.shreg = 0 := rfl
@[simp] theorem State.takeFault_shcnt (s : State) : s.takeFault.shcnt = 0 := rfl
@[simp] theorem State.takeFault_ck (s : State) : s.takeFault.ck = s.ck := rfl
@[simp] theorem State.takeFault_hId (s : State) : s.takeFault.hId = s.hId := rfl
@[simp] theorem State.takeFault_hType (s : State) : s.takeFault.hType = s.hType := rfl
@[simp] theorem State.takeFault_hRsp (s : State) : s.takeFault.hRsp = s.hRsp := rfl
@[simp] theorem State.takeFault_hLen (s : State) : s.takeFault.hLen = s.hLen := rfl
@[simp] theorem State.takeFault_ftype (s : State) : s.takeFault.ftype = s.ftype := rfl
@[simp] theorem State.takeFault_hasImu (s : State) : s.takeFault.hasImu = s.hasImu := rfl
@[simp] theorem State.takeFault_hasIrehs (s : State) : s.takeFault.hasIrehs = s.hasIrehs := rfl
@[simp] theorem State.takeFault_flen (s : State) : s.takeFault.flen = s.flen := rfl
@[simp] theorem State.takeFault_rxck (s : State) : s.takeFault.rxck = s.rxck := rfl
@[simp] theorem State.takeFault_calcCk (s : State) : s.takeFault.calcCk = s.calcCk := rfl
@[simp] theorem State.takeFault_result (s : State) : s.takeFault.result = .eIo := rfl
@[simp] theorem State.takeFault_acc (s : State) : s.takeFault.acc = s.acc := rfl
@[simp] theorem State.takeFault_cur (s : State) : s.takeFault.cur = s.cur := rfl
@[simp] theorem State.takeFault_xalg (s : State) : s.takeFault.xalg = s.xalg := rfl
@[simp] theorem State.takeFault_xacc (s : State) : s.takeFault.xacc = s.xacc := rfl
@[simp] theorem State.takeFault_cntOk (s : State) : s.takeFault.cntOk = s.cntOk := rfl
@[simp] theorem State.takeFault_cntCkerr (s : State) : s.takeFault.cntCkerr = s.cntCkerr := rfl
@[simp] theorem State.takeFault_cntHdrerr (s : State) : s.takeFault.cntHdrerr = s.cntHdrerr := rfl
@[simp] theorem State.takeFault_cntSyncerr (s : State) :
    s.takeFault.cntSyncerr = s.cntSyncerr := rfl
@[simp] theorem State.takeFault_cntSkip (s : State) : s.takeFault.cntSkip = s.cntSkip := rfl
@[simp] theorem State.takeFault_ie (s : State) : s.takeFault.ie = s.ie := rfl
@[simp] theorem State.takeFault_buf (s : State) : s.takeFault.buf = s.buf := rfl
@[simp] theorem State.takeFault_rsp (s : State) : s.takeFault.rsp = s.rsp := rfl
@[simp] theorem State.takeFault_cycles (s : State) : s.takeFault.cycles = s.cycles := rfl

/-! ### `newFrame` -/

@[simp] theorem State.newFrame_cfg (s : State) : s.newFrame.cfg = s.cfg := rfl
@[simp] theorem State.newFrame_mode (s : State) : s.newFrame.mode = s.mode := rfl
@[simp] theorem State.newFrame_st (s : State) : s.newFrame.st = firstState s.mode := rfl
@[simp] theorem State.newFrame_pos (s : State) : s.newFrame.pos = 0 := rfl
@[simp] theorem State.newFrame_shreg (s : State) : s.newFrame.shreg = 0 := rfl
@[simp] theorem State.newFrame_shcnt (s : State) : s.newFrame.shcnt = 0 := rfl
@[simp] theorem State.newFrame_ck (s : State) :
    s.newFrame.ck = accInit s.cfg (algOfPath s.mode) := rfl
@[simp] theorem State.newFrame_hId (s : State) : s.newFrame.hId = s.hId := rfl
@[simp] theorem State.newFrame_hType (s : State) : s.newFrame.hType = s.hType := rfl
@[simp] theorem State.newFrame_hRsp (s : State) : s.newFrame.hRsp = s.hRsp := rfl
@[simp] theorem State.newFrame_hLen (s : State) : s.newFrame.hLen = s.hLen := rfl
@[simp] theorem State.newFrame_ftype (s : State) : s.newFrame.ftype = s.ftype := rfl
@[simp] theorem State.newFrame_hasImu (s : State) : s.newFrame.hasImu = s.hasImu := rfl
@[simp] theorem State.newFrame_hasIrehs (s : State) : s.newFrame.hasIrehs = s.hasIrehs := rfl
@[simp] theorem State.newFrame_flen (s : State) : s.newFrame.flen = s.flen := rfl
@[simp] theorem State.newFrame_rxck (s : State) : s.newFrame.rxck = s.rxck := rfl
@[simp] theorem State.newFrame_calcCk (s : State) : s.newFrame.calcCk = s.calcCk := rfl
@[simp] theorem State.newFrame_result (s : State) : s.newFrame.result = .none := rfl
@[simp] theorem State.newFrame_acc (s : State) : s.newFrame.acc = s.acc := rfl
@[simp] theorem State.newFrame_cur (s : State) : s.newFrame.cur = s.cur := rfl
@[simp] theorem State.newFrame_xalg (s : State) : s.newFrame.xalg = s.xalg := rfl
@[simp] theorem State.newFrame_xacc (s : State) : s.newFrame.xacc = s.xacc := rfl
@[simp] theorem State.newFrame_cntOk (s : State) : s.newFrame.cntOk = s.cntOk := rfl
@[simp] theorem State.newFrame_cntCkerr (s : State) : s.newFrame.cntCkerr = s.cntCkerr := rfl
@[simp] theorem State.newFrame_cntHdrerr (s : State) : s.newFrame.cntHdrerr = s.cntHdrerr := rfl
@[simp] theorem State.newFrame_cntSyncerr (s : State) : s.newFrame.cntSyncerr = s.cntSyncerr := rfl
@[simp] theorem State.newFrame_cntSkip (s : State) : s.newFrame.cntSkip = s.cntSkip := rfl
@[simp] theorem State.newFrame_ie (s : State) : s.newFrame.ie = s.ie := rfl
@[simp] theorem State.newFrame_buf (s : State) : s.newFrame.buf = s.buf := rfl
@[simp] theorem State.newFrame_rsp (s : State) : s.newFrame.rsp = s.rsp := rfl
@[simp] theorem State.newFrame_cycles (s : State) : s.newFrame.cycles = s.cycles := rfl

/-! ### `goIdle` -/

@[simp] theorem State.goIdle_cfg (s : State) : s.goIdle.cfg = s.cfg := rfl
@[simp] theorem State.goIdle_mode (s : State) : s.goIdle.mode = s.mode := rfl
@[simp] theorem State.goIdle_st (s : State) : s.goIdle.st = .idle := rfl
@[simp] theorem State.goIdle_pos (s : State) : s.goIdle.pos = 0 := rfl
@[simp] theorem State.goIdle_shreg (s : State) : s.goIdle.shreg = 0 := rfl
@[simp] theorem State.goIdle_shcnt (s : State) : s.goIdle.shcnt = 0 := rfl
@[simp] theorem State.goIdle_ck (s : State) : s.goIdle.ck = s.ck := rfl
@[simp] theorem State.goIdle_hId (s : State) : s.goIdle.hId = s.hId := rfl
@[simp] theorem State.goIdle_hType (s : State) : s.goIdle.hType = s.hType := rfl
@[simp] theorem State.goIdle_hRsp (s : State) : s.goIdle.hRsp = s.hRsp := rfl
@[simp] theorem State.goIdle_hLen (s : State) : s.goIdle.hLen = s.hLen := rfl
@[simp] theorem State.goIdle_ftype (s : State) : s.goIdle.ftype = s.ftype := rfl
@[simp] theorem State.goIdle_hasImu (s : State) : s.goIdle.hasImu = s.hasImu := rfl
@[simp] theorem State.goIdle_hasIrehs (s : State) : s.goIdle.hasIrehs = s.hasIrehs := rfl
@[simp] theorem State.goIdle_flen (s : State) : s.goIdle.flen = s.flen := rfl
@[simp] theorem State.goIdle_rxck (s : State) : s.goIdle.rxck = s.rxck := rfl
@[simp] theorem State.goIdle_calcCk (s : State) : s.goIdle.calcCk = s.calcCk := rfl
@[simp] theorem State.goIdle_result (s : State) : s.goIdle.result = .none := rfl
@[simp] theorem State.goIdle_acc (s : State) : s.goIdle.acc = s.acc := rfl
@[simp] theorem State.goIdle_cur (s : State) : s.goIdle.cur = s.cur := rfl
@[simp] theorem State.goIdle_xalg (s : State) : s.goIdle.xalg = s.xalg := rfl
@[simp] theorem State.goIdle_xacc (s : State) : s.goIdle.xacc = s.xacc := rfl
@[simp] theorem State.goIdle_cntOk (s : State) : s.goIdle.cntOk = s.cntOk := rfl
@[simp] theorem State.goIdle_cntCkerr (s : State) : s.goIdle.cntCkerr = s.cntCkerr := rfl
@[simp] theorem State.goIdle_cntHdrerr (s : State) : s.goIdle.cntHdrerr = s.cntHdrerr := rfl
@[simp] theorem State.goIdle_cntSyncerr (s : State) : s.goIdle.cntSyncerr = s.cntSyncerr := rfl
@[simp] theorem State.goIdle_cntSkip (s : State) : s.goIdle.cntSkip = s.cntSkip := rfl
@[simp] theorem State.goIdle_ie (s : State) : s.goIdle.ie = s.ie := rfl
@[simp] theorem State.goIdle_buf (s : State) : s.goIdle.buf = s.buf := rfl
@[simp] theorem State.goIdle_rsp (s : State) : s.goIdle.rsp = s.rsp := rfl
@[simp] theorem State.goIdle_cycles (s : State) : s.goIdle.cycles = s.cycles := rfl

/-! ### `leaveFault` -/

@[simp] theorem State.leaveFault_cfg (s : State) : s.leaveFault.cfg = s.cfg := rfl
@[simp] theorem State.leaveFault_mode (s : State) : s.leaveFault.mode = s.mode := rfl
@[simp] theorem State.leaveFault_st (s : State) : s.leaveFault.st = .idle := rfl
@[simp] theorem State.leaveFault_pos (s : State) : s.leaveFault.pos = s.pos := rfl
@[simp] theorem State.leaveFault_shreg (s : State) : s.leaveFault.shreg = s.shreg := rfl
@[simp] theorem State.leaveFault_shcnt (s : State) : s.leaveFault.shcnt = s.shcnt := rfl
@[simp] theorem State.leaveFault_ck (s : State) : s.leaveFault.ck = s.ck := rfl
@[simp] theorem State.leaveFault_hId (s : State) : s.leaveFault.hId = s.hId := rfl
@[simp] theorem State.leaveFault_hType (s : State) : s.leaveFault.hType = s.hType := rfl
@[simp] theorem State.leaveFault_hRsp (s : State) : s.leaveFault.hRsp = s.hRsp := rfl
@[simp] theorem State.leaveFault_hLen (s : State) : s.leaveFault.hLen = s.hLen := rfl
@[simp] theorem State.leaveFault_ftype (s : State) : s.leaveFault.ftype = s.ftype := rfl
@[simp] theorem State.leaveFault_hasImu (s : State) : s.leaveFault.hasImu = s.hasImu := rfl
@[simp] theorem State.leaveFault_hasIrehs (s : State) : s.leaveFault.hasIrehs = s.hasIrehs := rfl
@[simp] theorem State.leaveFault_flen (s : State) : s.leaveFault.flen = s.flen := rfl
@[simp] theorem State.leaveFault_rxck (s : State) : s.leaveFault.rxck = s.rxck := rfl
@[simp] theorem State.leaveFault_calcCk (s : State) : s.leaveFault.calcCk = s.calcCk := rfl
@[simp] theorem State.leaveFault_result (s : State) : s.leaveFault.result = .none := rfl
@[simp] theorem State.leaveFault_acc (s : State) : s.leaveFault.acc = s.acc := rfl
@[simp] theorem State.leaveFault_cur (s : State) : s.leaveFault.cur = s.cur := rfl
@[simp] theorem State.leaveFault_xalg (s : State) : s.leaveFault.xalg = s.xalg := rfl
@[simp] theorem State.leaveFault_xacc (s : State) : s.leaveFault.xacc = s.xacc := rfl
@[simp] theorem State.leaveFault_cntOk (s : State) : s.leaveFault.cntOk = s.cntOk := rfl
@[simp] theorem State.leaveFault_cntCkerr (s : State) : s.leaveFault.cntCkerr = s.cntCkerr := rfl
@[simp] theorem State.leaveFault_cntHdrerr (s : State) : s.leaveFault.cntHdrerr = s.cntHdrerr := rfl
@[simp] theorem State.leaveFault_cntSyncerr (s : State) :
    s.leaveFault.cntSyncerr = s.cntSyncerr := rfl
@[simp] theorem State.leaveFault_cntSkip (s : State) : s.leaveFault.cntSkip = s.cntSkip := rfl
@[simp] theorem State.leaveFault_ie (s : State) : s.leaveFault.ie = s.ie := rfl
@[simp] theorem State.leaveFault_buf (s : State) : s.leaveFault.buf = s.buf := rfl
@[simp] theorem State.leaveFault_rsp (s : State) : s.leaveFault.rsp = s.rsp := rfl
@[simp] theorem State.leaveFault_cycles (s : State) : s.leaveFault.cycles = s.cycles := rfl

/-! ### `shiftIn` -/

@[simp] theorem State.shiftIn_cfg (s : State) (b : Byte) : (s.shiftIn b).cfg = s.cfg := rfl
@[simp] theorem State.shiftIn_mode (s : State) (b : Byte) : (s.shiftIn b).mode = s.mode := rfl
@[simp] theorem State.shiftIn_st (s : State) (b : Byte) : (s.shiftIn b).st = s.st := rfl
@[simp] theorem State.shiftIn_pos (s : State) (b : Byte) : (s.shiftIn b).pos = s.pos := rfl
@[simp] theorem State.shiftIn_shreg (s : State) (b : Byte) :
    (s.shiftIn b).shreg = s.shreg.extractLsb' 0 16 ++ b := rfl
@[simp] theorem State.shiftIn_shcnt (s : State) (b : Byte) :
    (s.shiftIn b).shcnt = if s.shcnt = 3 then 3 else s.shcnt + 1 := rfl
@[simp] theorem State.shiftIn_ck (s : State) (b : Byte) : (s.shiftIn b).ck = s.ck := rfl
@[simp] theorem State.shiftIn_hId (s : State) (b : Byte) : (s.shiftIn b).hId = s.hId := rfl
@[simp] theorem State.shiftIn_hType (s : State) (b : Byte) : (s.shiftIn b).hType = s.hType := rfl
@[simp] theorem State.shiftIn_hRsp (s : State) (b : Byte) : (s.shiftIn b).hRsp = s.hRsp := rfl
@[simp] theorem State.shiftIn_hLen (s : State) (b : Byte) : (s.shiftIn b).hLen = s.hLen := rfl
@[simp] theorem State.shiftIn_ftype (s : State) (b : Byte) : (s.shiftIn b).ftype = s.ftype := rfl
@[simp] theorem State.shiftIn_hasImu (s : State) (b : Byte) : (s.shiftIn b).hasImu = s.hasImu := rfl
@[simp] theorem State.shiftIn_hasIrehs (s : State) (b : Byte) :
    (s.shiftIn b).hasIrehs = s.hasIrehs := rfl
@[simp] theorem State.shiftIn_flen (s : State) (b : Byte) : (s.shiftIn b).flen = s.flen := rfl
@[simp] theorem State.shiftIn_rxck (s : State) (b : Byte) : (s.shiftIn b).rxck = s.rxck := rfl
@[simp] theorem State.shiftIn_calcCk (s : State) (b : Byte) : (s.shiftIn b).calcCk = s.calcCk := rfl
@[simp] theorem State.shiftIn_result (s : State) (b : Byte) : (s.shiftIn b).result = s.result := rfl
@[simp] theorem State.shiftIn_acc (s : State) (b : Byte) : (s.shiftIn b).acc = s.acc := rfl
@[simp] theorem State.shiftIn_cur (s : State) (b : Byte) : (s.shiftIn b).cur = s.cur := rfl
@[simp] theorem State.shiftIn_xalg (s : State) (b : Byte) : (s.shiftIn b).xalg = s.xalg := rfl
@[simp] theorem State.shiftIn_xacc (s : State) (b : Byte) : (s.shiftIn b).xacc = s.xacc := rfl
@[simp] theorem State.shiftIn_cntOk (s : State) (b : Byte) : (s.shiftIn b).cntOk = s.cntOk := rfl
@[simp] theorem State.shiftIn_cntCkerr (s : State) (b : Byte) :
    (s.shiftIn b).cntCkerr = s.cntCkerr := rfl
@[simp] theorem State.shiftIn_cntHdrerr (s : State) (b : Byte) :
    (s.shiftIn b).cntHdrerr = s.cntHdrerr := rfl
@[simp] theorem State.shiftIn_cntSyncerr (s : State) (b : Byte) :
    (s.shiftIn b).cntSyncerr = s.cntSyncerr := rfl
@[simp] theorem State.shiftIn_cntSkip (s : State) (b : Byte) :
    (s.shiftIn b).cntSkip = if s.shcnt = 3 then satInc s.cntSkip else s.cntSkip := rfl
@[simp] theorem State.shiftIn_ie (s : State) (b : Byte) : (s.shiftIn b).ie = s.ie := rfl
@[simp] theorem State.shiftIn_buf (s : State) (b : Byte) : (s.shiftIn b).buf = s.buf := rfl
@[simp] theorem State.shiftIn_rsp (s : State) (b : Byte) : (s.shiftIn b).rsp = s.rsp := rfl
@[simp] theorem State.shiftIn_cycles (s : State) (b : Byte) : (s.shiftIn b).cycles = s.cycles := rfl

/-! ### `lockRegs` -/

@[simp] theorem State.lockRegs_cfg (s : State) : s.lockRegs.cfg = s.cfg := rfl
@[simp] theorem State.lockRegs_mode (s : State) : s.lockRegs.mode = s.mode := rfl
@[simp] theorem State.lockRegs_st (s : State) : s.lockRegs.st = .header := rfl
@[simp] theorem State.lockRegs_pos (s : State) : s.lockRegs.pos = 3 := rfl
@[simp] theorem State.lockRegs_shreg (s : State) : s.lockRegs.shreg = 0 := rfl
@[simp] theorem State.lockRegs_shcnt (s : State) : s.lockRegs.shcnt = 0 := rfl
@[simp] theorem State.lockRegs_ck (s : State) :
    s.lockRegs.ck = crcAcc s.cfg [s.cfg.gSync0, s.cfg.gSync1, s.cfg.gSync2] := rfl
@[simp] theorem State.lockRegs_hId (s : State) : s.lockRegs.hId = s.hId := rfl
@[simp] theorem State.lockRegs_hType (s : State) : s.lockRegs.hType = s.hType := rfl
@[simp] theorem State.lockRegs_hRsp (s : State) : s.lockRegs.hRsp = s.hRsp := rfl
@[simp] theorem State.lockRegs_hLen (s : State) : s.lockRegs.hLen = s.hLen := rfl
@[simp] theorem State.lockRegs_ftype (s : State) : s.lockRegs.ftype = s.ftype := rfl
@[simp] theorem State.lockRegs_hasImu (s : State) : s.lockRegs.hasImu = s.hasImu := rfl
@[simp] theorem State.lockRegs_hasIrehs (s : State) : s.lockRegs.hasIrehs = s.hasIrehs := rfl
@[simp] theorem State.lockRegs_flen (s : State) : s.lockRegs.flen = s.flen := rfl
@[simp] theorem State.lockRegs_rxck (s : State) : s.lockRegs.rxck = s.rxck := rfl
@[simp] theorem State.lockRegs_calcCk (s : State) : s.lockRegs.calcCk = s.calcCk := rfl
@[simp] theorem State.lockRegs_result (s : State) : s.lockRegs.result = s.result := rfl
@[simp] theorem State.lockRegs_acc (s : State) : s.lockRegs.acc = s.acc := rfl
@[simp] theorem State.lockRegs_cur (s : State) : s.lockRegs.cur = s.cur := rfl
@[simp] theorem State.lockRegs_xalg (s : State) : s.lockRegs.xalg = s.xalg := rfl
@[simp] theorem State.lockRegs_xacc (s : State) : s.lockRegs.xacc = s.xacc := rfl
@[simp] theorem State.lockRegs_cntOk (s : State) : s.lockRegs.cntOk = s.cntOk := rfl
@[simp] theorem State.lockRegs_cntCkerr (s : State) : s.lockRegs.cntCkerr = s.cntCkerr := rfl
@[simp] theorem State.lockRegs_cntHdrerr (s : State) : s.lockRegs.cntHdrerr = s.cntHdrerr := rfl
@[simp] theorem State.lockRegs_cntSyncerr (s : State) : s.lockRegs.cntSyncerr = s.cntSyncerr := rfl
@[simp] theorem State.lockRegs_cntSkip (s : State) : s.lockRegs.cntSkip = s.cntSkip := rfl
@[simp] theorem State.lockRegs_ie (s : State) : s.lockRegs.ie = s.ie := rfl
@[simp] theorem State.lockRegs_buf (s : State) : s.lockRegs.buf = s.buf := rfl
@[simp] theorem State.lockRegs_rsp (s : State) : s.lockRegs.rsp = s.rsp := rfl
@[simp] theorem State.lockRegs_cycles (s : State) : s.lockRegs.cycles = s.cycles := rfl

/-! ### `cover` -/

@[simp] theorem State.cover_cfg (s : State) (b : Byte) : (s.cover b).cfg = s.cfg := rfl
@[simp] theorem State.cover_mode (s : State) (b : Byte) : (s.cover b).mode = s.mode := rfl
@[simp] theorem State.cover_st (s : State) (b : Byte) : (s.cover b).st = s.st := rfl
@[simp] theorem State.cover_pos (s : State) (b : Byte) : (s.cover b).pos = s.pos + 1 := rfl
@[simp] theorem State.cover_shreg (s : State) (b : Byte) : (s.cover b).shreg = s.shreg := rfl
@[simp] theorem State.cover_shcnt (s : State) (b : Byte) : (s.cover b).shcnt = s.shcnt := rfl
@[simp] theorem State.cover_ck (s : State) (b : Byte) :
    (s.cover b).ck = accUpd s.cfg (algOfPath s.mode) s.ck b := rfl
@[simp] theorem State.cover_hId (s : State) (b : Byte) : (s.cover b).hId = s.hId := rfl
@[simp] theorem State.cover_hType (s : State) (b : Byte) : (s.cover b).hType = s.hType := rfl
@[simp] theorem State.cover_hRsp (s : State) (b : Byte) : (s.cover b).hRsp = s.hRsp := rfl
@[simp] theorem State.cover_hLen (s : State) (b : Byte) : (s.cover b).hLen = s.hLen := rfl
@[simp] theorem State.cover_ftype (s : State) (b : Byte) : (s.cover b).ftype = s.ftype := rfl
@[simp] theorem State.cover_hasImu (s : State) (b : Byte) : (s.cover b).hasImu = s.hasImu := rfl
@[simp] theorem State.cover_hasIrehs (s : State) (b : Byte) :
    (s.cover b).hasIrehs = s.hasIrehs := rfl
@[simp] theorem State.cover_flen (s : State) (b : Byte) : (s.cover b).flen = s.flen := rfl
@[simp] theorem State.cover_rxck (s : State) (b : Byte) : (s.cover b).rxck = s.rxck := rfl
@[simp] theorem State.cover_calcCk (s : State) (b : Byte) : (s.cover b).calcCk = s.calcCk := rfl
@[simp] theorem State.cover_result (s : State) (b : Byte) : (s.cover b).result = s.result := rfl
@[simp] theorem State.cover_acc (s : State) (b : Byte) : (s.cover b).acc = s.acc := rfl
@[simp] theorem State.cover_cur (s : State) (b : Byte) : (s.cover b).cur = s.cur := rfl
@[simp] theorem State.cover_xalg (s : State) (b : Byte) : (s.cover b).xalg = s.xalg := rfl
@[simp] theorem State.cover_xacc (s : State) (b : Byte) : (s.cover b).xacc = s.xacc := rfl
@[simp] theorem State.cover_cntOk (s : State) (b : Byte) : (s.cover b).cntOk = s.cntOk := rfl
@[simp] theorem State.cover_cntCkerr (s : State) (b : Byte) :
    (s.cover b).cntCkerr = s.cntCkerr := rfl
@[simp] theorem State.cover_cntHdrerr (s : State) (b : Byte) :
    (s.cover b).cntHdrerr = s.cntHdrerr := rfl
@[simp] theorem State.cover_cntSyncerr (s : State) (b : Byte) :
    (s.cover b).cntSyncerr = s.cntSyncerr := rfl
@[simp] theorem State.cover_cntSkip (s : State) (b : Byte) : (s.cover b).cntSkip = s.cntSkip := rfl
@[simp] theorem State.cover_ie (s : State) (b : Byte) : (s.cover b).ie = s.ie := rfl
@[simp] theorem State.cover_buf (s : State) (b : Byte) : (s.cover b).buf = s.buf := rfl
@[simp] theorem State.cover_rsp (s : State) (b : Byte) : (s.cover b).rsp = s.rsp := rfl
@[simp] theorem State.cover_cycles (s : State) (b : Byte) : (s.cover b).cycles = s.cycles := rfl

/-! ### `pass` -/

@[simp] theorem State.pass_cfg (s : State) : s.pass.cfg = s.cfg := rfl
@[simp] theorem State.pass_mode (s : State) : s.pass.mode = s.mode := rfl
@[simp] theorem State.pass_st (s : State) : s.pass.st = s.st := rfl
@[simp] theorem State.pass_pos (s : State) : s.pass.pos = s.pos + 1 := rfl
@[simp] theorem State.pass_shreg (s : State) : s.pass.shreg = s.shreg := rfl
@[simp] theorem State.pass_shcnt (s : State) : s.pass.shcnt = s.shcnt := rfl
@[simp] theorem State.pass_ck (s : State) : s.pass.ck = s.ck := rfl
@[simp] theorem State.pass_hId (s : State) : s.pass.hId = s.hId := rfl
@[simp] theorem State.pass_hType (s : State) : s.pass.hType = s.hType := rfl
@[simp] theorem State.pass_hRsp (s : State) : s.pass.hRsp = s.hRsp := rfl
@[simp] theorem State.pass_hLen (s : State) : s.pass.hLen = s.hLen := rfl
@[simp] theorem State.pass_ftype (s : State) : s.pass.ftype = s.ftype := rfl
@[simp] theorem State.pass_hasImu (s : State) : s.pass.hasImu = s.hasImu := rfl
@[simp] theorem State.pass_hasIrehs (s : State) : s.pass.hasIrehs = s.hasIrehs := rfl
@[simp] theorem State.pass_flen (s : State) : s.pass.flen = s.flen := rfl
@[simp] theorem State.pass_rxck (s : State) : s.pass.rxck = s.rxck := rfl
@[simp] theorem State.pass_calcCk (s : State) : s.pass.calcCk = s.calcCk := rfl
@[simp] theorem State.pass_result (s : State) : s.pass.result = s.result := rfl
@[simp] theorem State.pass_acc (s : State) : s.pass.acc = s.acc := rfl
@[simp] theorem State.pass_cur (s : State) : s.pass.cur = s.cur := rfl
@[simp] theorem State.pass_xalg (s : State) : s.pass.xalg = s.xalg := rfl
@[simp] theorem State.pass_xacc (s : State) : s.pass.xacc = s.xacc := rfl
@[simp] theorem State.pass_cntOk (s : State) : s.pass.cntOk = s.cntOk := rfl
@[simp] theorem State.pass_cntCkerr (s : State) : s.pass.cntCkerr = s.cntCkerr := rfl
@[simp] theorem State.pass_cntHdrerr (s : State) : s.pass.cntHdrerr = s.cntHdrerr := rfl
@[simp] theorem State.pass_cntSyncerr (s : State) : s.pass.cntSyncerr = s.cntSyncerr := rfl
@[simp] theorem State.pass_cntSkip (s : State) : s.pass.cntSkip = s.cntSkip := rfl
@[simp] theorem State.pass_ie (s : State) : s.pass.ie = s.ie := rfl
@[simp] theorem State.pass_buf (s : State) : s.pass.buf = s.buf := rfl
@[simp] theorem State.pass_rsp (s : State) : s.pass.rsp = s.rsp := rfl
@[simp] theorem State.pass_cycles (s : State) : s.pass.cycles = s.cycles := rfl

/-! ### `latchHeader` -/

@[simp] theorem State.latchHeader_cfg (s : State) (id : Nat) (ty : Byte) (len : Nat) :
    (s.latchHeader id ty len).cfg = s.cfg := rfl
@[simp] theorem State.latchHeader_mode (s : State) (id : Nat) (ty : Byte) (len : Nat) :
    (s.latchHeader id ty len).mode = s.mode := rfl
@[simp] theorem State.latchHeader_st (s : State) (id : Nat) (ty : Byte) (len : Nat) :
    (s.latchHeader id ty len).st = s.st := rfl
@[simp] theorem State.latchHeader_pos (s : State) (id : Nat) (ty : Byte) (len : Nat) :
    (s.latchHeader id ty len).pos = s.pos := rfl
@[simp] theorem State.latchHeader_shreg (s : State) (id : Nat) (ty : Byte) (len : Nat) :
    (s.latchHeader id ty len).shreg = s.shreg := rfl
@[simp] theorem State.latchHeader_shcnt (s : State) (id : Nat) (ty : Byte) (len : Nat) :
    (s.latchHeader id ty len).shcnt = s.shcnt := rfl
@[simp] theorem State.latchHeader_ck (s : State) (id : Nat) (ty : Byte) (len : Nat) :
    (s.latchHeader id ty len).ck = s.ck := rfl
@[simp] theorem State.latchHeader_hId (s : State) (id : Nat) (ty : Byte) (len : Nat) :
    (s.latchHeader id ty len).hId = BitVec.ofNat 16 id := rfl
@[simp] theorem State.latchHeader_hType (s : State) (id : Nat) (ty : Byte) (len : Nat) :
    (s.latchHeader id ty len).hType = ty := rfl
@[simp] theorem State.latchHeader_hRsp (s : State) (id : Nat) (ty : Byte) (len : Nat) :
    (s.latchHeader id ty len).hRsp = ty.getLsbD s.cfg.gRspBit := rfl
@[simp] theorem State.latchHeader_hLen (s : State) (id : Nat) (ty : Byte) (len : Nat) :
    (s.latchHeader id ty len).hLen = BitVec.ofNat 16 len := rfl
@[simp] theorem State.latchHeader_ftype (s : State) (id : Nat) (ty : Byte) (len : Nat) :
    (s.latchHeader id ty len).ftype = s.ftype := rfl
@[simp] theorem State.latchHeader_hasImu (s : State) (id : Nat) (ty : Byte) (len : Nat) :
    (s.latchHeader id ty len).hasImu = s.hasImu := rfl
@[simp] theorem State.latchHeader_hasIrehs (s : State) (id : Nat) (ty : Byte) (len : Nat) :
    (s.latchHeader id ty len).hasIrehs = s.hasIrehs := rfl
@[simp] theorem State.latchHeader_flen (s : State) (id : Nat) (ty : Byte) (len : Nat) :
    (s.latchHeader id ty len).flen = s.flen := rfl
@[simp] theorem State.latchHeader_rxck (s : State) (id : Nat) (ty : Byte) (len : Nat) :
    (s.latchHeader id ty len).rxck = s.rxck := rfl
@[simp] theorem State.latchHeader_calcCk (s : State) (id : Nat) (ty : Byte) (len : Nat) :
    (s.latchHeader id ty len).calcCk = s.calcCk := rfl
@[simp] theorem State.latchHeader_result (s : State) (id : Nat) (ty : Byte) (len : Nat) :
    (s.latchHeader id ty len).result = s.result := rfl
@[simp] theorem State.latchHeader_acc (s : State) (id : Nat) (ty : Byte) (len : Nat) :
    (s.latchHeader id ty len).acc = s.acc := rfl
@[simp] theorem State.latchHeader_cur (s : State) (id : Nat) (ty : Byte) (len : Nat) :
    (s.latchHeader id ty len).cur = s.cur := rfl
@[simp] theorem State.latchHeader_xalg (s : State) (id : Nat) (ty : Byte) (len : Nat) :
    (s.latchHeader id ty len).xalg = s.xalg := rfl
@[simp] theorem State.latchHeader_xacc (s : State) (id : Nat) (ty : Byte) (len : Nat) :
    (s.latchHeader id ty len).xacc = s.xacc := rfl
@[simp] theorem State.latchHeader_cntOk (s : State) (id : Nat) (ty : Byte) (len : Nat) :
    (s.latchHeader id ty len).cntOk = s.cntOk := rfl
@[simp] theorem State.latchHeader_cntCkerr (s : State) (id : Nat) (ty : Byte) (len : Nat) :
    (s.latchHeader id ty len).cntCkerr = s.cntCkerr := rfl
@[simp] theorem State.latchHeader_cntHdrerr (s : State) (id : Nat) (ty : Byte) (len : Nat) :
    (s.latchHeader id ty len).cntHdrerr = s.cntHdrerr := rfl
@[simp] theorem State.latchHeader_cntSyncerr (s : State) (id : Nat) (ty : Byte) (len : Nat) :
    (s.latchHeader id ty len).cntSyncerr = s.cntSyncerr := rfl
@[simp] theorem State.latchHeader_cntSkip (s : State) (id : Nat) (ty : Byte) (len : Nat) :
    (s.latchHeader id ty len).cntSkip = s.cntSkip := rfl
@[simp] theorem State.latchHeader_ie (s : State) (id : Nat) (ty : Byte) (len : Nat) :
    (s.latchHeader id ty len).ie = s.ie := rfl
@[simp] theorem State.latchHeader_buf (s : State) (id : Nat) (ty : Byte) (len : Nat) :
    (s.latchHeader id ty len).buf = s.buf := rfl
@[simp] theorem State.latchHeader_rsp (s : State) (id : Nat) (ty : Byte) (len : Nat) :
    (s.latchHeader id ty len).rsp = s.rsp := rfl
@[simp] theorem State.latchHeader_cycles (s : State) (id : Nat) (ty : Byte) (len : Nat) :
    (s.latchHeader id ty len).cycles = s.cycles := rfl

/-! ### `latchFrame` -/

@[simp] theorem State.latchFrame_cfg (s : State) (rx cc : Word) (len : Half) :
    (s.latchFrame rx cc len).cfg = s.cfg := rfl
@[simp] theorem State.latchFrame_mode (s : State) (rx cc : Word) (len : Half) :
    (s.latchFrame rx cc len).mode = s.mode := rfl
@[simp] theorem State.latchFrame_st (s : State) (rx cc : Word) (len : Half) :
    (s.latchFrame rx cc len).st = s.st := rfl
@[simp] theorem State.latchFrame_pos (s : State) (rx cc : Word) (len : Half) :
    (s.latchFrame rx cc len).pos = s.pos := rfl
@[simp] theorem State.latchFrame_shreg (s : State) (rx cc : Word) (len : Half) :
    (s.latchFrame rx cc len).shreg = s.shreg := rfl
@[simp] theorem State.latchFrame_shcnt (s : State) (rx cc : Word) (len : Half) :
    (s.latchFrame rx cc len).shcnt = s.shcnt := rfl
@[simp] theorem State.latchFrame_ck (s : State) (rx cc : Word) (len : Half) :
    (s.latchFrame rx cc len).ck = s.ck := rfl
@[simp] theorem State.latchFrame_hId (s : State) (rx cc : Word) (len : Half) :
    (s.latchFrame rx cc len).hId = s.hId := rfl
@[simp] theorem State.latchFrame_hType (s : State) (rx cc : Word) (len : Half) :
    (s.latchFrame rx cc len).hType = s.hType := rfl
@[simp] theorem State.latchFrame_hRsp (s : State) (rx cc : Word) (len : Half) :
    (s.latchFrame rx cc len).hRsp = s.hRsp := rfl
@[simp] theorem State.latchFrame_hLen (s : State) (rx cc : Word) (len : Half) :
    (s.latchFrame rx cc len).hLen = s.hLen := rfl
@[simp] theorem State.latchFrame_ftype (s : State) (rx cc : Word) (len : Half) :
    (s.latchFrame rx cc len).ftype = s.ftype := rfl
@[simp] theorem State.latchFrame_hasImu (s : State) (rx cc : Word) (len : Half) :
    (s.latchFrame rx cc len).hasImu = s.hasImu := rfl
@[simp] theorem State.latchFrame_hasIrehs (s : State) (rx cc : Word) (len : Half) :
    (s.latchFrame rx cc len).hasIrehs = s.hasIrehs := rfl
@[simp] theorem State.latchFrame_flen (s : State) (rx cc : Word) (len : Half) :
    (s.latchFrame rx cc len).flen = len := rfl
@[simp] theorem State.latchFrame_rxck (s : State) (rx cc : Word) (len : Half) :
    (s.latchFrame rx cc len).rxck = rx := rfl
@[simp] theorem State.latchFrame_calcCk (s : State) (rx cc : Word) (len : Half) :
    (s.latchFrame rx cc len).calcCk = cc := rfl
@[simp] theorem State.latchFrame_result (s : State) (rx cc : Word) (len : Half) :
    (s.latchFrame rx cc len).result = s.result := rfl
@[simp] theorem State.latchFrame_acc (s : State) (rx cc : Word) (len : Half) :
    (s.latchFrame rx cc len).acc = s.acc := rfl
@[simp] theorem State.latchFrame_cur (s : State) (rx cc : Word) (len : Half) :
    (s.latchFrame rx cc len).cur = s.cur := rfl
@[simp] theorem State.latchFrame_xalg (s : State) (rx cc : Word) (len : Half) :
    (s.latchFrame rx cc len).xalg = s.xalg := rfl
@[simp] theorem State.latchFrame_xacc (s : State) (rx cc : Word) (len : Half) :
    (s.latchFrame rx cc len).xacc = s.xacc := rfl
@[simp] theorem State.latchFrame_cntOk (s : State) (rx cc : Word) (len : Half) :
    (s.latchFrame rx cc len).cntOk = s.cntOk := rfl
@[simp] theorem State.latchFrame_cntCkerr (s : State) (rx cc : Word) (len : Half) :
    (s.latchFrame rx cc len).cntCkerr = s.cntCkerr := rfl
@[simp] theorem State.latchFrame_cntHdrerr (s : State) (rx cc : Word) (len : Half) :
    (s.latchFrame rx cc len).cntHdrerr = s.cntHdrerr := rfl
@[simp] theorem State.latchFrame_cntSyncerr (s : State) (rx cc : Word) (len : Half) :
    (s.latchFrame rx cc len).cntSyncerr = s.cntSyncerr := rfl
@[simp] theorem State.latchFrame_cntSkip (s : State) (rx cc : Word) (len : Half) :
    (s.latchFrame rx cc len).cntSkip = s.cntSkip := rfl
@[simp] theorem State.latchFrame_ie (s : State) (rx cc : Word) (len : Half) :
    (s.latchFrame rx cc len).ie = s.ie := rfl
@[simp] theorem State.latchFrame_buf (s : State) (rx cc : Word) (len : Half) :
    (s.latchFrame rx cc len).buf = s.buf := rfl
@[simp] theorem State.latchFrame_rsp (s : State) (rx cc : Word) (len : Half) :
    (s.latchFrame rx cc len).rsp = s.rsp := rfl
@[simp] theorem State.latchFrame_cycles (s : State) (rx cc : Word) (len : Half) :
    (s.latchFrame rx cc len).cycles = s.cycles := rfl

/-! ### `latchFtype` -/

@[simp] theorem State.latchFtype_cfg (s : State) (f : Byte) : (s.latchFtype f).cfg = s.cfg := rfl
@[simp] theorem State.latchFtype_mode (s : State) (f : Byte) : (s.latchFtype f).mode = s.mode := rfl
@[simp] theorem State.latchFtype_st (s : State) (f : Byte) : (s.latchFtype f).st = s.st := rfl
@[simp] theorem State.latchFtype_pos (s : State) (f : Byte) : (s.latchFtype f).pos = s.pos := rfl
@[simp] theorem State.latchFtype_shreg (s : State) (f : Byte) :
    (s.latchFtype f).shreg = s.shreg := rfl
@[simp] theorem State.latchFtype_shcnt (s : State) (f : Byte) :
    (s.latchFtype f).shcnt = s.shcnt := rfl
@[simp] theorem State.latchFtype_ck (s : State) (f : Byte) : (s.latchFtype f).ck = s.ck := rfl
@[simp] theorem State.latchFtype_hId (s : State) (f : Byte) : (s.latchFtype f).hId = s.hId := rfl
@[simp] theorem State.latchFtype_hType (s : State) (f : Byte) :
    (s.latchFtype f).hType = s.hType := rfl
@[simp] theorem State.latchFtype_hRsp (s : State) (f : Byte) : (s.latchFtype f).hRsp = s.hRsp := rfl
@[simp] theorem State.latchFtype_hLen (s : State) (f : Byte) : (s.latchFtype f).hLen = s.hLen := rfl
@[simp] theorem State.latchFtype_ftype (s : State) (f : Byte) : (s.latchFtype f).ftype = f := rfl
@[simp] theorem State.latchFtype_hasImu (s : State) (f : Byte) :
    (s.latchFtype f).hasImu = decide (f &&& s.cfg.aImuMask = s.cfg.aImuVal) := rfl
@[simp] theorem State.latchFtype_hasIrehs (s : State) (f : Byte) :
    (s.latchFtype f).hasIrehs = decide (f &&& s.cfg.aIrehsMask = s.cfg.aIrehsVal) := rfl
@[simp] theorem State.latchFtype_flen (s : State) (f : Byte) : (s.latchFtype f).flen = s.flen := rfl
@[simp] theorem State.latchFtype_rxck (s : State) (f : Byte) : (s.latchFtype f).rxck = s.rxck := rfl
@[simp] theorem State.latchFtype_calcCk (s : State) (f : Byte) :
    (s.latchFtype f).calcCk = s.calcCk := rfl
@[simp] theorem State.latchFtype_result (s : State) (f : Byte) :
    (s.latchFtype f).result = s.result := rfl
@[simp] theorem State.latchFtype_acc (s : State) (f : Byte) : (s.latchFtype f).acc = s.acc := rfl
@[simp] theorem State.latchFtype_cur (s : State) (f : Byte) : (s.latchFtype f).cur = s.cur := rfl
@[simp] theorem State.latchFtype_xalg (s : State) (f : Byte) : (s.latchFtype f).xalg = s.xalg := rfl
@[simp] theorem State.latchFtype_xacc (s : State) (f : Byte) : (s.latchFtype f).xacc = s.xacc := rfl
@[simp] theorem State.latchFtype_cntOk (s : State) (f : Byte) :
    (s.latchFtype f).cntOk = s.cntOk := rfl
@[simp] theorem State.latchFtype_cntCkerr (s : State) (f : Byte) :
    (s.latchFtype f).cntCkerr = s.cntCkerr := rfl
@[simp] theorem State.latchFtype_cntHdrerr (s : State) (f : Byte) :
    (s.latchFtype f).cntHdrerr = s.cntHdrerr := rfl
@[simp] theorem State.latchFtype_cntSyncerr (s : State) (f : Byte) :
    (s.latchFtype f).cntSyncerr = s.cntSyncerr := rfl
@[simp] theorem State.latchFtype_cntSkip (s : State) (f : Byte) :
    (s.latchFtype f).cntSkip = s.cntSkip := rfl
@[simp] theorem State.latchFtype_ie (s : State) (f : Byte) : (s.latchFtype f).ie = s.ie := rfl
@[simp] theorem State.latchFtype_buf (s : State) (f : Byte) : (s.latchFtype f).buf = s.buf := rfl
@[simp] theorem State.latchFtype_rsp (s : State) (f : Byte) : (s.latchFtype f).rsp = s.rsp := rfl
@[simp] theorem State.latchFtype_cycles (s : State) (f : Byte) :
    (s.latchFtype f).cycles = s.cycles := rfl

/-! ### `loaded` -/

@[simp] theorem State.loaded_cfg (s : State) (v : Word) (c : Half) :
    (s.loaded v c).cfg = s.cfg := rfl
@[simp] theorem State.loaded_mode (s : State) (v : Word) (c : Half) :
    (s.loaded v c).mode = s.mode := rfl
@[simp] theorem State.loaded_st (s : State) (v : Word) (c : Half) : (s.loaded v c).st = s.st := rfl
@[simp] theorem State.loaded_pos (s : State) (v : Word) (c : Half) :
    (s.loaded v c).pos = s.pos := rfl
@[simp] theorem State.loaded_shreg (s : State) (v : Word) (c : Half) :
    (s.loaded v c).shreg = s.shreg := rfl
@[simp] theorem State.loaded_shcnt (s : State) (v : Word) (c : Half) :
    (s.loaded v c).shcnt = s.shcnt := rfl
@[simp] theorem State.loaded_ck (s : State) (v : Word) (c : Half) : (s.loaded v c).ck = s.ck := rfl
@[simp] theorem State.loaded_hId (s : State) (v : Word) (c : Half) :
    (s.loaded v c).hId = s.hId := rfl
@[simp] theorem State.loaded_hType (s : State) (v : Word) (c : Half) :
    (s.loaded v c).hType = s.hType := rfl
@[simp] theorem State.loaded_hRsp (s : State) (v : Word) (c : Half) :
    (s.loaded v c).hRsp = s.hRsp := rfl
@[simp] theorem State.loaded_hLen (s : State) (v : Word) (c : Half) :
    (s.loaded v c).hLen = s.hLen := rfl
@[simp] theorem State.loaded_ftype (s : State) (v : Word) (c : Half) :
    (s.loaded v c).ftype = s.ftype := rfl
@[simp] theorem State.loaded_hasImu (s : State) (v : Word) (c : Half) :
    (s.loaded v c).hasImu = s.hasImu := rfl
@[simp] theorem State.loaded_hasIrehs (s : State) (v : Word) (c : Half) :
    (s.loaded v c).hasIrehs = s.hasIrehs := rfl
@[simp] theorem State.loaded_flen (s : State) (v : Word) (c : Half) :
    (s.loaded v c).flen = s.flen := rfl
@[simp] theorem State.loaded_rxck (s : State) (v : Word) (c : Half) :
    (s.loaded v c).rxck = s.rxck := rfl
@[simp] theorem State.loaded_calcCk (s : State) (v : Word) (c : Half) :
    (s.loaded v c).calcCk = s.calcCk := rfl
@[simp] theorem State.loaded_result (s : State) (v : Word) (c : Half) :
    (s.loaded v c).result = s.result := rfl
@[simp] theorem State.loaded_acc (s : State) (v : Word) (c : Half) : (s.loaded v c).acc = v := rfl
@[simp] theorem State.loaded_cur (s : State) (v : Word) (c : Half) : (s.loaded v c).cur = c := rfl
@[simp] theorem State.loaded_xalg (s : State) (v : Word) (c : Half) :
    (s.loaded v c).xalg = s.xalg := rfl
@[simp] theorem State.loaded_xacc (s : State) (v : Word) (c : Half) :
    (s.loaded v c).xacc = s.xacc := rfl
@[simp] theorem State.loaded_cntOk (s : State) (v : Word) (c : Half) :
    (s.loaded v c).cntOk = s.cntOk := rfl
@[simp] theorem State.loaded_cntCkerr (s : State) (v : Word) (c : Half) :
    (s.loaded v c).cntCkerr = s.cntCkerr := rfl
@[simp] theorem State.loaded_cntHdrerr (s : State) (v : Word) (c : Half) :
    (s.loaded v c).cntHdrerr = s.cntHdrerr := rfl
@[simp] theorem State.loaded_cntSyncerr (s : State) (v : Word) (c : Half) :
    (s.loaded v c).cntSyncerr = s.cntSyncerr := rfl
@[simp] theorem State.loaded_cntSkip (s : State) (v : Word) (c : Half) :
    (s.loaded v c).cntSkip = s.cntSkip := rfl
@[simp] theorem State.loaded_ie (s : State) (v : Word) (c : Half) : (s.loaded v c).ie = s.ie := rfl
@[simp] theorem State.loaded_buf (s : State) (v : Word) (c : Half) :
    (s.loaded v c).buf = s.buf := rfl
@[simp] theorem State.loaded_rsp (s : State) (v : Word) (c : Half) :
    (s.loaded v c).rsp = s.rsp := rfl
@[simp] theorem State.loaded_cycles (s : State) (v : Word) (c : Half) :
    (s.loaded v c).cycles = s.cycles := rfl

/-! ### `awaiting` -/

@[simp] theorem State.awaiting_cfg (s : State) (cs : List Cycle) :
    (s.awaiting cs).cfg = s.cfg := rfl
@[simp] theorem State.awaiting_mode (s : State) (cs : List Cycle) :
    (s.awaiting cs).mode = s.mode := rfl
@[simp] theorem State.awaiting_st (s : State) (cs : List Cycle) : (s.awaiting cs).st = s.st := rfl
@[simp] theorem State.awaiting_pos (s : State) (cs : List Cycle) :
    (s.awaiting cs).pos = s.pos := rfl
@[simp] theorem State.awaiting_shreg (s : State) (cs : List Cycle) :
    (s.awaiting cs).shreg = s.shreg := rfl
@[simp] theorem State.awaiting_shcnt (s : State) (cs : List Cycle) :
    (s.awaiting cs).shcnt = s.shcnt := rfl
@[simp] theorem State.awaiting_ck (s : State) (cs : List Cycle) : (s.awaiting cs).ck = s.ck := rfl
@[simp] theorem State.awaiting_hId (s : State) (cs : List Cycle) :
    (s.awaiting cs).hId = s.hId := rfl
@[simp] theorem State.awaiting_hType (s : State) (cs : List Cycle) :
    (s.awaiting cs).hType = s.hType := rfl
@[simp] theorem State.awaiting_hRsp (s : State) (cs : List Cycle) :
    (s.awaiting cs).hRsp = s.hRsp := rfl
@[simp] theorem State.awaiting_hLen (s : State) (cs : List Cycle) :
    (s.awaiting cs).hLen = s.hLen := rfl
@[simp] theorem State.awaiting_ftype (s : State) (cs : List Cycle) :
    (s.awaiting cs).ftype = s.ftype := rfl
@[simp] theorem State.awaiting_hasImu (s : State) (cs : List Cycle) :
    (s.awaiting cs).hasImu = s.hasImu := rfl
@[simp] theorem State.awaiting_hasIrehs (s : State) (cs : List Cycle) :
    (s.awaiting cs).hasIrehs = s.hasIrehs := rfl
@[simp] theorem State.awaiting_flen (s : State) (cs : List Cycle) :
    (s.awaiting cs).flen = s.flen := rfl
@[simp] theorem State.awaiting_rxck (s : State) (cs : List Cycle) :
    (s.awaiting cs).rxck = s.rxck := rfl
@[simp] theorem State.awaiting_calcCk (s : State) (cs : List Cycle) :
    (s.awaiting cs).calcCk = s.calcCk := rfl
@[simp] theorem State.awaiting_result (s : State) (cs : List Cycle) :
    (s.awaiting cs).result = s.result := rfl
@[simp] theorem State.awaiting_acc (s : State) (cs : List Cycle) :
    (s.awaiting cs).acc = s.acc := rfl
@[simp] theorem State.awaiting_cur (s : State) (cs : List Cycle) :
    (s.awaiting cs).cur = s.cur := rfl
@[simp] theorem State.awaiting_xalg (s : State) (cs : List Cycle) :
    (s.awaiting cs).xalg = s.xalg := rfl
@[simp] theorem State.awaiting_xacc (s : State) (cs : List Cycle) :
    (s.awaiting cs).xacc = s.xacc := rfl
@[simp] theorem State.awaiting_cntOk (s : State) (cs : List Cycle) :
    (s.awaiting cs).cntOk = s.cntOk := rfl
@[simp] theorem State.awaiting_cntCkerr (s : State) (cs : List Cycle) :
    (s.awaiting cs).cntCkerr = s.cntCkerr := rfl
@[simp] theorem State.awaiting_cntHdrerr (s : State) (cs : List Cycle) :
    (s.awaiting cs).cntHdrerr = s.cntHdrerr := rfl
@[simp] theorem State.awaiting_cntSyncerr (s : State) (cs : List Cycle) :
    (s.awaiting cs).cntSyncerr = s.cntSyncerr := rfl
@[simp] theorem State.awaiting_cntSkip (s : State) (cs : List Cycle) :
    (s.awaiting cs).cntSkip = s.cntSkip := rfl
@[simp] theorem State.awaiting_ie (s : State) (cs : List Cycle) : (s.awaiting cs).ie = s.ie := rfl
@[simp] theorem State.awaiting_buf (s : State) (cs : List Cycle) :
    (s.awaiting cs).buf = s.buf := rfl
@[simp] theorem State.awaiting_rsp (s : State) (cs : List Cycle) : (s.awaiting cs).rsp = none := rfl
@[simp] theorem State.awaiting_cycles (s : State) (cs : List Cycle) :
    (s.awaiting cs).cycles = cs := rfl

/-! ### `withFetchWord` -/

@[simp] theorem State.withFetchWord_cfg (s : State) (nbits w : Nat) :
    (s.withFetchWord nbits w).cfg = s.cfg := rfl
@[simp] theorem State.withFetchWord_mode (s : State) (nbits w : Nat) :
    (s.withFetchWord nbits w).mode = s.mode := rfl
@[simp] theorem State.withFetchWord_st (s : State) (nbits w : Nat) :
    (s.withFetchWord nbits w).st = s.st := rfl
@[simp] theorem State.withFetchWord_pos (s : State) (nbits w : Nat) :
    (s.withFetchWord nbits w).pos = s.pos := rfl
@[simp] theorem State.withFetchWord_shreg (s : State) (nbits w : Nat) :
    (s.withFetchWord nbits w).shreg = s.shreg := rfl
@[simp] theorem State.withFetchWord_shcnt (s : State) (nbits w : Nat) :
    (s.withFetchWord nbits w).shcnt = s.shcnt := rfl
@[simp] theorem State.withFetchWord_ck (s : State) (nbits w : Nat) :
    (s.withFetchWord nbits w).ck = s.ck := rfl
@[simp] theorem State.withFetchWord_hId (s : State) (nbits w : Nat) :
    (s.withFetchWord nbits w).hId = s.hId := rfl
@[simp] theorem State.withFetchWord_hType (s : State) (nbits w : Nat) :
    (s.withFetchWord nbits w).hType = s.hType := rfl
@[simp] theorem State.withFetchWord_hRsp (s : State) (nbits w : Nat) :
    (s.withFetchWord nbits w).hRsp = s.hRsp := rfl
@[simp] theorem State.withFetchWord_hLen (s : State) (nbits w : Nat) :
    (s.withFetchWord nbits w).hLen = s.hLen := rfl
@[simp] theorem State.withFetchWord_ftype (s : State) (nbits w : Nat) :
    (s.withFetchWord nbits w).ftype = s.ftype := rfl
@[simp] theorem State.withFetchWord_hasImu (s : State) (nbits w : Nat) :
    (s.withFetchWord nbits w).hasImu = s.hasImu := rfl
@[simp] theorem State.withFetchWord_hasIrehs (s : State) (nbits w : Nat) :
    (s.withFetchWord nbits w).hasIrehs = s.hasIrehs := rfl
@[simp] theorem State.withFetchWord_flen (s : State) (nbits w : Nat) :
    (s.withFetchWord nbits w).flen = s.flen := rfl
@[simp] theorem State.withFetchWord_rxck (s : State) (nbits w : Nat) :
    (s.withFetchWord nbits w).rxck = s.rxck := rfl
@[simp] theorem State.withFetchWord_calcCk (s : State) (nbits w : Nat) :
    (s.withFetchWord nbits w).calcCk = s.calcCk := rfl
@[simp] theorem State.withFetchWord_result (s : State) (nbits w : Nat) :
    (s.withFetchWord nbits w).result = s.result := rfl
@[simp] theorem State.withFetchWord_acc (s : State) (nbits w : Nat) :
    (s.withFetchWord nbits w).acc = s.acc := rfl
@[simp] theorem State.withFetchWord_cur (s : State) (nbits w : Nat) :
    (s.withFetchWord nbits w).cur = s.cur := rfl
@[simp] theorem State.withFetchWord_xalg (s : State) (nbits w : Nat) :
    (s.withFetchWord nbits w).xalg = s.xalg := rfl
@[simp] theorem State.withFetchWord_xacc (s : State) (nbits w : Nat) :
    (s.withFetchWord nbits w).xacc = s.xacc := rfl
@[simp] theorem State.withFetchWord_cntOk (s : State) (nbits w : Nat) :
    (s.withFetchWord nbits w).cntOk = s.cntOk := rfl
@[simp] theorem State.withFetchWord_cntCkerr (s : State) (nbits w : Nat) :
    (s.withFetchWord nbits w).cntCkerr = s.cntCkerr := rfl
@[simp] theorem State.withFetchWord_cntHdrerr (s : State) (nbits w : Nat) :
    (s.withFetchWord nbits w).cntHdrerr = s.cntHdrerr := rfl
@[simp] theorem State.withFetchWord_cntSyncerr (s : State) (nbits w : Nat) :
    (s.withFetchWord nbits w).cntSyncerr = s.cntSyncerr := rfl
@[simp] theorem State.withFetchWord_cntSkip (s : State) (nbits w : Nat) :
    (s.withFetchWord nbits w).cntSkip = s.cntSkip := rfl
@[simp] theorem State.withFetchWord_ie (s : State) (nbits w : Nat) :
    (s.withFetchWord nbits w).ie = s.ie := rfl
@[simp] theorem State.withFetchWord_buf (s : State) (nbits w : Nat) :
    (s.withFetchWord nbits w).buf = s.buf := rfl
@[simp] theorem State.withFetchWord_rsp (s : State) (nbits w : Nat) :
    (s.withFetchWord nbits w).rsp = s.rsp := rfl
@[simp] theorem State.withFetchWord_cycles (s : State) (nbits w : Nat) :
    (s.withFetchWord nbits w).cycles = commandCycle (tableWord nbits w) :: s.cycles := rfl

end Sys2Proof.Machine
end

