-- ==== Sys2Proof/Laws/Memory.lean ====
section
/-! SUPPORT. The laws of the frame buffer: a read after a write, the canonical form, the bytes of a
range, and their little-endian value (20_memory.md R50 to R57). -/

namespace Sys2Proof.Machine

/-! ### One byte -/

@[simp] theorem Memory.read_nil (a : Nat) : Memory.read [] a = none := rfl

theorem Memory.read_write_same (m : Memory) (a : Nat) (b : Byte) : (m.write a b).read a = some b := by
  induction m with
  | nil => simp [Memory.write, Memory.read]
  | cons c m ih =>
    obtain ⟨k, v⟩ := c
    simp only [Memory.write]
    split
    · simp [Memory.read]
    · split
      · simp [Memory.read]
      · next h => simp only [Memory.read, if_neg h]; exact ih

theorem Memory.read_write_other (m : Memory) {a x : Nat} (b : Byte) (h : x ≠ a) :
    (m.write a b).read x = m.read x := by
  induction m with
  | nil => simp [Memory.write, Memory.read, h, Memory.unlisted]
  | cons c m ih =>
    obtain ⟨k, v⟩ := c
    simp only [Memory.write]
    split
    · simp [Memory.read, h]
    · split
      · next hk => subst hk; simp [Memory.read, h]
      · simp only [Memory.read]; split <;> [rfl; exact ih]

theorem Memory.read_write (m : Memory) (a x : Nat) (b : Byte) :
    (m.write a b).read x = if x = a then some b else m.read x := by
  split
  · next h => subst h; exact Memory.read_write_same m x b
  · next h => exact Memory.read_write_other m b h

/-- An entry of a written buffer is the new one or one of the old ones. -/
theorem Memory.mem_write {m : Memory} {a : Nat} {b : Byte} {c : Host.Cell}
    (h : c ∈ m.write a b) : c = (a, b) ∨ c ∈ m := by
  induction m with
  | nil => simpa [Memory.write] using h
  | cons d m ih =>
    obtain ⟨k, v⟩ := d
    simp only [Memory.write] at h
    split at h
    · simpa using h
    · split at h
      · rcases List.mem_cons.1 h with h | h
        · exact .inl h
        · exact .inr (List.mem_cons_of_mem _ h)
      · rcases List.mem_cons.1 h with h | h
        · exact .inr (h ▸ List.mem_cons_self ..)
        · exact (ih h).imp id (List.mem_cons_of_mem _)

/-- A write keeps the canonical form. -/
theorem Memory.write_wf {m : Memory} (h : m.wf) (a : Nat) (b : Byte) : (m.write a b).wf := by
  induction m with
  | nil => simp [Memory.write, Memory.wf]
  | cons c m ih =>
    obtain ⟨k, v⟩ := c
    obtain ⟨hk, hm⟩ := List.pairwise_cons.1 h
    simp only [Memory.write]
    split
    · next hlt =>
      refine List.pairwise_cons.2 ⟨fun x hx => ?_, h⟩
      rcases List.mem_cons.1 hx with rfl | hx
      · exact hlt
      · exact hlt.trans (hk x hx)
    · split
      · next heq => subst heq; exact List.pairwise_cons.2 ⟨hk, hm⟩
      · next hge hne =>
        refine List.pairwise_cons.2 ⟨fun x hx => ?_, ih hm⟩
        rcases Memory.mem_write hx with rfl | hx
        · exact lt_of_le_of_ne (not_lt.1 hge) (Ne.symm hne)
        · exact hk x hx

/-- A write below a bound keeps every address below it. -/
theorem Memory.write_in_range {m : Memory} {n a : Nat} (h : ∀ c ∈ m, c.1 < n) (ha : a < n)
    (b : Byte) : ∀ c ∈ m.write a b, c.1 < n := by
  intro c hc
  rcases Memory.mem_write hc with rfl | hc
  · exact ha
  · exact h c hc

/-! ### `readByte` and `memWrite` -/

theorem State.readByte_eq_ok {s : State} {a : Nat} {b : Byte} :
    s.readByte a = .ok b ↔ a < s.cfg.bufSize ∧ s.buf.read a = some b := by
  unfold State.readByte
  split
  · next h => cases hr : s.buf.read a <;> simp [h]
  · next h => simp [h]

/-- `readByte` looks only at `BUF_SIZE` and at one byte of `BUF`. -/
theorem State.readByte_congr {s t : State} {a : Nat} (hc : t.cfg.bufSize = s.cfg.bufSize)
    (hb : t.buf.read a = s.buf.read a) : t.readByte a = s.readByte a := by
  simp [State.readByte, hc, hb]

/-- All that `memWrite` can do: inside `BUF_SIZE` it writes one byte of `BUF` and nothing else. -/
theorem State.memWrite_eq_ok {s t : State} {a : Nat} {b : Byte} :
    s.memWrite a b = .ok t ↔ a < s.cfg.bufSize ∧ t = { s with buf := s.buf.write a b } := by
  unfold State.memWrite
  split
  · next h => simp [h, eq_comm]
  · next h => simp [h]

theorem State.memWrite_of_lt {s : State} {a : Nat} (h : a < s.cfg.bufSize) (b : Byte) :
    s.memWrite a b = .ok { s with buf := s.buf.write a b } := by
  simp [State.memWrite, h]

/-! ### A range of bytes -/

theorem State.readBytes_length {s : State} {a n : Nat} {bs : List Byte}
    (h : s.readBytes a n = .ok bs) : bs.length = n := by
  induction n generalizing a bs with
  | zero => simp only [State.readBytes] at h; cases h; rfl
  | succ n ih =>
    simp only [State.readBytes] at h
    split at h
    · cases h
    · split at h
      · cases h
      · next hbs => cases h; simp [ih hbs]

/-- A range reads as `bs` exactly when each byte of it reads as the byte of `bs` at its place. -/
theorem State.readBytes_eq_ok {s : State} {a n : Nat} {bs : List Byte} :
    s.readBytes a n = .ok bs ↔
      bs.length = n ∧ ∀ k (hk : k < bs.length), s.readByte (a + k) = .ok bs[k] := by
  induction n generalizing a bs with
  | zero =>
    simp only [State.readBytes, Except.ok.injEq]
    constructor
    · rintro rfl; simp
    · rintro ⟨h, -⟩; exact (List.length_eq_zero_iff.1 h).symm
  | succ n ih =>
    constructor
    · intro h
      refine ⟨State.readBytes_length h, ?_⟩
      simp only [State.readBytes] at h
      split at h
      · cases h
      · next b hb =>
        split at h
        · cases h
        · next bs' hbs =>
          cases h
          intro k hk
          cases k with
          | zero => simpa using hb
          | succ k =>
            have := (ih.1 hbs).2 k (by simpa using hk)
            simpa [Nat.add_assoc, Nat.add_comm, Nat.add_left_comm] using this
    · rintro ⟨hl, h⟩
      cases bs with
      | nil => simp at hl
      | cons b bs =>
        have h0 : s.readByte a = .ok b := h 0 (by simp)
        have h1 : s.readBytes (a + 1) n = .ok bs := by
          refine ih.2 ⟨by simpa using hl, fun k hk => ?_⟩
          have := h (k + 1) (by simpa using hk)
          simpa [Nat.add_assoc, Nat.add_comm, Nat.add_left_comm] using this
        simp [State.readBytes, h0, h1]

theorem State.readBytes_congr {s t : State} {a n : Nat} (hc : t.cfg.bufSize = s.cfg.bufSize)
    (hb : ∀ k < n, t.buf.read (a + k) = s.buf.read (a + k)) :
    t.readBytes a n = s.readBytes a n := by
  induction n generalizing a with
  | zero => rfl
  | succ n ih =>
    have h0 : t.readByte a = s.readByte a :=
      State.readByte_congr hc (by simpa using hb 0 (Nat.succ_pos n))
    have h1 : t.readBytes (a + 1) n = s.readBytes (a + 1) n :=
      ih fun k hk => by
        have := hb (k + 1) (Nat.succ_lt_succ hk)
        rwa [Nat.add_comm k 1, ← Nat.add_assoc] at this
    simp [State.readBytes, h0, h1]

/-- A byte inside a range that reads as `bs`. -/
theorem State.readByte_of_readBytes {s : State} {n a : Nat} {bs : List Byte}
    (h : s.readBytes 0 n = .ok bs) (ha : a < bs.length) : s.readByte a = .ok bs[a] := by
  simpa using (State.readBytes_eq_ok.1 h).2 a ha

/-- A range inside a range that reads as `bs`. -/
theorem State.readBytes_sub {s : State} {n a k : Nat} {bs : List Byte}
    (h : s.readBytes 0 n = .ok bs) (hk : a + k ≤ bs.length) :
    s.readBytes a k = .ok ((bs.drop a).take k) := by
  refine State.readBytes_eq_ok.2 ⟨by simp; omega, fun i hi => ?_⟩
  have hi' : a + i < bs.length := by simp at hi; omega
  simpa using State.readByte_of_readBytes h hi'

/-- Writing the byte behind a range that reads as `bs` extends the range. -/
theorem State.readBytes_write_end {s t : State} {n : Nat} {bs : List Byte} {b : Byte}
    (h : s.readBytes 0 n = .ok bs) (hn : n < s.cfg.bufSize) (hc : t.cfg.bufSize = s.cfg.bufSize)
    (ht : t.buf = s.buf.write n b) : t.readBytes 0 (n + 1) = .ok (bs ++ [b]) := by
  have hl := State.readBytes_length h
  refine State.readBytes_eq_ok.2 ⟨by simp [hl], fun k hk => ?_⟩
  rw [Nat.zero_add, State.readByte_eq_ok, ht, hc]
  by_cases hkn : k = n
  · subst hkn
    exact ⟨hn, by rw [Memory.read_write_same]; simp [← hl]⟩
  · have hk' : k < bs.length := by simp at hk; omega
    rw [Memory.read_write_other _ _ hkn, List.getElem_append_left hk']
    exact State.readByte_eq_ok.1 (State.readByte_of_readBytes h hk')

/-! ### The little-endian value -/

@[simp] theorem leValue_nil : leValue [] = 0 := rfl

@[simp] theorem leValue_cons (b : Byte) (bs : List Byte) :
    leValue (b :: bs) = b.toNat + 256 * leValue bs := rfl

theorem leValue_lt (bs : List Byte) : leValue bs < 256 ^ bs.length := by
  induction bs with
  | nil => simp
  | cons b bs ih =>
    have hb : b.toNat < 256 := b.isLt
    rw [leValue_cons, List.length_cons, Nat.pow_succ]
    omega

/-- All that `memRead` can do: it reads the bytes of the range and gives their value. -/
theorem State.memRead_eq_ok {s : State} {a n v : Nat} :
    s.memRead a n = .ok v ↔ ∃ bs, s.readBytes a n = .ok bs ∧ v = leValue bs := by
  unfold State.memRead
  split
  · next h => simp [h]
  · next h => simp [h, eq_comm]

theorem State.memRead_of_readBytes {s : State} {n a k : Nat} {bs : List Byte}
    (h : s.readBytes 0 n = .ok bs) (hk : a + k ≤ bs.length) :
    s.memRead a k = .ok (leValue ((bs.drop a).take k)) := by
  simp [State.memRead, State.readBytes_sub h hk]

theorem State.memRead_congr {s t : State} {a n : Nat} (hc : t.cfg.bufSize = s.cfg.bufSize)
    (hb : ∀ k < n, t.buf.read (a + k) = s.buf.read (a + k)) : t.memRead a n = s.memRead a n := by
  simp [State.memRead, State.readBytes_congr hc hb]

theorem State.memRead_lt {s : State} {a n v : Nat} (h : s.memRead a n = .ok v) : v < 256 ^ n := by
  obtain ⟨bs, hbs, rfl⟩ := State.memRead_eq_ok.1 h
  rw [← State.readBytes_length hbs]
  exact leValue_lt bs

end Sys2Proof.Machine
end

