-- ==== Sys2Proof/Laws/Ops.lean ====
section
/-! SUPPORT. For each operation that several meanings share, one lemma that says once everything it
can do when it answers a next state. -/

namespace Sys2Proof.Machine

theorem orFault_eq_next {α : Type} {r : Except Fault α}
    {k : α → Host.Outcome State Fault Refusal} {t : State} :
    orFault r k = .next t ↔ ∃ a, r = .ok a ∧ k a = .next t := by
  cases r <;> simp [orFault]

theorem orFault_ok {α : Type} {r : Except Fault α} {a : α} (h : r = .ok a)
    (k : α → Host.Outcome State Fault Refusal) : orFault r k = k a := by
  simp [h, orFault]

theorem next_eq_next {a b : State} :
    (.next a : Host.Outcome State Fault Refusal) = .next b ↔ b = a := by
  rw [Host.Outcome.next.injEq, eq_comm]

theorem ite_eq_next {c : Prop} [Decidable c] {k : Host.Outcome State Fault Refusal} {t u : State} :
    (if c then k else .next u) = .next t ↔ (c ∧ k = .next t) ∨ (¬c ∧ t = u) := by
  by_cases h : c <;> simp [h, eq_comm]

/-- A step through `orFault` is never refused, if what it goes on with is not. -/
theorem orFault_ne_refused {α : Type} {r : Except Fault α}
    {k : α → Host.Outcome State Fault Refusal} {x : Refusal}
    (h : ∀ a, k a ≠ .refused x) : orFault r k ≠ .refused x := by
  cases r with
  | error f => simp [orFault]
  | ok a => exact h a

@[simp] theorem satInc_max : satInc 0xFFFF = 0xFFFF := rfl

/-- `sat_inc` over the integers (00_scope.md section 6). -/
theorem satInc_toNat (c : Half) : (satInc c).toNat = min (c.toNat + 1) 0xFFFF := by
  unfold satInc
  have hc := c.isLt
  split
  · next h => subst h; rfl
  · next h =>
    have hne : c.toNat ≠ 65535 := fun he => h (BitVec.eq_of_toNat_eq (by simpa using he))
    rw [BitVec.toNat_add, Nat.mod_eq_of_lt (by simp; omega)]
    simp; omega

/-- All that a command that is legal in some states only can do (43_control.md R189). -/
theorem whenLegal_eq_next {legal : Bool} {s s' t : State} :
    whenLegal legal s s' = .next t ↔
      (legal = true ∧ t = s'.respond .ok 0) ∨ (legal = false ∧ t = s.respond .badState 0) := by
  cases legal <;> simp [whenLegal, eq_comm]

/-- `RDREG` answers `BADARG` for an unassigned index and the register's word for the others. -/
theorem execRdreg_eq_next {i : BitVec 6} {s t : State} :
    execRdreg i s = .next t ↔
      (s.readReg i = none ∧ t = s.respond .badArg 0) ∨
        ∃ v, s.readReg i = some v ∧ t = s.respond .ok v := by
  unfold execRdreg
  cases s.readReg i <;> simp [eq_comm]

/-- An index is unassigned exactly when it is above 22 (10_state.md R37, 43_control.md R199). -/
theorem readReg_eq_none_iff (s : State) (i : BitVec 6) : s.readReg i = none ↔ 22 < i.toNat := by
  have hi := i.isLt
  unfold State.readReg
  generalize i.toNat = n at *
  split <;> simp
  simp only [imp_false] at *
  omega

/-- A load is performed exactly when its four checks pass (42_unpack.md R162 to R165). -/
theorem loadStatus_eq_ok {s : State} {n : Nat} {slot : Slot} {am : AddrMode} :
    s.loadStatus n slot am = .ok ↔
      s.st = .done ∧ s.result = .ok ∧ s.present slot = true ∧
        (s.effectiveAddr am).toNat + n ≤ s.flen.toNat := by
  unfold State.loadStatus
  split
  · next h => simp [h]
  · next h =>
    split
    · next h2 => simp [h2]
    · next h2 =>
      split
      · next h3 => simp [h3]
      · next h3 =>
        simp only [ne_eq, not_not] at h h2
        split
        · next h4 => simp [Nat.not_le.2 h4]
        · next h4 => simp [h, h2, h3, Nat.not_lt.1 h4]

/-- All that a load can do (42_unpack.md R162): refuse with the first failing check's status and
change nothing, or write `ACC` and the cursor and respond with the new `ACC`. -/
theorem load_eq_next {n : Nat} {sg : Bool} {slot : Slot} {am : AddrMode} {s t : State} :
    load n sg slot am s = .next t ↔
      (s.loadStatus n slot am ≠ .ok ∧ t = s.respond (s.loadStatus n slot am) 0) ∨
      (s.loadStatus n slot am = .ok ∧ ∃ v, s.memRead (s.effectiveAddr am).toNat n = .ok v ∧
        t = (s.loaded (extendTo32 sg (8 * n) v) (s.cursorAfter n am)).respond .ok
          (extendTo32 sg (8 * n) v)) := by
  unfold load
  split
  · next h =>
    rw [orFault_eq_next]
    simp [h, eq_comm]
  · next h => simp [h, eq_comm]

/-- All that a bit-field command can do (42_unpack.md R171, R172). -/
theorem fieldAnswer_eq_next {lsb : BitVec 5} {w : Nat} {v : Word} {s t : State} :
    fieldAnswer lsb w v s = .next t ↔
      (32 < lsb.toNat + w ∧ t = s.respond .badArg 0) ∨
      (lsb.toNat + w ≤ 32 ∧ t = s.respond .ok v) := by
  unfold fieldAnswer
  split
  · next h => simp [h, Nat.not_le.2 h, eq_comm]
  · next h => simp [h, Nat.not_lt.1 h, eq_comm]

end Sys2Proof.Machine
end

