-- ==== Sys2Proof/Laws/Engine.lean ====
section
/-! SUPPORT. The stream steps (40_frame_engine.md): for each, one lemma that says everything it can do
when it answers a next state. -/

namespace Sys2Proof.Machine

/-- A lock stores the three sync bytes and writes the registers of R104. -/
theorem lockStep_eq_next {s t : State} :
    lockStep s = .next t ↔
      2 < s.cfg.bufSize ∧
        t = State.lockRegs { s with
          buf := ((s.buf.write 0 s.cfg.gSync0).write 1 s.cfg.gSync1).write 2 s.cfg.gSync2 } := by
  simp only [lockStep, orFault_eq_next, State.memWrite_eq_ok]
  constructor
  · rintro ⟨_, ⟨-, rfl⟩, _, ⟨-, rfl⟩, _, ⟨h, rfl⟩, h2⟩
    exact ⟨h, by cases h2; rfl⟩
  · rintro ⟨h, rfl⟩
    exact ⟨_, ⟨by omega, rfl⟩, _, ⟨show 1 < s.cfg.bufSize by omega, rfl⟩, _, ⟨h, rfl⟩, rfl⟩

/-- The scanner's window holds the whole marker (R104). -/
theorem locked_iff (s : State) :
    s.locked = true ↔ s.shcnt = 3 ∧ s.shreg = syncWindow s.cfg := by
  simp [State.locked]

/-- A hunt step shifts the byte in, and locks if the window then matches (R103, R104). -/
theorem huntStep_eq_next {s t : State} {b : Byte} :
    huntStep s b = .next t ↔
      ((s.shiftIn b).locked = true ∧ lockStep (s.shiftIn b) = .next t) ∨
      ((s.shiftIn b).locked = false ∧ t = s.shiftIn b) := by
  unfold huntStep
  cases (s.shiftIn b).locked <;> simp [eq_comm]

/-- A completed header latches its fields and goes on by its length (R106 to R108). -/
theorem headerComplete_eq_next {s t : State} :
    headerComplete s = .next t ↔
      ∃ id ty len, s.memRead s.cfg.gOffId s.cfg.gWId = .ok id ∧
        s.readByte s.cfg.gOffType = .ok ty ∧ s.memRead s.cfg.gOffLen s.cfg.gWLen = .ok len ∧
        t = (s.latchHeader id ty len).afterHeader := by
  simp only [headerComplete, orFault_eq_next]
  constructor
  · rintro ⟨id, h1, ty, h2, len, h3, h4⟩
    exact ⟨id, ty, len, h1, h2, h3, by cases h4; rfl⟩
  · rintro ⟨id, ty, len, h1, h2, h3, rfl⟩
    exact ⟨id, h1, ty, h2, len, h3, rfl⟩

/-- A header step stores and covers the byte, and completes the header at its last byte (R105). -/
theorem headerStep_eq_next {s t : State} {b : Byte} :
    headerStep s b = .next t ↔
      ∃ s1, s.memWrite s.pos.toNat b = .ok s1 ∧
        (((s1.cover b).pos.toNat = s.cfg.gHdrLen ∧ headerComplete (s1.cover b) = .next t) ∨
        ((s1.cover b).pos.toNat ≠ s.cfg.gHdrLen ∧ t = s1.cover b)) := by
  simp only [headerStep, orFault_eq_next, ite_eq_next, ne_eq]

/-- A body step stores and covers the byte (R109). -/
theorem bodyStep_eq_next {s t : State} {b : Byte} :
    bodyStep s b = .next t ↔
      ∃ s1, s.memWrite s.pos.toNat b = .ok s1 ∧ t = (s1.cover b).afterBodyByte := by
  simp only [bodyStep, orFault_eq_next, next_eq_next]

/-- Trailer completion latches the codes and gives the verdict (R112). -/
theorem trailerComplete_eq_next {s t : State} :
    trailerComplete s = .next t ↔
      ∃ rx, s.memRead (s.pos.toNat - 4) 4 = .ok rx ∧
        t = (s.latchFrame (BitVec.ofNat 32 rx) (s.ck ^^^ s.cfg.crcXorOut) s.pos).gnssVerdict := by
  simp only [trailerComplete, orFault_eq_next, next_eq_next]

/-- A trailer step stores the byte uncovered, and completes the frame at its last byte (R111). -/
theorem trailerStep_eq_next {s t : State} {b : Byte} :
    trailerStep s b = .next t ↔
      ∃ s1, s.memWrite s.pos.toNat b = .ok s1 ∧
        ((s1.pass.pos.toNat = s.cfg.gHdrLen + s.hLen.toNat + 4 ∧
          trailerComplete s1.pass = .next t) ∨
        (s1.pass.pos.toNat ≠ s.cfg.gHdrLen + s.hLen.toNat + 4 ∧ t = s1.pass)) := by
  simp only [trailerStep, orFault_eq_next, ite_eq_next, ne_eq]

/-- Window completion latches the codes and the frame type and gives the verdict (R117). -/
theorem windowComplete_eq_next {s t : State} :
    windowComplete s = .next t ↔
      ∃ rx f b0 b1, s.memRead s.cfg.aCkOff 2 = .ok rx ∧ s.readByte s.cfg.aOffFtype = .ok f ∧
        s.readByte 0 = .ok b0 ∧ s.readByte 1 = .ok b1 ∧
        t = ((s.latchFrame (BitVec.ofNat 32 rx) ((s.ck.setWidth 16).setWidth 32)
          (BitVec.ofNat 16 s.cfg.aFrameLen)).latchFtype f).windowVerdict b0 b1 := by
  simp only [windowComplete, orFault_eq_next]
  constructor
  · rintro ⟨rx, h1, f, h2, b0, h3, b1, h4, h5⟩
    exact ⟨rx, f, b0, b1, h1, h2, h3, h4, by cases h5; rfl⟩
  · rintro ⟨rx, f, b0, b1, h1, h2, h3, h4, rfl⟩
    exact ⟨rx, h1, f, h2, b0, h3, b1, h4, rfl⟩

/-- A collect step stores the byte and completes the window at its last byte (R116). -/
theorem collectStep_eq_next {s t : State} {b : Byte} :
    collectStep s b = .next t ↔
      ∃ s1, s.memWrite s.pos.toNat b = .ok s1 ∧
        (((s1.coverWindow b).pos.toNat = s.cfg.aFrameLen ∧
          windowComplete (s1.coverWindow b) = .next t) ∨
        ((s1.coverWindow b).pos.toNat ≠ s.cfg.aFrameLen ∧ t = s1.coverWindow b)) := by
  simp only [collectStep, orFault_eq_next, ite_eq_next, ne_eq]

/-- The three ways a completed header goes on (R108). -/
theorem afterHeader_cases (s : State) :
    (s.cfg.gMaxBody < s.hLen.toNat ∧
      s.afterHeader = ({ s with cntHdrerr := satInc s.cntHdrerr }).restart) ∨
    (s.hLen.toNat ≤ s.cfg.gMaxBody ∧ s.hLen = 0 ∧ s.afterHeader = { s with st := .trailer }) ∨
    (s.hLen.toNat ≤ s.cfg.gMaxBody ∧ s.hLen ≠ 0 ∧ s.afterHeader = { s with st := .body }) := by
  unfold State.afterHeader
  by_cases h : s.cfg.gMaxBody < s.hLen.toNat
  · exact .inl ⟨h, by rw [if_pos h]⟩
  · by_cases h0 : s.hLen = 0
    · exact .inr (.inl ⟨Nat.not_lt.1 h, h0, by rw [if_neg h, if_pos h0]⟩)
    · exact .inr (.inr ⟨Nat.not_lt.1 h, h0, by rw [if_neg h, if_neg h0]⟩)

/-- The two verdicts on a GNSS frame (R112). -/
theorem gnssVerdict_cases (s : State) :
    (s.rxck = s.calcCk ∧ s.gnssVerdict = ({ s with cntOk := satInc s.cntOk }).hold .ok) ∨
    (s.rxck ≠ s.calcCk ∧ s.gnssVerdict = ({ s with cntCkerr := satInc s.cntCkerr }).restart) := by
  unfold State.gnssVerdict
  by_cases h : s.rxck = s.calcCk
  · exact .inl ⟨h, by rw [if_pos h]⟩
  · exact .inr ⟨h, by rw [if_neg h]⟩

/-- The three verdicts on an attitude window, each a hold (R117). -/
theorem windowVerdict_cases (s : State) (b0 b1 : Byte) :
    ((b0 ≠ s.cfg.aSync0 ∨ b1 ≠ s.cfg.aSync1) ∧
      s.windowVerdict b0 b1 = ({ s with cntSyncerr := satInc s.cntSyncerr }).hold .eSync) ∨
    (b0 = s.cfg.aSync0 ∧ b1 = s.cfg.aSync1 ∧ s.rxck ≠ s.calcCk ∧
      s.windowVerdict b0 b1 = ({ s with cntCkerr := satInc s.cntCkerr }).hold .eCksum) ∨
    (b0 = s.cfg.aSync0 ∧ b1 = s.cfg.aSync1 ∧ s.rxck = s.calcCk ∧
      s.windowVerdict b0 b1 = ({ s with cntOk := satInc s.cntOk }).hold .ok) := by
  unfold State.windowVerdict
  by_cases h : b0 ≠ s.cfg.aSync0 ∨ b1 ≠ s.cfg.aSync1
  · exact .inl ⟨h, by rw [if_pos h]⟩
  · rw [if_neg h]
    simp only [ne_eq, not_or, not_not] at h
    by_cases h2 : s.rxck = s.calcCk
    · exact .inr (.inr ⟨h.1, h.2, h2, by rw [if_neg (not_not.2 h2)]⟩)
    · exact .inr (.inl ⟨h.1, h.2, h2, by rw [if_pos h2]⟩)

/-- All that an `Err` step can do (R100, R120). -/
theorem errStep_eq_next {s t : State} :
    errStep s = .next t ↔
      (s.inReady = true ∧ t = s.takeFault) ∨ (s.inReady = false ∧ t = s) := by
  unfold errStep
  cases s.inReady <;> simp [eq_comm]

/-- Where no step is enabled, a byte changes nothing (R100). -/
theorem byteStep_of_not_ready {s : State} (h : s.inReady = false) (b : Byte) :
    byteStep s b = .next s := by
  unfold byteStep
  unfold State.inReady EngineState.receiving at h
  split <;> simp_all

end Sys2Proof.Machine
end

