-- ==== Sys2Proof/Laws/Integrity.lean ====
section
/-! SUPPORT. The integrity functions over byte strings (41_integrity.md R140 to R143). -/

namespace Sys2Proof.Machine

@[simp] theorem crcAcc_nil (p : Params) : crcAcc p [] = p.crcInit := rfl

/-- `crc_acc(bs ++ [b]) = crc_upd(crc_acc(bs), b)` (41_integrity.md R141). -/
theorem crcAcc_snoc (p : Params) (bs : List Byte) (b : Byte) :
    crcAcc p (bs ++ [b]) = crcUpd p (crcAcc p bs) b := by
  simp [crcAcc]

@[simp] theorem sumAcc_nil (p : Params) : sumAcc p [] = p.sumInit := rfl

/-- `sum_acc(bs ++ [b]) = sum_upd(sum_acc(bs), b)` (41_integrity.md R143). -/
theorem sumAcc_snoc (p : Params) (bs : List Byte) (b : Byte) :
    sumAcc p (bs ++ [b]) = sumUpd (sumAcc p bs) b := by
  simp [sumAcc]

/-- A sum over any accumulator: the accumulator may be taken out. -/
theorem foldl_sumUpd (bs : List Byte) (a : Half) :
    bs.foldl sumUpd a = a + bs.foldl sumUpd 0 := by
  induction bs generalizing a with
  | nil => simp
  | cons b bs ih =>
    simp only [List.foldl_cons]
    rw [ih (sumUpd a b), ih (sumUpd 0 b)]
    simp [sumUpd, BitVec.add_assoc]

@[simp] theorem accOver_nil (p : Params) (alg : Alg) : accOver p alg [] = accInit p alg := by
  cases alg <;> rfl

/-- One more byte into a register that holds the accumulator over `bs`. -/
theorem accUpd_accOver (p : Params) (alg : Alg) (bs : List Byte) (b : Byte) :
    accUpd p alg (accOver p alg bs) b = accOver p alg (bs ++ [b]) := by
  cases alg with
  | crc32 => exact (crcAcc_snoc p bs b).symm
  | sum16 =>
    simp only [accUpd, accOver, sumAcc_snoc]
    rw [BitVec.setWidth_setWidth_of_le _ (by decide), BitVec.setWidth_eq]

/-- SUM16 leaves bits 31:16 of its register zero (10_state.md R17, R33). -/
theorem high_half_setWidth (x : Half) : (x.setWidth 32).extractLsb' 16 16 = 0 := by
  apply BitVec.eq_of_getLsbD_eq
  intro i hi
  simp [BitVec.getLsbD_extractLsb', BitVec.getLsbD_setWidth]

theorem accInit_sum16_high (p : Params) : (accInit p .sum16).extractLsb' 16 16 = 0 :=
  high_half_setWidth _

theorem accUpd_sum16_high (p : Params) (c : Word) (b : Byte) :
    (accUpd p .sum16 c b).extractLsb' 16 16 = 0 :=
  high_half_setWidth _

/-- The eight rounds are the round applied eight times. -/
theorem crcRounds_succ (poly : Word) (k : Nat) (c : Word) :
    crcRounds poly (k + 1) c = crcRounds poly k (crcRound poly c) := rfl

end Sys2Proof.Machine
end

