-- ==== Sys2Proof/Laws/PerInstr.lean ====
section
/-! SUPPORT. Statements about every command as syntax, one lemma per constructor of `Instr`. The
family `RowOfEncoding`: the word of a well-formed command lies in the row of the opcode map
(30_encoding.md R86) that has its mnemonic. -/

namespace Sys2Proof.Laws

/-- The word of a well-formed command matches a row of the opcode map with its mnemonic
(30_encoding.md R86). -/
def RowOfEncoding.Statement (i : Instr) : Prop :=
  i.wellFormed = true →
    ∃ r ∈ opcodeMap, r.mnemonic = i.mnemonic ∧ encode i &&& r.mask = r.pattern

theorem RowOfEncoding.nop : RowOfEncoding.Statement .nop := fun _ =>
  ⟨⟨"NOP", 0x00000000, 0xFFFFFFFF⟩, by simp [opcodeMap], rfl, by
    decide⟩

theorem RowOfEncoding.setmode (m : DevicePath) : RowOfEncoding.Statement (.setmode m) := fun _ =>
  ⟨⟨"SETMODE", 0x04000000, 0xFFFFFFFE⟩, by simp [opcodeMap], rfl, by
    cases m <;> decide⟩

theorem RowOfEncoding.start : RowOfEncoding.Statement .start := fun _ =>
  ⟨⟨"START", 0x08000000, 0xFFFFFFFF⟩, by simp [opcodeMap], rfl, by
    decide⟩

theorem RowOfEncoding.stop : RowOfEncoding.Statement .stop := fun _ =>
  ⟨⟨"STOP", 0x0C000000, 0xFFFFFFFF⟩, by simp [opcodeMap], rfl, by
    decide⟩

theorem RowOfEncoding.ack : RowOfEncoding.Statement .ack := fun _ =>
  ⟨⟨"ACK", 0x10000000, 0xFFFFFFFF⟩, by simp [opcodeMap], rfl, by
    decide⟩

theorem RowOfEncoding.flush : RowOfEncoding.Statement .flush := fun _ =>
  ⟨⟨"FLUSH", 0x14000000, 0xFFFFFFFF⟩, by simp [opcodeMap], rfl, by
    decide⟩

theorem RowOfEncoding.clrerr : RowOfEncoding.Statement .clrerr := fun _ =>
  ⟨⟨"CLRERR", 0x18000000, 0xFFFFFFFF⟩, by simp [opcodeMap], rfl, by
    decide⟩

theorem RowOfEncoding.clrcnt : RowOfEncoding.Statement .clrcnt := fun _ =>
  ⟨⟨"CLRCNT", 0x1C000000, 0xFFFFFFFF⟩, by simp [opcodeMap], rfl, by
    decide⟩

theorem RowOfEncoding.setie (e : BitVec 3) : RowOfEncoding.Statement (.setie e) := fun _ =>
  ⟨⟨"SETIE", 0x20000000, 0xFFFFFFF8⟩, by simp [opcodeMap], rfl, by
    revert e; decide⟩

theorem RowOfEncoding.rdreg (i : BitVec 6) : RowOfEncoding.Statement (.rdreg i) := fun _ =>
  ⟨⟨"RDREG", 0x24000000, 0xFFFFFFC0⟩, by simp [opcodeMap], rfl, by
    revert i; decide⟩

theorem RowOfEncoding.ckinit (a : Alg) : RowOfEncoding.Statement (.ckinit a) := fun _ =>
  ⟨⟨"CKINIT", 0x40000000, 0xFFFFFFFE⟩, by simp [opcodeMap], rfl, by
    cases a <;> decide⟩

theorem RowOfEncoding.ckbyte (b : Byte) : RowOfEncoding.Statement (.ckbyte b) := fun _ =>
  ⟨⟨"CKBYTE", 0x44000000, 0xFFFFFF00⟩, by simp [opcodeMap], rfl, by
    revert b; decide⟩

theorem RowOfEncoding.ckread : RowOfEncoding.Statement .ckread := fun _ =>
  ⟨⟨"CKREAD", 0x48000000, 0xFFFFFFFF⟩, by simp [opcodeMap], rfl, by
    decide⟩

theorem RowOfEncoding.seek (off : Half) : RowOfEncoding.Statement (.seek off) := fun _ =>
  ⟨⟨"SEEK", 0x80000000, 0xFFFF0000⟩, by simp [opcodeMap], rfl, by
    apply BitVec.eq_of_getLsbD_eq
    intro i hi
    simp only [encode, encodeFields, wordOf, plainFields, BitVec.getLsbD_append,
      BitVec.getLsbD_and]
    interval_cases i <;> simp⟩

theorem RowOfEncoding.seekb (off : Half) : RowOfEncoding.Statement (.seekb off) := fun _ =>
  ⟨⟨"SEEKB", 0x84000000, 0xFFFF0000⟩, by simp [opcodeMap], rfl, by
    apply BitVec.eq_of_getLsbD_eq
    intro i hi
    simp only [encode, encodeFields, wordOf, plainFields, BitVec.getLsbD_append,
      BitVec.getLsbD_and]
    interval_cases i <;> simp⟩

theorem RowOfEncoding.ldu8 (slot : Slot) (off : Half) : RowOfEncoding.Statement (.ldu8 slot off) := fun _ =>
  ⟨⟨"LDU8", 0x88000000, 0xFCFF0000⟩, by simp [opcodeMap], rfl, by
    apply BitVec.eq_of_getLsbD_eq
    intro i hi
    simp only [encode, encodeFields, wordOf, absFields, BitVec.getLsbD_append,
      BitVec.getLsbD_and]
    cases slot <;> interval_cases i <;> simp [slotCode]⟩

theorem RowOfEncoding.ldu8Cur (slot : Slot) : RowOfEncoding.Statement (.ldu8Cur slot) := fun _ =>
  ⟨⟨"LDU8", 0x88800000, 0xFCFFFFFF⟩, by simp [opcodeMap], rfl, by
    cases slot <;> decide⟩

theorem RowOfEncoding.lds8 (slot : Slot) (off : Half) : RowOfEncoding.Statement (.lds8 slot off) := fun _ =>
  ⟨⟨"LDS8", 0x8C000000, 0xFCFF0000⟩, by simp [opcodeMap], rfl, by
    apply BitVec.eq_of_getLsbD_eq
    intro i hi
    simp only [encode, encodeFields, wordOf, absFields, BitVec.getLsbD_append,
      BitVec.getLsbD_and]
    cases slot <;> interval_cases i <;> simp [slotCode]⟩

theorem RowOfEncoding.lds8Cur (slot : Slot) : RowOfEncoding.Statement (.lds8Cur slot) := fun _ =>
  ⟨⟨"LDS8", 0x8C800000, 0xFCFFFFFF⟩, by simp [opcodeMap], rfl, by
    cases slot <;> decide⟩

theorem RowOfEncoding.ldu16 (slot : Slot) (off : Half) : RowOfEncoding.Statement (.ldu16 slot off) := fun _ =>
  ⟨⟨"LDU16", 0x90000000, 0xFCFF0000⟩, by simp [opcodeMap], rfl, by
    apply BitVec.eq_of_getLsbD_eq
    intro i hi
    simp only [encode, encodeFields, wordOf, absFields, BitVec.getLsbD_append,
      BitVec.getLsbD_and]
    cases slot <;> interval_cases i <;> simp [slotCode]⟩

theorem RowOfEncoding.ldu16Cur (slot : Slot) : RowOfEncoding.Statement (.ldu16Cur slot) := fun _ =>
  ⟨⟨"LDU16", 0x90800000, 0xFCFFFFFF⟩, by simp [opcodeMap], rfl, by
    cases slot <;> decide⟩

theorem RowOfEncoding.lds16 (slot : Slot) (off : Half) : RowOfEncoding.Statement (.lds16 slot off) := fun _ =>
  ⟨⟨"LDS16", 0x94000000, 0xFCFF0000⟩, by simp [opcodeMap], rfl, by
    apply BitVec.eq_of_getLsbD_eq
    intro i hi
    simp only [encode, encodeFields, wordOf, absFields, BitVec.getLsbD_append,
      BitVec.getLsbD_and]
    cases slot <;> interval_cases i <;> simp [slotCode]⟩

theorem RowOfEncoding.lds16Cur (slot : Slot) : RowOfEncoding.Statement (.lds16Cur slot) := fun _ =>
  ⟨⟨"LDS16", 0x94800000, 0xFCFFFFFF⟩, by simp [opcodeMap], rfl, by
    cases slot <;> decide⟩

theorem RowOfEncoding.ld32 (slot : Slot) (off : Half) : RowOfEncoding.Statement (.ld32 slot off) := fun _ =>
  ⟨⟨"LD32", 0x98000000, 0xFCFF0000⟩, by simp [opcodeMap], rfl, by
    apply BitVec.eq_of_getLsbD_eq
    intro i hi
    simp only [encode, encodeFields, wordOf, absFields, BitVec.getLsbD_append,
      BitVec.getLsbD_and]
    cases slot <;> interval_cases i <;> simp [slotCode]⟩

theorem RowOfEncoding.ld32Cur (slot : Slot) : RowOfEncoding.Statement (.ld32Cur slot) := fun _ =>
  ⟨⟨"LD32", 0x98800000, 0xFCFFFFFF⟩, by simp [opcodeMap], rfl, by
    cases slot <;> decide⟩

theorem RowOfEncoding.bits (lsb : BitVec 5) (w : Nat) : RowOfEncoding.Statement (.bits lsb w) := fun _ =>
  ⟨⟨"BITS", 0xA0000000, 0xFFFFE0E0⟩, by simp [opcodeMap], rfl, by
    apply BitVec.eq_of_getLsbD_eq
    intro i hi
    simp only [encode, encodeFields, wordOf, plainFields, fieldImm, BitVec.getLsbD_append,
      BitVec.getLsbD_and]
    interval_cases i <;> simp⟩

theorem RowOfEncoding.sbits (lsb : BitVec 5) (w : Nat) : RowOfEncoding.Statement (.sbits lsb w) := fun _ =>
  ⟨⟨"SBITS", 0xA4000000, 0xFFFFE0E0⟩, by simp [opcodeMap], rfl, by
    apply BitVec.eq_of_getLsbD_eq
    intro i hi
    simp only [encode, encodeFields, wordOf, plainFields, fieldImm, BitVec.getLsbD_append,
      BitVec.getLsbD_and]
    interval_cases i <;> simp⟩

theorem RowOfEncoding.flags (p : BitVec 3) : RowOfEncoding.Statement (.flags p) := fun _ =>
  ⟨⟨"FLAGS", 0xA8000000, 0xFFFFFFF8⟩, by simp [opcodeMap], rfl, by
    revert p; decide⟩

end Sys2Proof.Laws
end

