-- ==== Sys2Proof/Laws/Ports.lean ====
section
/-! SUPPORT. The step of the machine: what it can do when it answers a next state, event by event
(00_scope.md R7, 60_exceptions.md R224). -/

namespace Sys2Proof.Machine

theorem step_of_wf {s : State} (h : s.cfg.WF) : step s = portStep s := if_pos h

theorem step_of_not_wf {s : State} (h : ¬s.cfg.WF) : step s = .refused .illFormedConfig := if_neg h

/-- A step that answers a next state is one of five: no input, a reset, a stream event, a command,
or a cycle without an event. -/
theorem step_eq_next {s t : State} (h : step s = .next t) :
    s.cfg.WF ∧
      ((s.cycles = [] ∧ t = s.awaiting []) ∨
      ∃ c cs, s.cycles = c :: cs ∧
        ((c.rst = true ∧ t = resetStep (s.awaiting cs)) ∨
        (c.rst = false ∧ ∃ e, c.streamEvent s.inReady = some e ∧
          streamStep e (s.awaiting (cyclesAfterStream c cs)) = .next t) ∨
        (c.rst = false ∧ c.streamEvent s.inReady = none ∧ ∃ w, c.command = some w ∧
          commandStep w (s.awaiting cs) = .next t) ∨
        (c.rst = false ∧ c.streamEvent s.inReady = none ∧ c.command = none ∧
          t = s.awaiting cs))) := by
  by_cases hw : s.cfg.WF
  · refine ⟨hw, ?_⟩
    rw [step_of_wf hw] at h
    unfold portStep at h
    split at h
    · next hc => cases h; exact .inl ⟨hc, rfl⟩
    · next c cs hc =>
      refine .inr ⟨c, cs, hc, ?_⟩
      unfold cycleStep at h
      cases hr : c.rst
      · simp only [hr, State.readyDuring, Bool.not_false, Bool.and_true, Bool.false_eq_true,
          if_false] at h
        split at h
        · next e he => exact .inr (.inl ⟨rfl, e, he, h⟩)
        · next he =>
          split at h
          · next w hcw => exact .inr (.inr (.inl ⟨rfl, he, w, hcw, h⟩))
          · next hcw => cases h; exact .inr (.inr (.inr ⟨rfl, he, hcw, rfl⟩))
      · simp only [hr, if_true] at h
        cases h
        exact .inl ⟨rfl, rfl⟩
  · rw [step_of_not_wf hw] at h; cases h

/-- A command word either is illegal and changes nothing, or is the instruction it decodes to. -/
theorem commandStep_eq_next {w : Word} {s t : State} :
    commandStep w s = .next t ↔
      ((∃ e, decode w = .error e) ∧ t = s.respond .illegal 0) ∨
      ∃ i, decode w = .ok i ∧ exec i s = .next t := by
  unfold commandStep
  cases decode w <;> simp [eq_comm]

/-- The event of a stream part of a cycle (10_state.md R41, 60_exceptions.md R224). -/
theorem streamEvent_eq_some {c : Cycle} {ready : Bool} {e : StreamEvent} :
    c.streamEvent ready = some e ↔
      ready = true ∧ ((c.inErr = true ∧ e = .err) ∨
        (c.inErr = false ∧ c.inValid = true ∧ e = .byte c.inData)) := by
  unfold Cycle.streamEvent
  cases ready <;> cases c.inErr <;> cases c.inValid <;> simp [eq_comm]

end Sys2Proof.Machine
end

