-- ==== Sys2Proof/Tests/Slice0.lean ====
section
/-! SUPPORT. The model's own tests. Expected results are those of spec/95_test_vectors.md (V1 to V61)
unless a comment names another rule; each test is one step or one operation on a small state. The
last part holds, for every statement with hypotheses, a named witness that meets them. -/

namespace Sys2Proof.Tests

set_option Elab.async false

open Sys2Proof Sys2Proof.Machine

/-! ### Helpers -/

/-- What a next state shows; nothing after a stop. -/
def after {α : Type} (o : Host.Outcome State Fault Refusal) (f : State → α) : Option α :=
  match o with
  | .next t => some (f t)
  | .fault _ => none
  | .refused _ => none

/-- The status and datum of the response that a command word gets. -/
def answer (w : Word) (s : State) : Option (Option Response) := after (commandStep w s) State.rsp

/-- The entries of a buffer that holds `bs` from address `a` on. -/
def cellsFrom (a : Nat) : List Byte → Memory
  | [] => []
  | b :: bs => (a, b) :: cellsFrom (a + 1) bs

/-- Frame A (V20). -/
def frameA : List Byte :=
  [0xAA, 0x44, 0x12, 0x1C, 0x25, 0, 0, 0x20, 4, 0] ++ List.replicate 18 0 ++
    [0xDE, 0xAD, 0xBE, 0xEF] ++ [0x98, 0x8B, 0x5F, 0xE4]

/-- Frame B, 238 bytes (V30). -/
def frameB : List Byte :=
  [0x90, 0xEB, 0xE6, 0x00, 0x01, 0x00, 0x03, 0x34,
   0x3B, 0x42, 0x49, 0x50, 0x57, 0x5E, 0x65, 0x6C] ++
  [0x73, 0x7A, 0x81, 0x88, 0x8F, 0x96, 0x9D, 0xA4,
   0xAB, 0xB2, 0xB9, 0xC0, 0xC7, 0xCE, 0xD5, 0xDC] ++
  [0xE3, 0xEA, 0xF1, 0xF8, 0xFF, 0x06, 0x0D, 0x14,
   0x18, 0xFC, 0xE8, 0x03, 0x00, 0x80, 0x45, 0x4C] ++
  [0x53, 0x5A, 0x61, 0x68, 0x6F, 0x76, 0x7D, 0x84,
   0x8B, 0x92, 0x99, 0xA0, 0xA7, 0xAE, 0xB5, 0xBC] ++
  [0xC3, 0xCA, 0xD1, 0xD8, 0xDF, 0xE6, 0xED, 0xF4,
   0xFB, 0x02, 0x09, 0x10, 0x17, 0x1E, 0x25, 0x2C] ++
  [0x33, 0x3A, 0x41, 0x48, 0x4F, 0x56, 0x5D, 0x64,
   0x6B, 0x72, 0x79, 0x80, 0x87, 0x8E, 0x95, 0x9C] ++
  [0xA3, 0xAA, 0xB1, 0xB8, 0xE4, 0xB1, 0xCD, 0xD4,
   0xDB, 0xE2, 0xE9, 0xF0, 0xF7, 0xFE, 0x05, 0x0C] ++
  [0x13, 0x1A, 0x21, 0x28, 0x2F, 0x36, 0x3D, 0x44,
   0x4B, 0x52, 0x59, 0x60, 0x67, 0x6E, 0x75, 0x7C] ++
  [0x83, 0x8A, 0x91, 0x98, 0x9F, 0xA6, 0xAD, 0xB4,
   0xBB, 0xC2, 0xC9, 0xD0, 0xD7, 0xDE, 0xE5, 0xEC] ++
  [0xF3, 0xFA, 0x01, 0x08, 0x0F, 0x16, 0x1D, 0x24,
   0x2B, 0x32, 0x39, 0x40, 0x47, 0x4E, 0x55, 0x5C] ++
  [0x63, 0x6A, 0x71, 0x78, 0x7F, 0x86, 0x8D, 0x94,
   0x9B, 0xA2, 0xA9, 0xB0, 0xB7, 0xBE, 0xC5, 0xCC] ++
  [0xD3, 0xDA, 0xE1, 0xE8, 0xEF, 0xF6, 0xFD, 0x04,
   0x0B, 0x12, 0x19, 0x20, 0x27, 0x2E, 0x35, 0x3C] ++
  [0x43, 0x4A, 0x51, 0x58, 0x5F, 0x66, 0x6D, 0x74,
   0x7B, 0x82, 0x89, 0x90, 0x97, 0x9E, 0xA5, 0xAC] ++
  [0xB3, 0xBA, 0xC1, 0xC8, 0xCF, 0xD6, 0xDD, 0xE4,
   0xEB, 0xF2, 0xF9, 0x00, 0x07, 0x0E, 0x15, 0x1C] ++
  [0x23, 0x2A, 0x31, 0x38, 0x3F, 0x46, 0x4D, 0x54, 0x5B, 0x62, 0x69, 0x70, 0x43, 0x74]

/-- Scanning for the sync marker with an empty window: reset, then `START`. -/
def hunting : State := { State.reset with st := .hunt }

/-- Frame A held (V20). -/
def heldA : State :=
  { State.reset with
    st := .done, result := .ok, pos := 36, flen := 36, ck := 0x1BA07467, hId := 0x25, hLen := 4,
    rxck := 0xE45F8B98, calcCk := 0xE45F8B98, cur := 28, cntOk := 1, buf := cellsFrom 0 frameA }

/-- Frame A in the trailer, its last byte still to come (V20, V54). -/
def trailerA : State :=
  { State.reset with
    st := .trailer, pos := 35, ck := 0x1BA07467, hId := 0x25, hLen := 4,
    buf := cellsFrom 0 (frameA.take 35) }

/-- A header with the given length field, its last byte still to come (V20, V22, V24). -/
def headerOf (len0 len1 : Byte) : State :=
  { State.reset with
    st := .header, pos := 27,
    ck := crcAcc Params.default
      ([0xAA, 0x44, 0x12, 0x1C, 0x2A, 0, 0, 0x20, len0, len1] ++ List.replicate 17 0),
    buf := cellsFrom 0
      ([0xAA, 0x44, 0x12, 0x1C, 0x2A, 0, 0, 0x20, len0, len1] ++ List.replicate 17 0) }

/-- Frame A in the body, one body byte still to come (V20). -/
def bodyA : State :=
  { State.reset with
    st := .body, pos := 31, ck := crcAcc Params.default (frameA.take 31), hId := 0x25, hLen := 4,
    buf := cellsFrom 0 (frameA.take 31) }

/-- Frame B held, in attitude mode (V30). -/
def heldB : State :=
  { State.reset with
    mode := .attitude, st := .done, result := .ok, pos := 238, flen := 238, ck := 0x7443,
    rxck := 0x7443, calcCk := 0x7443, ftype := 3, hasImu := true, hasIrehs := true, cur := 6,
    cntOk := 1, buf := cellsFrom 0 frameB }

/-- A window whose last byte is still to come, from its stored bytes and their sum (V30 to V36). -/
def windowOf (bs : List Byte) (sum : Word) : State :=
  { State.reset with
    mode := .attitude, st := .collect, pos := 237, ck := sum, buf := cellsFrom 0 (bs.take 237) }

/-- Frame C (V31). -/
def frameC : List Byte := ((frameB.set 6 0x01).set 236 0x41).set 237 0x74

/-- A well-formed configuration with a window of ten bytes. -/
def shortParams : Params := { Params.default with aFrameLen := 10, aCkOff := 8 }

/-- A window of ten bytes whose sum, `0x017E`, is its trailer. -/
def frameW : List Byte := [0x90, 0xEB, 0, 0, 0, 0, 3, 0, 0x7E, 0x01]

/-- That window held (R117). -/
def heldW : State :=
  { State.resetWith shortParams with
    mode := .attitude, st := .done, result := .ok, pos := 10, flen := 10, ck := 0x17E,
    rxck := 0x17E, calcCk := 0x17E, ftype := 3, hasImu := true, hasIrehs := true, cur := 6,
    cntOk := 1, buf := cellsFrom 0 frameW }

/-- That window, its last byte still to come. -/
def windowW : State :=
  { State.resetWith shortParams with
    mode := .attitude, st := .collect, pos := 9, ck := 0x17E, buf := cellsFrom 0 (frameW.take 9) }

/-- A transport failure has been reported (V29, V50). -/
def faulted : State := { State.reset with st := .fault, result := .eIo }

/-! ### Well-formedness: each check refuses an ill-formed term -/

theorem test_bits_width_zero_refused : (Instr.bits 0 0).wellFormed = false := by decide
theorem test_bits_width_33_refused : (Instr.bits 0 33).wellFormed = false := by decide
theorem test_sbits_width_zero_refused : (Instr.sbits 31 0).wellFormed = false := by decide
theorem test_sbits_width_33_refused : (Instr.sbits 31 33).wellFormed = false := by decide
theorem test_bits_past_bit_31_is_well_formed : (Instr.bits 31 2).wellFormed = true := by decide

theorem test_default_params_well_formed : Params.default.WF := by decide
theorem test_alternative_params_well_formed : Params.alternative.WF := by decide

/-- A configuration that the check of R6 refuses. -/
def refusedParams (p : Params) : Bool := !decide p.WF

theorem test_fixed_widths_refused :
    refusedParams { Params.default with gSyncLen := 2 } = true ∧
    refusedParams { Params.default with gCkLen := 2 } = true ∧
    refusedParams { Params.default with aCkLen := 4 } = true ∧
    refusedParams { Params.default with aSyncLen := 3 } = true ∧
    refusedParams { Params.default with cntW := 32 } = true := by decide

theorem test_header_fields_refused :
    refusedParams { Params.default with gWId := 0 } = true ∧
    refusedParams { Params.default with gWLen := 3 } = true ∧
    refusedParams { Params.default with gRspBit := 8 } = true ∧
    refusedParams { Params.default with gOffId := 2 } = true ∧
    refusedParams { Params.default with gOffType := 2 } = true ∧
    refusedParams { Params.default with gOffLen := 2 } = true ∧
    refusedParams { Params.default with gOffId := 27 } = true ∧
    refusedParams { Params.default with gOffType := 28 } = true ∧
    refusedParams { Params.default with gOffLen := 27 } = true := by decide

theorem test_sizes_refused :
    refusedParams { Params.default with gMaxBody := 4065 } = true ∧
    refusedParams { Params.default with gMaxBody := 0, bufSize := 31 } = true := by decide

theorem test_window_refused :
    refusedParams { Params.default with aHdrLen := 1 } = true ∧
    refusedParams { Params.default with aHdrLen := 237 } = true ∧
    refusedParams { Params.default with aCkOff := 235 } = true ∧
    refusedParams { Params.default with aOffFtype := 1 } = true ∧
    refusedParams { Params.default with aOffFtype := 236 } = true ∧
    refusedParams { Params.default with bufSize := 237, gMaxBody := 205 } = true ∧
    refusedParams { Params.default with bufSize := 65536, gMaxBody := 65504 } = true := by decide

/-! ### Decoding: every constructor, from a word of V60 -/

theorem test_decode_nop : decode 0x00000000 = .ok .nop := by decide
theorem test_decode_setmode : decode 0x04000001 = .ok (.setmode .attitude) := by decide
theorem test_decode_start : decode 0x08000000 = .ok .start := by decide
theorem test_decode_stop : decode 0x0C000000 = .ok .stop := by decide
theorem test_decode_ack : decode 0x10000000 = .ok .ack := by decide
theorem test_decode_flush : decode 0x14000000 = .ok .flush := by decide
theorem test_decode_clrerr : decode 0x18000000 = .ok .clrerr := by decide
theorem test_decode_clrcnt : decode 0x1C000000 = .ok .clrcnt := by decide
theorem test_decode_setie : decode 0x20000007 = .ok (.setie 7) := by decide
theorem test_decode_rdreg : decode 0x2400000D = .ok (.rdreg 13) := by decide
theorem test_decode_ckinit : decode 0x40000001 = .ok (.ckinit .sum16) := by decide
theorem test_decode_ckbyte : decode 0x440000AA = .ok (.ckbyte 0xAA) := by decide
theorem test_decode_ckread : decode 0x48000000 = .ok .ckread := by decide
theorem test_decode_seek : decode 0x80000028 = .ok (.seek 40) := by decide
theorem test_decode_seekb : decode 0x84000001 = .ok (.seekb 1) := by decide
theorem test_decode_ldu8 : decode 0x89000006 = .ok (.ldu8 .std 6) := by decide
theorem test_decode_ldu8_cursor : decode 0x88800000 = .ok (.ldu8Cur .raw) := by decide
theorem test_decode_lds8 : decode 0x8C000001 = .ok (.lds8 .raw 1) := by decide
theorem test_decode_lds8_cursor : decode 0x8E800000 = .ok (.lds8Cur .imu) := by decide
theorem test_decode_ldu16 : decode 0x93000064 = .ok (.ldu16 .irehs 100) := by decide
theorem test_decode_ldu16_cursor : decode 0x90800000 = .ok (.ldu16Cur .raw) := by decide
theorem test_decode_lds16 : decode 0x9600002C = .ok (.lds16 .imu 44) := by decide
theorem test_decode_lds16_cursor : decode 0x96800000 = .ok (.lds16Cur .imu) := by decide
theorem test_decode_ld32 : decode 0x98000028 = .ok (.ld32 .raw 40) := by decide
theorem test_decode_ld32_cursor : decode 0x99800000 = .ok (.ld32Cur .std) := by decide
theorem test_decode_bits : decode 0xA0000708 = .ok (.bits 8 8) := by decide
theorem test_decode_sbits : decode 0xA4000718 = .ok (.sbits 24 8) := by decide
theorem test_decode_flags : decode 0xA8000007 = .ok (.flags 7) := by decide

/-- V61 and R87: one word for each reason. -/
theorem test_decode_illegal :
    decode 0x28000000 = .error .unassignedOpcode ∧ decode 0x4C000000 = .error .unassignedOpcode ∧
    decode 0x9C000000 = .error .unassignedOpcode ∧ decode 0xAC000000 = .error .unassignedOpcode ∧
    decode 0xFFFFFFFF = .error .unassignedOpcode ∧ decode 0x93011388 = .error .reservedBits ∧
    decode 0x01000000 = .error .slotOrMode ∧ decode 0x04000002 = .error .immediateBits ∧
    decode 0x24000040 = .error .immediateBits ∧ decode 0xA0000020 = .error .immediateBits ∧
    decode 0x88800001 = .error .cursorImmediate := by decide

theorem test_decode_table_word :
    decodeTableWord 32 0x440000AA = some (.ckbyte 0xAA) ∧
    decodeTableWord 32 0x28000000 = none := by decide

/-- The command word that is placed is the one that the next step runs. -/
theorem test_placed_word_runs :
    after (step (State.reset.withFetchWord 32 0x04000001)) State.mode = some .attitude ∧
    after (step (State.reset.withFetchWord 32 0x24000015)) State.rsp =
      some (some ⟨.ok, 0x0D270D07⟩) := by decide

/-! ### Integrity functions -/

theorem test_crc_upd :
    crcUpd Params.default 0 0x01 = 0x77073096 ∧ crcUpd Params.default 0 0x80 = 0xEDB88320 ∧
    crcUpd Params.default 0xFFFFFFFF 0x00 = 0x2DFD1072 := by decide
theorem test_crc_of_frame_a : crc32 Params.default (frameA.take 32) = 0xE45F8B98 := by
  decide +kernel
theorem test_sum_of_frame_b : sum16 Params.default (frameB.take 236) = 0x7443 := by
  decide +kernel

/-! ### Control and status commands -/

theorem test_nop : answer 0x00000000 faulted = some (some ⟨.ok, 0⟩) := by decide
theorem test_setmode_status :
    after (commandStep 0x04000001 State.reset) State.statusWord = some 0x00000008 := by decide
theorem test_setmode_done : answer 0x04000001 heldA = some (some ⟨.badState, 0⟩) := by decide
theorem test_start_attitude_status :
    after (exec .start { State.reset with mode := .attitude }) (fun t => (t.statusWord, t.ck)) =
      some (0x0000100D, 0) := by decide
theorem test_start_done : answer 0x08000000 heldA = some (some ⟨.badState, 0⟩) := by decide
theorem test_stop_done :
    after (commandStep 0x0C000000 heldA) (fun t => (t.statusWord, t.pos, t.ck, t.cur)) =
      some (0, 0, 0x1BA07467, 28) := by decide
theorem test_stop_fault : answer 0x0C000000 faulted = some (some ⟨.badState, 0⟩) := by decide
theorem test_ack_done :
    after (commandStep 0x10000000 heldA) (fun t => (t.statusWord, t.flen, t.ck)) =
      some (0x00001001, 36, 0xFFFFFFFF) := by decide
theorem test_ack_idle : answer 0x10000000 State.reset = some (some ⟨.badState, 0⟩) := by decide
theorem test_flush_body :
    after (commandStep 0x14000000 bodyA) (fun t => (t.st, t.pos, t.ck)) =
      some (.hunt, 0, 0xFFFFFFFF) := by decide
theorem test_flush_done : answer 0x14000000 heldA = some (some ⟨.badState, 0⟩) := by decide
theorem test_clrerr_fault :
    after (commandStep 0x18000000 faulted) State.statusWord = some 0 := by decide
theorem test_clrerr_idle : answer 0x18000000 State.reset = some (some ⟨.badState, 0⟩) := by decide
theorem test_clrcnt :
    after (commandStep 0x1C000000 heldA) (fun t => (t.cntOk, t.st)) = some (0, .done) := by decide
theorem test_setie_raises_irq :
    after (commandStep 0x20000001 heldA) State.statusWord = some 0x00000816 := by decide
theorem test_setie_masks_irq :
    after (commandStep 0x20000006 { heldA with ie := 1 }) State.statusWord =
      some 0x00000016 := by decide
theorem test_rdreg_bufsz : answer 0x24000016 State.reset = some (some ⟨.ok, 0x1000⟩) := by decide
theorem test_rdreg_unassigned :
    answer 0x24000017 State.reset = some (some ⟨.badArg, 0⟩) := by decide

/-! ### The standalone integrity unit -/

theorem test_ckinit :
    after (commandStep 0x40000001 State.reset) (fun t => (t.xalg, t.xacc)) =
      some (.sum16, 0) := by decide
theorem test_ckbyte_sum :
    after (commandStep 0x440000FF { State.reset with xalg := .sum16, xacc := 0x17B }) State.xacc =
      some 0x27A := by decide
theorem test_ckbyte_crc :
    after (commandStep 0x44000012 { State.reset with
      xacc := crcAcc Params.default [0xAA, 0x44] }) State.xacc = some 0xB3FD0512 := by decide +kernel
theorem test_ckread :
    answer 0x48000000 { State.reset with xacc := 0xB3FD0512 } =
      some (some ⟨.ok, 0x4C02FAED⟩) := by decide

/-! ### The unpacker -/

theorem test_seek : after (commandStep 0x8000FFFF heldB) State.cur = some 65535 := by decide
theorem test_seekb_wraps : after (commandStep 0x8400FFFF heldB) State.cur = some 5 := by decide
theorem test_ldu8 : answer 0x89000006 heldB = some (some ⟨.ok, 3⟩) := by decide
theorem test_ldu8_range : answer 0x890000EE heldB = some (some ⟨.range, 0⟩) := by decide
theorem test_ldu8_cursor_no_wrap :
    answer 0x88800000 { heldB with cur := 65535 } = some (some ⟨.range, 0⟩) := by decide
theorem test_ldu8_cursor :
    after (commandStep 0x88800000 { heldB with cur := 5 }) (fun t => (t.acc, t.cur)) =
      some (0, 6) := by decide
theorem test_lds8 : answer 0x8C000001 heldB = some (some ⟨.ok, 0xFFFFFFEB⟩) := by decide
theorem test_lds8_cursor :
    after (commandStep 0x8C800000 { heldA with cur := 31 }) (fun t => (t.acc, t.cur)) =
      some (0xFFFFFFEF, 32) := by decide
theorem test_ldu16 : answer 0x93000064 heldB = some (some ⟨.ok, 0xB1E4⟩) := by decide
theorem test_ldu16_absent : answer 0x9100001C heldA = some (some ⟨.absent, 0⟩) := by
  decide
theorem test_ldu16_cursor :
    after (commandStep 0x90800000 { heldB with cur := 236 }) (fun t => (t.acc, t.cur)) =
      some (0x7443, 238) := by decide +kernel
theorem test_lds16 : answer 0x9600002C heldB = some (some ⟨.ok, 0xFFFF8000⟩) := by decide
theorem test_lds16_not_ok :
    answer 0x93001388 { heldB with result := .eCksum } = some (some ⟨.notOk, 0⟩) := by
  decide
theorem test_lds16_cursor :
    after (commandStep 0x96800000 { heldB with cur := 40 }) (fun t => (t.acc, t.cur)) =
      some (0xFFFFFC18, 42) := by decide
theorem test_ld32 : answer 0x98000028 heldB = some (some ⟨.ok, 0x03E8FC18⟩) := by decide
theorem test_ld32_range : answer 0x990000EB heldB = some (some ⟨.range, 0⟩) := by decide
theorem test_ld32_cursor :
    after (commandStep 0x98800000 heldA) (fun t => (t.acc, t.cur)) =
      some (0xEFBEADDE, 32) := by decide
theorem test_bits :
    answer 0xA000030A { State.reset with acc := 0x03E8FC18 } = some (some ⟨.ok, 0xF⟩) := by decide
theorem test_bits_bad_argument :
    answer 0xA000011F State.reset = some (some ⟨.badArg, 0⟩) := by decide
theorem test_sbits :
    answer 0xA400030A { State.reset with acc := 0x03E8FC18 } =
      some (some ⟨.ok, 0xFFFFFFFF⟩) := by decide
theorem test_sbits_bad_argument :
    answer 0xA4001F01 State.reset = some (some ⟨.badArg, 0⟩) := by decide
theorem test_flags :
    (List.range 8).map (fun p => answer (0xA8000000 + BitVec.ofNat 32 p)
      { State.reset with acc := 0xFFFFB1E4 }) =
    [0, 1, 2, 3, 1, 0, 3, 2].map (fun v => some (some ⟨.ok, v⟩)) := by decide

/-! ### The frame engine -/

/-- V15: the third byte locks. -/
theorem test_lock :
    after (byteStep { hunting with shreg := 0x00AA44, shcnt := 2 } 0x12)
      (fun t => (t.st, t.pos, t.ck, t.shcnt, t.cntSkip)) =
      some (.header, 3, 0xB3FD0512, 0, 0) := by decide +kernel
/-- V16: a byte is skipped in the step that locks. -/
theorem test_lock_skips :
    after (byteStep { hunting with shreg := 0xAAAA44, shcnt := 3 } 0x12)
      (fun t => (t.st, t.cntSkip)) = some (.header, 1) := by decide
/-- V19. -/
theorem test_no_lock :
    after (byteStep { hunting with shreg := 0x00AA44, shcnt := 2 } 0x13)
      (fun t => (t.st, t.shreg, t.shcnt, t.cntSkip, t.ck)) =
      some (.hunt, 0xAA4413, 3, 0, 0xFFFFFFFF) := by decide
/-- V28: a counter saturates. -/
theorem test_skip_saturates :
    after (byteStep { hunting with shcnt := 3, cntSkip := 0xFFFF } 0) State.cntSkip =
      some 0xFFFF := by decide
/-- V24: the longest body that is accepted. -/
theorem test_header_complete :
    after (byteStep (headerOf 0xE0 0x0F) 0) (fun t => (t.st, t.pos, t.hId, t.hLen, t.ck)) =
      some (.body, 28, 0x2A, 4064, 0x0B13946D) := by decide +kernel
/-- V24: the shortest body that is not. -/
theorem test_header_oversize :
    after (byteStep (headerOf 0xE1 0x0F) 0)
      (fun t => (t.st, t.pos, t.hLen, t.ck, t.cntHdrerr, t.result)) =
      some (.hunt, 0, 4065, 0xFFFFFFFF, 1, .none) := by decide
/-- R108: no body. -/
theorem test_header_no_body :
    after (byteStep (headerOf 0 0) 0) State.st = some .trailer := by decide
/-- V20, after byte 32. -/
theorem test_body_complete :
    after (byteStep bodyA 0xEF) (fun t => (t.st, t.ck, t.pos)) =
      some (.trailer, 0x1BA07467, 32) := by decide +kernel
/-- V20, after byte 36. -/
theorem test_trailer_complete :
    after (byteStep trailerA 0xE4)
      (fun t => (t.statusWord, t.flen, t.rxck, t.calcCk, t.cur, t.cntOk)) =
      some (0x00000016, 36, 0xE45F8B98, 0xE45F8B98, 28, 1) := by decide
/-- V23: a flipped bit in the trailer. -/
theorem test_trailer_mismatch :
    after (byteStep trailerA 0x64)
      (fun t => (t.st, t.result, t.rxck, t.cntCkerr, t.flen, t.pos)) =
      some (.hunt, .none, 0x645F8B98, 1, 36, 0) := by decide
/-- V30. -/
theorem test_window_complete :
    after (byteStep (windowOf frameB 0x7443) 0x74)
      (fun t => (t.statusWord, t.flen, t.rxck, t.calcCk, t.ftype, t.cur, t.cntOk)) =
      some (0x0000061E, 238, 0x7443, 0x7443, 3, 6, 1) := by decide +kernel
/-- V35: a flipped bit in the trailer. -/
theorem test_window_mismatch :
    after (byteStep (windowOf frameC 0x7441) 0xF4)
      (fun t => (t.result, t.rxck, t.calcCk, t.cntCkerr, t.cntOk)) =
      some (.eCksum, 0xF441, 0x7441, 1, 0) := by decide +kernel
/-- V33: the sync bytes swapped, the sum unchanged. -/
theorem test_window_sync :
    after (byteStep (windowOf ((frameC.set 0 0xEB).set 1 0x90) 0x7441) 0x74)
      (fun t => (t.statusWord, t.rxck, t.calcCk, t.cntSyncerr, t.cntCkerr)) =
      some (0x0000023E, 0x7441, 0x7441, 1, 0) := by decide +kernel
/-- R116: the first byte is covered. -/
theorem test_collect_first_byte :
    after (byteStep { State.reset with mode := .attitude, st := .collect, ck := 0 } 0x90)
      (fun t => (t.st, t.pos, t.ck)) = some (.collect, 1, 0x90) := by decide
/-- V29. -/
theorem test_err :
    after (errStep { State.reset with st := .header, pos := 20, ck := 0x067225F7 })
      (fun t => (t.statusWord, t.pos, t.ck)) = some (0x00000047, 0, 0x067225F7) := by decide

/-! ### Ports -/

/-- V54: the last byte of frame A, in one cycle with a command. -/
def lastByteWith (w : Word) : Cycle :=
  { rst := false, inValid := true, inData := 0xE4, inErr := false, cmdValid := true, cmdWord := w }

theorem test_same_cycle_read :
    after (Sys2Proof.core.run 2 { trailerA with cycles := [lastByteWith 0x24000000] })
      State.rsp = some (some ⟨.ok, 0x00000016⟩) := by decide
theorem test_same_cycle_ack :
    after (Sys2Proof.core.run 2 { trailerA with cycles := [lastByteWith 0x10000000] })
      (fun t => (t.st, t.cntOk, t.rsp)) = some (.hunt, 1, some ⟨.ok, 0⟩) := by decide
/-- V54: `in_err` wins over `in_valid`. -/
theorem test_error_beats_byte :
    after (step { trailerA with cycles := [{ lastByteWith 0 with inErr := true }] })
      (fun t => (t.st, t.pos)) = some (.fault, 0) := by decide
/-- V55. -/
theorem test_reset :
    after (step { heldB with cycles := [{ lastByteWith 0 with rst := true }] })
      (fun t => (t.statusWord, t.ck, t.xacc, t.bodyOff, t.rsp)) =
      some (0, 0xFFFFFFFF, 0xFFFFFFFF, 0x1C, none) := by decide
/-- R41: a byte that is offered while `in_ready` is 0 is not taken. -/
theorem test_byte_not_ready :
    after (step { heldA with cycles := [byteCycle 0x55] }) (fun t => (t.st, t.pos, t.cntSkip)) =
      some (.done, 36, 0) := by decide
/-- R6: an ill-formed configuration is refused. -/
theorem test_ill_formed_refused :
    (match step { State.reset with cfg := { Params.default with cntW := 8 } } with
      | .refused r => decide (r = .illFormedConfig)
      | .next _ => false
      | .fault _ => false) = true := by decide

/-! ### Witnesses: for every statement with hypotheses, states and operands that meet them

A witness names the statement it belongs to; where a statement has several clauses, each has its
witness, at a boundary of its range. -/

theorem hunting_inv : hunting.Inv where
  cfg_wf := by decide
  buf_wf := by decide
  buf_in_range := by decide
  gnss_states := by decide
  attitude_states := by decide
  pos_at_rest := fun _ => rfl
  window_empty := by decide
  result_none := by decide
  fault_io := by decide
  attitude_ck := by decide
  unit_sum := by decide
  stored := fun h => absurd h (by decide)

/-- Meets the hypotheses of a step that takes the cycle `c`. -/
def facing (s : State) (c : Cycle) : State := { s with cycles := [c] }

/-- A cycle with every input at 0. -/
def quiet : Cycle :=
  { rst := false, inValid := false, inData := 0, inErr := false, cmdValid := false, cmdWord := 0 }

theorem witness_DecodeOfEncodedCommand :
    (Instr.bits 31 1).wellFormed = true ∧ (Instr.sbits 0 32).wellFormed = true ∧
    (Instr.seek 0xFFFF).wellFormed = true := by decide

theorem witness_EncodeOfDecodedWord :
    decode 0xA0001F00 = .ok (.bits 0 32) ∧ decode 0x8B80FFFF = .error .cursorImmediate ∧
    decode 0x8B00FFFF = .ok (.ldu8 .irehs 0xFFFF) := by decide

theorem witness_WordsDecodeByOpcodeMap :
    (∃ r ∈ opcodeMap, (0x00000000 : Word) &&& r.mask = r.pattern) ∧
    (∃ r ∈ opcodeMap, (0xA8000007 : Word) &&& r.mask = r.pattern) ∧
    decode 0xA8000007 = .ok (.flags 7) := by decide

theorem witness_IllegalWordsAnswerIllegal :
    (∀ r ∈ opcodeMap, (0x28000000 : Word) &&& r.mask ≠ r.pattern) ∧
    ((facing hunting (commandCycle 0xFFFFFFFF)).cfg.WF ∧
      (commandCycle 0xFFFFFFFF).rst = false ∧
      (commandCycle 0xFFFFFFFF).streamEvent hunting.inReady = none ∧
      (commandCycle 0xFFFFFFFF).cmdValid = true ∧
      ∀ r ∈ opcodeMap, (commandCycle 0xFFFFFFFF).cmdWord &&& r.mask ≠ r.pattern) ∧
    (23 ≤ (23 : BitVec 6).toNat ∧ 23 ≤ (63 : BitVec 6).toNat) ∧
    (FieldWidth 2 ∧ 32 < (31 : BitVec 5).toNat + 2) ∧
    (FieldWidth 32 ∧ 32 < (1 : BitVec 5).toNat + 32) := by decide

/-- Each way of being illegal, at the boundaries of its range. -/
theorem witness_IllegalWordsAnswerIllegal_fields :
    (∀ opc ∈ [0x0A, 0x0F, 0x13, 0x1F, 0x27, 0x2B, 0x3F],
      ∀ r ∈ opcodeMap, wordOf ⟨BitVec.ofNat 6 opc, 0, 0, 0, 0⟩ &&& r.mask ≠ r.pattern) ∧
    (∀ f ∈ [(⟨0x00, 0, 0, 1, 0⟩ : Fields), ⟨0x26, 3, 1, 64, 0⟩, ⟨0x00, 1, 0, 0, 0⟩,
        ⟨0x21, 0, 1, 0, 0⟩, ⟨0x28, 3, 0, 0, 0⟩, ⟨0x00, 0, 0, 0, 1⟩, ⟨0x02, 0, 0, 0, 1⟩,
        ⟨0x07, 0, 0, 0, 0x8000⟩, ⟨0x12, 0, 0, 0, 1⟩, ⟨0x01, 0, 0, 0, 2⟩, ⟨0x10, 0, 0, 0, 2⟩,
        ⟨0x08, 0, 0, 0, 8⟩, ⟨0x2A, 0, 0, 0, 8⟩, ⟨0x09, 0, 0, 0, 64⟩, ⟨0x11, 0, 0, 0, 256⟩,
        ⟨0x28, 0, 0, 0, 0x20⟩, ⟨0x29, 0, 0, 0, 0x2000⟩, ⟨0x22, 0, 1, 0, 1⟩,
        ⟨0x26, 0, 1, 0, 0xFFFF⟩],
      ∀ r ∈ opcodeMap, wordOf f &&& r.mask ≠ r.pattern) := by decide

theorem witness_StepRunsDecodedCommand :
    (facing heldA (commandCycle 0x10000000)).cfg.WF ∧
    (commandCycle 0x10000000).rst = false ∧
    (commandCycle 0x10000000).streamEvent heldA.inReady = none ∧
    (commandCycle 0x10000000).cmdValid = true ∧
    decode (commandCycle 0x10000000).cmdWord = .ok .ack := by decide

theorem witness_StreamEventsNeedReady :
    (byteCycle 0x55).streamEvent hunting.inReady = some (.byte 0x55) ∧
    ({ byteCycle 0x55 with inErr := true } : Cycle).streamEvent hunting.inReady = some .err ∧
    ((facing heldA (byteCycle 0x55)).cfg.WF ∧ (byteCycle 0x55).rst = false ∧
      heldA.inReady = false ∧ (byteCycle 0x55).cmdValid = false) := by decide

theorem witness_StreamEventGoesBeforeCommand :
    (facing trailerA (byteCycle 0xE4)).cfg.WF ∧
    (byteCycle 0xE4).rst = false ∧
    (byteCycle 0xE4).streamEvent trailerA.inReady = some (.byte 0xE4) ∧
    (byteCycle 0xE4).cmdValid = false ∧
    (lastByteWith 0).rst = false ∧
    (lastByteWith 0).streamEvent trailerA.inReady = some (.byte 0xE4) ∧
    (lastByteWith 0).cmdValid = true ∧
    after (step (facing trailerA (lastByteWith 0))) State.st = some .done := by decide +kernel

theorem witness_NoEventChangesNothing :
    heldA.cfg.WF ∧ heldA.cycles = [] ∧ (facing heldA quiet).cfg.WF ∧ quiet.rst = false ∧
    quiet.inValid = false ∧ quiet.inErr = false ∧ quiet.cmdValid = false := by decide

theorem witness_ResetEventBeatsItsCycle :
    (facing heldA { lastByteWith 0 with rst := true }).cfg.WF ∧
    ({ lastByteWith 0 with rst := true } : Cycle).rst = true := by decide

theorem witness_ResetStateOutputs :
    IsLoad (.ldu8 .raw 0) 1 .raw (.absolute 0) ∧ IsLoad (.ld32Cur .irehs) 4 .irehs .cursor :=
  ⟨.ldu8 .raw 0, .ld32Cur .irehs⟩

theorem witness_IllFormedConfigIsRefused :
    refusedParams { Params.default with bufSize := 65536, gMaxBody := 65504 } = true := by decide

theorem witness_SetmodeNeedsIdle :
    State.reset.st = .idle ∧ heldA.st ≠ .idle ∧ 1 < (2 : Half).toNat ∧
    1 < (0xFFFF : Half).toNat := by decide

theorem witness_StartBeginsReception :
    State.reset.st = .idle ∧ State.reset.mode = .gnss ∧
    ({ State.reset with mode := .attitude } : State).mode = .attitude ∧ heldA.st ≠ .idle := by
  decide

theorem witness_StopGoesIdle :
    heldA.st ≠ .fault ∧ State.reset.st ≠ .fault ∧ faulted.st = .fault := by decide

theorem witness_AckReleasesFrame :
    heldA.st = .done ∧ heldA.mode = .gnss ∧ heldB.st = .done ∧ heldB.mode = .attitude ∧
    IsLoad (.lds16Cur .imu) 2 .imu .cursor ∧ hunting.st ≠ .done :=
  ⟨rfl, rfl, rfl, rfl, .lds16Cur .imu, by decide⟩

theorem witness_FlushBeginsAnew :
    hunting.st ∈ [EngineState.hunt, .header, .body, .trailer, .collect] ∧ hunting.mode = .gnss ∧
    (windowOf frameB 0).st ∈ [EngineState.hunt, .header, .body, .trailer, .collect] ∧
    (windowOf frameB 0).mode = .attitude ∧
    heldA.st ∉ [EngineState.hunt, .header, .body, .trailer, .collect] := by decide

/-- The clause of `FlushBeginsAnew` about sound states. -/
theorem witness_FlushBeginsAnew_sound :
    hunting.Inv ∧ hunting.st ∈ [EngineState.hunt, .header, .body, .trailer, .collect] :=
  ⟨hunting_inv, by decide⟩

theorem witness_ClrcntClearsFiveCounters :
    Instr.nop ≠ .clrcnt ∧ exec .nop heldA = .next (heldA.respond .ok 0) := ⟨by decide, rfl⟩

theorem witness_ClrerrLeavesFault : faulted.st = .fault ∧ heldA.st ≠ .fault := by decide

theorem witness_SetieAndInterruptLine :
    7 < (8 : Half).toNat ∧
    (heldA.ie = State.reset.ie ∧ heldA.st = heldB.st ∧ heldA.result = heldB.result) := by decide

theorem witness_RdregReadsTheRegisterMap :
    63 < (64 : Half).toNat ∧ 22 < (23 : BitVec 6).toNat ∧ 22 < (63 : BitVec 6).toNat ∧
    (0 : BitVec 6).toNat = 0 ∧ (22 : BitVec 6).toNat = 22 := by decide

theorem witness_CkinitLoadsAccumulator : 1 < (2 : Half).toNat := by decide

theorem witness_CkbyteUpdatesAccumulator :
    255 < (256 : Half).toNat ∧ State.reset.xalg = .crc32 ∧
    ({ State.reset with xalg := .sum16, xacc := 0xFFFF } : State).xalg = .sum16 := by decide

theorem witness_CkreadAnswersCode :
    State.reset.xalg = .crc32 ∧
    ({ State.reset with xalg := .sum16, xacc := 0xFFFF } : State).xalg = .sum16 := by decide

theorem witness_SumIsModularAndOrderFree : ([0x90, 0xEB] : List Byte).Perm [0xEB, 0x90] := by
  decide

/-- For the two clauses of `StatusWordFields` about the response: a state with one and without. -/
theorem witness_StatusWordFields :
    State.reset.rsp = none ∧ (State.reset.respond .badArg 0).rsp = some ⟨.badArg, 0⟩ := ⟨rfl, rfl⟩

theorem witness_CrcTellsOneChangedByte :
    Params.default.crcPolyRefl.getLsbD 31 = true ∧ (0xAD : Byte) ≠ 0xAC := by decide

theorem witness_CursorCommandsSetCursor :
    heldA.mode = .gnss ∧ heldB.mode = .attitude := by decide

/-- The four checks, each with a state in which it is the first to fail. -/
theorem witness_LoadChecksInOrder :
    IsLoad (.ld32Cur .irehs) 4 .irehs .cursor ∧ hunting.st ≠ .done ∧
    (({ heldB with result := .eCksum } : State).st = .done ∧
      ({ heldB with result := .eCksum } : State).result ≠ .ok) ∧
    (heldA.st = .done ∧ heldA.result = .ok ∧ ¬SlotPresent heldA .irehs) ∧
    (({ heldB with cur := 235 } : State).st = .done ∧
      ({ heldB with cur := 235 } : State).result = .ok ∧
      SlotPresent { heldB with cur := 235 } .irehs ∧
      ({ heldB with cur := 235 } : State).flen.toNat <
        (({ heldB with cur := 235 } : State).effectiveAddr .cursor).toNat + 4) :=
  ⟨.ld32Cur .irehs, by decide, by decide, ⟨rfl, rfl, by
    simp [SlotPresent, heldA, State.reset, State.resetWith]⟩,
    ⟨rfl, rfl, ⟨rfl, rfl⟩, by decide⟩⟩

/-- The last byte of frame B, in both forms. -/
theorem witness_ByteLoadsExtend :
    LoadAllowed heldB .std (237 : Half).toNat 1 ∧ heldB.readByte (237 : Half).toNat = .ok 0x74 ∧
    LoadAllowed { heldB with cur := 237 } .imu (237 : Half).toNat 1 :=
  ⟨⟨rfl, rfl, rfl, by decide⟩, by decide +kernel, ⟨rfl, rfl, ⟨rfl, rfl⟩, by decide⟩⟩

/-- The last two bytes of frame B, in both forms. -/
theorem witness_HalfLoadsExtend :
    LoadAllowed heldB .raw (236 : Half).toNat 2 ∧ heldB.readByte (236 : Half).toNat = .ok 0x43 ∧
    heldB.readByte ((236 : Half).toNat + 1) = .ok 0x74 ∧
    LoadAllowed { heldB with cur := 236 } .irehs (236 : Half).toNat 2 :=
  ⟨⟨rfl, rfl, trivial, by decide⟩, by decide +kernel, by decide +kernel,
    ⟨rfl, rfl, ⟨rfl, rfl⟩, by decide⟩⟩

/-- The first and the last four bytes of frame A. -/
theorem witness_WordLoadsAssemble :
    LoadAllowed heldA .raw (0 : Half).toNat 4 ∧ heldA.readByte (0 : Half).toNat = .ok 0xAA ∧
    heldA.readByte ((0 : Half).toNat + 1) = .ok 0x44 ∧
    heldA.readByte ((0 : Half).toNat + 2) = .ok 0x12 ∧
    heldA.readByte ((0 : Half).toNat + 3) = .ok 0x1C ∧
    LoadAllowed { heldA with cur := 32 } .raw (32 : Half).toNat 4 ∧
    heldA.readByte ((32 : Half).toNat + 3) = .ok 0xE4 :=
  ⟨⟨rfl, rfl, trivial, by decide⟩, by decide, by decide, by decide, by decide,
    ⟨rfl, rfl, trivial, by decide⟩, by decide⟩

theorem witness_BitFieldsOfAcc :
    FieldWidth 1 ∧ (31 : BitVec 5).toNat + 1 ≤ 32 ∧ FieldWidth 32 ∧
    (0 : BitVec 5).toNat + 32 ≤ 32 ∧ 32 < (31 : BitVec 5).toNat + 2 ∧
    32 < (1 : BitVec 5).toNat + 32 ∧ (0x0020 : Half) &&& 0xE0E0 ≠ 0 ∧
    (0x8000 : Half) &&& 0xE0E0 ≠ 0 := by decide

theorem witness_FlagsOfAPosition : 7 < (8 : Half).toNat := by decide

/-- Two accumulators that agree in one position and in no other bit. -/
theorem witness_FlagPositionsDoNotLeak :
    ((0x0000C000 : Word).getLsbD (2 * (7 : BitVec 3).toNat) =
        (0xFFFFFFFF : Word).getLsbD (2 * (7 : BitVec 3).toNat) ∧
      (0x0000C000 : Word).getLsbD (2 * (7 : BitVec 3).toNat + 1) =
        (0xFFFFFFFF : Word).getLsbD (2 * (7 : BitVec 3).toNat + 1)) ∧
    (0x0000B1E4 : Word).extractLsb' 0 16 = (0xFFFFB1E4 : Word).extractLsb' 0 16 := by decide

/-- For `CommandsNeverWriteBuf` and `CommandsWriteOnlyTheirRegisters`: a command that completes. -/
theorem witness_CommandsNeverWriteBuf :
    exec .nop heldA = .next (heldA.respond .ok 0) := rfl

theorem witness_CommandsWriteOnlyTheirRegisters :
    exec (.setie 7) heldA = .next (({ heldA with ie := 7 } : State).respond .ok 0) ∧
    (Instr.setie 7).mnemonic ≠ "SETMODE" ∧
    (Instr.ldu8 .raw 0).mnemonic ∉ ["SEEK", "SEEKB"] ∧
    (∀ (n : Nat) (slot : Slot), ¬IsLoad (.ldu8 .raw 0) n slot .cursor) :=
  ⟨rfl, by decide, by decide, by rintro n slot ⟨⟩⟩

theorem witness_RefusedCommandDoesNothing :
    exec .start heldA = .next (heldA.respond .badState 0) ∧
    (heldA.respond .badState 0).rsp = some ⟨.badState, 0⟩ ∧ Status.badState ≠ .ok :=
  ⟨rfl, rfl, by decide⟩

/-- A step of each event that completes. -/
theorem witness_StreamStepsLeaveHostRegisters :
    streamStep .err hunting = .next hunting.takeFault ∧
    streamStep (.byte 0) hunting = .next (hunting.shiftIn 0) := ⟨rfl, rfl⟩

/-- A byte step without a lock, with a lock, in a storing state and in a state that takes none. -/
theorem witness_ByteStepStoresOneByte :
    byteStep hunting 0 = .next (hunting.shiftIn 0) ∧
    after (byteStep { hunting with shreg := 0x00AA44, shcnt := 2 } 0x12) State.st =
      some .header ∧
    after (byteStep trailerA 0xE4) State.st = some .done ∧
    byteStep heldA 0 = .next heldA := ⟨rfl, by decide, by decide, rfl⟩

/-- A window that matches after the byte `12`, and one that does not. -/
theorem witness_HuntStepShiftsAndLocks :
    hunting.st = .hunt ∧ 2 < hunting.cfg.bufSize ∧
    ((3 : BitVec 2).toNat = min ((2 : BitVec 2).toNat + 1) 3 ∧
      (0x00AA44 : BitVec 24).extractLsb' 0 16 ++ (0x12 : Byte) =
        hunting.cfg.gSync0 ++ hunting.cfg.gSync1 ++ hunting.cfg.gSync2) ∧
    ((3 : BitVec 2).toNat = min ((3 : BitVec 2).toNat + 1) 3 ∧
      (0xAA4413 : BitVec 24).extractLsb' 0 16 ++ (0x12 : Byte) ≠
        hunting.cfg.gSync0 ++ hunting.cfg.gSync1 ++ hunting.cfg.gSync2) := by decide

theorem witness_StoredBytesAreCovered :
    (bodyA.pos.toNat < bodyA.cfg.bufSize ∧ bodyA.pos.toNat < 65535 ∧ bodyA.st = .body ∧
      bodyA.mode = .gnss ∧ bodyA.pos.toNat + 1 = bodyA.cfg.gHdrLen + bodyA.hLen.toNat) ∧
    (({ trailerA with pos := 34 } : State).st = .trailer ∧
      ({ trailerA with pos := 34 } : State).pos.toNat + 1 ≠
        trailerA.cfg.gHdrLen + trailerA.hLen.toNat + 4) ∧
    (({ hunting with st := .header, pos := 26 } : State).mode = .gnss ∧
      ({ hunting with st := .header, pos := 26 } : State).pos.toNat + 1 ≠
        hunting.cfg.gHdrLen) ∧
    (({ windowOf frameB 0 with pos := 236 } : State).st = .collect ∧
      ({ windowOf frameB 0 with pos := 236 } : State).mode = .attitude ∧
      ({ windowOf frameB 0 with pos := 236 } : State).pos.toNat + 1 ≠
        (windowOf frameB 0).cfg.aFrameLen) := by decide

/-- The shortest length field that drops the frame, the longest that does not, and 0. -/
theorem witness_HeaderCompletion :
    (headerOf 0xE1 0x0F).st = .header ∧ (headerOf 0xE1 0x0F).mode = .gnss ∧
    (headerOf 0xE1 0x0F).cfg.WF ∧
    (headerOf 0xE1 0x0F).pos.toNat + 1 = (headerOf 0xE1 0x0F).cfg.gHdrLen ∧
    (headerOf 0xE1 0x0F).readBytes 0 27 =
      .ok ([0xAA, 0x44, 0x12, 0x1C, 0x2A, 0, 0, 0x20, 0xE1, 0x0F] ++ List.replicate 17 0) ∧
    4064 < fieldAt ([0xAA, 0x44, 0x12, 0x1C, 0x2A, 0, 0, 0x20, 0xE1, 0x0F] ++
      List.replicate 17 0 ++ [0]) 8 2 ∧
    fieldAt ([0xAA, 0x44, 0x12, 0x1C, 0x2A, 0, 0, 0x20, 0xE0, 0x0F] ++
      List.replicate 17 0 ++ [0]) 8 2 = 4064 ∧
    fieldAt ([0xAA, 0x44, 0x12, 0x1C, 0x2A, 0, 0, 0x20, 0, 0] ++
      List.replicate 17 0 ++ [0]) 8 2 = 0 := by decide

/-- The last byte `E4` makes the trailer match, `64` does not. -/
theorem witness_TrailerCompletion :
    trailerA.st = .trailer ∧ trailerA.mode = .gnss ∧ trailerA.pos.toNat < trailerA.cfg.bufSize ∧
    trailerA.pos.toNat < 65535 ∧
    trailerA.pos.toNat + 1 = trailerA.cfg.gHdrLen + trailerA.hLen.toNat + 4 ∧
    trailerA.readBytes 0 trailerA.pos.toNat = .ok (frameA.take 35) ∧
    ((0xE45F8B98 : Word).toNat = fieldAt (frameA.take 35 ++ [0xE4]) 32 4 ∧
      (0xE45F8B98 : Word) = trailerA.ck ^^^ trailerA.cfg.crcXorOut) ∧
    ((0x645F8B98 : Word).toNat = fieldAt (frameA.take 35 ++ [0x64]) 32 4 ∧
      (0x645F8B98 : Word) ≠ trailerA.ck ^^^ trailerA.cfg.crcXorOut) := by decide

theorem witness_WindowCompletion :
    windowW.st = .collect ∧ windowW.mode = .attitude ∧ windowW.cfg.WF ∧
    windowW.pos.toNat + 1 = windowW.cfg.aFrameLen ∧
    windowW.readBytes 0 windowW.pos.toNat = .ok (frameW.take 9) ∧
    (0x017E : Word).toNat = fieldAt (frameW.take 9 ++ [0x01]) windowW.cfg.aCkOff 2 ∧
    (0x017E : Word).toNat = windowW.ck.toNat % 65536 ∧
    (0x03 : Byte).toNat = fieldAt (frameW.take 9 ++ [0x01]) windowW.cfg.aOffFtype 1 := by decide

theorem witness_ErrorStepFaults : hunting.inReady = true ∧ heldA.inReady = false := by decide

/-! The states of the witnesses satisfy the invariant. -/

theorem reset_fresh : State.reset.Fresh := ⟨by decide, rfl⟩

theorem heldA_inv : heldA.Inv where
  cfg_wf := by decide
  buf_wf := by decide
  buf_in_range := by decide
  gnss_states := by decide
  attitude_states := by decide
  pos_at_rest := fun h => absurd (by decide) h
  window_empty := by decide
  result_none := by decide
  fault_io := by decide
  attitude_ck := by decide
  unit_sum := by decide
  stored := fun _ => ⟨frameA, by decide, by decide, by decide +kernel, by
    unfold State.FrameSoFar
    show _ ∧ State.HeldGnss _ _
    unfold State.HeldGnss State.HeaderOf GnssSynced
    decide +kernel⟩

theorem heldW_inv : heldW.Inv where
  cfg_wf := by decide
  buf_wf := by decide
  buf_in_range := by decide
  gnss_states := by decide
  attitude_states := by decide
  pos_at_rest := fun h => absurd (by decide) h
  window_empty := by decide
  result_none := by decide
  fault_io := by decide
  attitude_ck := by decide
  unit_sum := by decide
  stored := fun _ => ⟨frameW, by decide, by decide, by decide, by
    unfold State.FrameSoFar
    show _ ∧ State.HeldWindow _ _
    unfold State.HeldWindow
    decide⟩

theorem witness_UnitAgreesWithEngine :
    heldA.Inv ∧ heldA.st = .done ∧ heldW.Inv ∧ heldW.st = .done :=
  ⟨heldA_inv, rfl, heldW_inv, rfl⟩

theorem witness_ResetSatisfiesInv : State.reset.Fresh := reset_fresh

theorem witness_EveryStepKeepsInv :
    heldA.Inv ∧ step heldA = .next (heldA.awaiting []) := ⟨heldA_inv, rfl⟩

theorem witness_EveryStepAnswersNext : heldW.Inv := heldW_inv

theorem witness_ReachableStatesSatisfyInv : Reachable State.reset := .fresh reset_fresh

/-- The premises of the clauses about one state: held frames of both paths. -/
theorem witness_SoundStatesMeetR44 :
    (heldA.Inv ∧ heldA.st = .done ∧ heldA.mode = .gnss ∧ heldA.result = .ok) ∧
    (heldW.Inv ∧ heldW.st = .done ∧ heldW.mode = .attitude ∧ heldW.st ≠ .hunt) ∧
    ({ State.reset with xalg := .sum16, xacc := 0xFFFF } : State).xalg = .sum16 :=
  ⟨⟨heldA_inv, rfl, rfl, rfl⟩, ⟨heldW_inv, rfl, rfl, by decide⟩, rfl⟩

/-- The premises of the clauses about a step: one that stays in attitude mode. -/
theorem witness_SoundStatesMeetR44_step :
    heldW.Inv ∧ step heldW = .next (heldW.awaiting []) ∧ heldW.mode = .attitude ∧
    heldW.ck.extractLsb' 16 16 = 0 := ⟨heldW_inv, rfl, rfl, by decide⟩

theorem witness_AttitudeModeAlwaysShortCk :
    ∃ s, Reachable s ∧ s.mode = .attitude :=
  ⟨_, .step (.fresh (s := facing State.reset (commandCycle 0x04000001)) ⟨by decide, rfl⟩) rfl, rfl⟩

theorem witness_HeldGnssFrameIsValid : heldA.Inv ∧ heldA.st = .done ∧ heldA.mode = .gnss :=
  ⟨heldA_inv, rfl, rfl⟩

/-- That window with its last byte changed, held (R117). -/
def heldBad : State :=
  { heldW with
    result := .eCksum, rxck := 0x817E, cntOk := 0, cntCkerr := 1,
    buf := cellsFrom 0 (frameW.set 9 0x81) }

theorem heldBad_inv : heldBad.Inv where
  cfg_wf := by decide
  buf_wf := by decide
  buf_in_range := by decide
  gnss_states := by decide
  attitude_states := by decide
  pos_at_rest := fun h => absurd (by decide) h
  window_empty := by decide
  result_none := by decide
  fault_io := by decide
  attitude_ck := by decide
  unit_sum := by decide
  stored := fun _ => ⟨frameW.set 9 0x81, by decide, by decide, by decide, by
    unfold State.FrameSoFar
    show _ ∧ State.HeldWindow _ _
    unfold State.HeldWindow
    decide⟩

/-- A held window that is accepted, and the same with its last byte changed. -/
theorem witness_WindowAcceptance :
    (heldW.Inv ∧ heldW.st = .done ∧ heldW.mode = .attitude ∧ heldW.result = .ok) ∧
    (heldBad.Inv ∧ heldBad.cfg = heldW.cfg ∧ heldBad.st = .done ∧ heldBad.mode = .attitude) ∧
    (heldW.readBytes 0 heldW.cfg.aFrameLen = .ok frameW ∧
      heldBad.readBytes 0 heldW.cfg.aFrameLen = .ok (frameW.set 9 0x81) ∧
      9 < frameW.length ∧ frameW[9]? ≠ some 0x81) :=
  ⟨⟨heldW_inv, rfl, rfl, rfl⟩, ⟨heldBad_inv, rfl, rfl, rfl⟩, by decide⟩

theorem frameA_is_gnss_frame : GnssFrame Params.default frameA := by
  unfold GnssFrame GnssSynced
  decide +kernel

/-- One byte of noise, then frame A, then more inputs. -/
theorem witness_GnssFrameIsHeld :
    ∃ s : State, s.Inv ∧ s.st = .hunt ∧ s.shcnt = 0 ∧ GnssFrame s.cfg frameA ∧
      (∀ k : Nat, (([0x00] ++ frameA).drop k).take 3 =
        [s.cfg.gSync0, s.cfg.gSync1, s.cfg.gSync2] → ([0x00] : List Byte).length ≤ k) ∧
      s.cycles = ([0x00] ++ frameA).map byteCycle ++ [commandCycle 0] := by
  refine ⟨{ hunting with cycles := ([0x00] ++ frameA).map byteCycle ++ [commandCycle 0] },
    ⟨by decide, by decide, by decide, by decide, by decide, fun _ => rfl, by decide, by decide,
      by decide, by decide, by decide, fun h => absurd h (by decide)⟩, rfl, rfl, frameA_is_gnss_frame, ?_, rfl⟩
  intro k hk
  cases k with
  | zero => exact absurd hk (by decide)
  | succ k => simp

/-- Two scanning states whose buffers hold different stale bytes. -/
theorem witness_StaleBytesAreUnobservable :
    hunting.Inv ∧ ({ hunting with buf := [(5, 0x55)] } : State).Inv ∧
    ∀ a < hunting.pos.toNat, Memory.read [(5, 0x55)] a = hunting.buf.read a :=
  ⟨hunting_inv,
    ⟨by decide, by decide, by decide, by decide, by decide, fun _ => rfl, by decide, by decide,
      by decide, by decide, by decide, fun h => absurd h (by decide)⟩, by decide⟩

end Sys2Proof.Tests
end

