-- ==== Sys2Proof/Proofs/Scope.lean ====
section
/-! The statements of 00_scope.md: a block without an event does not move (R7), and a block whose
configuration is not well formed is refused (R6). The lemmas say which step a waiting cycle gives. -/

namespace Sys2Proof.Machine

/-- With no input waiting the block only withdraws its last response. -/
theorem step_of_no_cycles {s : State} (hw : s.cfg.WF) (hc : s.cycles = []) :
    step s = .next (s.awaiting []) := by
  rw [step_of_wf hw, portStep, hc]

/-- With an input waiting the step is that of the first waiting cycle. -/
theorem step_of_cycles_cons {s : State} {c : Cycle} {cs : List Cycle} (hw : s.cfg.WF)
    (hc : s.cycles = c :: cs) : step s = cycleStep c cs s := by
  rw [step_of_wf hw, portStep, hc]

/-- A cycle that offers neither a byte nor an error has no stream event (10_state.md R41). -/
theorem streamEvent_of_not_offered {c : Cycle} (hv : c.inValid = false) (he : c.inErr = false)
    (ready : Bool) : c.streamEvent ready = none := by
  simp [Cycle.streamEvent, hv, he]

/-- A cycle that offers no command word has no command (10_state.md R42). -/
theorem command_of_not_cmdValid {c : Cycle} (h : c.cmdValid = false) : c.command = none := by
  simp [Cycle.command, h]

/-- A cycle without reset, stream event and command leaves only the waiting inputs and withdraws the
last response (70_reset_and_hazards.md R262). -/
theorem cycleStep_of_no_event {c : Cycle} {s : State} (cs : List Cycle) (hr : c.rst = false)
    (hs : c.streamEvent (s.readyDuring c) = none) (hc : c.command = none) :
    cycleStep c cs s = .next (s.awaiting cs) := by
  simp [cycleStep, hr, hs, hc]

end Sys2Proof.Machine

open Sys2Proof.Machine

/-- Settles O9: without an event the next state is `awaiting`, which writes only the waiting inputs
and the response. -/
theorem noEventChangesNothing : Obligations.NoEventChangesNothing := by
  unfold Obligations.NoEventChangesNothing
  constructor
  · intro s hw hc
    have hkeep : s.awaiting [] = { s with rsp := none } := by rw [State.awaiting, ← hc]
    rw [step_of_no_cycles hw hc, hkeep]
  · intro s c cs hw hc hr hv he hcmd
    have hstream := streamEvent_of_not_offered hv he (s.readyDuring c)
    calc step s = cycleStep c cs s := step_of_cycles_cons hw hc
      _ = .next (s.awaiting cs) :=
          cycleStep_of_no_event cs hr hstream (command_of_not_cmdValid hcmd)

/-- Settles O12: the step checks the configuration before anything else. -/
theorem illFormedConfigIsRefused : Obligations.IllFormedConfigIsRefused :=
  fun _ h => step_of_not_wf h

end

