-- ==== Sys2Proof/Proofs/State.lean ====
section
/-! The statements of 10_state.md: the ports and the `STATUS` word (R36 to R42), what commands and
stream steps may write (R10), and the invariant of the reachable states (R44). Two relations,
`CommandEffect` and `ByteEffect`, say once what a command and a byte can do to the registers; every
statement about steps is a case split on one of them. -/

namespace Sys2Proof.Machine

/-! ### The `STATUS` word, field by field (10_state.md R36) -/

/-- The fields of more than one bit, and the bits that read 0. -/
theorem statusWord_fields (s : State) :
    s.statusWord.extractLsb' 0 3 = s.st.code ∧
    s.statusWord.extractLsb' 3 1 = pathCode s.mode ∧
    s.statusWord.extractLsb' 4 4 = s.result.code ∧
    s.statusWord.extractLsb' 13 19 = 0 := by
  refine ⟨?_, ?_, ?_, ?_⟩ <;> refine BitVec.eq_of_getLsbD_eq fun i hi => ?_ <;>
    simp only [State.statusWord, BitVec.getLsbD_extractLsb', BitVec.getLsbD_append] <;> grind

/-- The five single bits of the `STATUS` word, from bit 8 up. -/
theorem statusWord_bits (s : State) :
    s.statusWord.getLsbD 8 = s.hRsp ∧ s.statusWord.getLsbD 9 = s.hasImu ∧
    s.statusWord.getLsbD 10 = s.hasIrehs ∧ s.statusWord.getLsbD 11 = s.irq ∧
    s.statusWord.getLsbD 12 = s.inReady := by
  simp only [State.statusWord, BitVec.getLsbD_append]
  simp

/-! ### The ports (10_state.md R41) -/

theorem inReady_iff (s : State) :
    s.inReady = true ↔ s.st = .hunt ∨ s.st = .header ∨ s.st = .body ∨ s.st = .trailer ∨
      s.st = .collect := by
  unfold State.inReady
  cases s.st <;> simp [EngineState.receiving]

/-- While `in_ready` is 0 nothing of the stream port is taken. -/
theorem streamEvent_not_ready (c : Cycle) : c.streamEvent false = none := rfl

/-! ### What a command can write (10_state.md R10) -/

/-- What the command `i` can make of the registers of `s` before it responds: nothing, where it is
refused or only reads, or the writes of its rule. -/
inductive CommandEffect (s : State) : Instr → State → Prop where
  | nothing (i : Instr) : CommandEffect s i s
  | setmode (m : DevicePath) : s.st = .idle → CommandEffect s (.setmode m) { s with mode := m }
  | start : s.st = .idle → CommandEffect s .start s.newFrame
  | stop : s.st ≠ .fault → CommandEffect s .stop s.goIdle
  | ack : s.st = .done → CommandEffect s .ack s.newFrame
  | flush : s.st.receiving = true → CommandEffect s .flush s.restart
  | clrerr : s.st = .fault → CommandEffect s .clrerr s.leaveFault
  | clrcnt : CommandEffect s .clrcnt s.clearCounters
  | setie (e : BitVec 3) : CommandEffect s (.setie e) { s with ie := e }
  | ckinit (a : Alg) :
      CommandEffect s (.ckinit a) { s with xalg := a, xacc := accInit s.cfg a }
  | ckbyte (b : Byte) :
      CommandEffect s (.ckbyte b) { s with xacc := accUpd s.cfg s.xalg s.xacc b }
  | seek (off : Half) : CommandEffect s (.seek off) { s with cur := off }
  | seekb (off : Half) : CommandEffect s (.seekb off) { s with cur := s.bodyOff + off }
  | load {i : Instr} {n : Nat} {slot : Slot} {am : AddrMode} (v : Word) :
      IsLoad i n slot am → CommandEffect s i (s.loaded v (s.cursorAfter n am))

/-- The state `t` is the effect of the command `i` on `s`, with a response presented. -/
def Responds (s : State) (i : Instr) (t : State) : Prop :=
  ∃ u r d, CommandEffect s i u ∧ t = u.respond r d

theorem responds_of_effect {s u : State} {i : Instr} (h : CommandEffect s i u) (r : Status)
    (d : Word) : Responds s i (u.respond r d) := ⟨u, r, d, h, rfl⟩

theorem responds_nothing (s : State) (i : Instr) (r : Status) (d : Word) :
    Responds s i (s.respond r d) := responds_of_effect (.nothing i) r d

theorem responds_of_whenLegal {s s' t : State} {i : Instr} {legal : Bool}
    (h : whenLegal legal s s' = .next t) (he : legal = true → CommandEffect s i s') :
    Responds s i t := by
  rcases whenLegal_eq_next.1 h with ⟨hl, rfl⟩ | ⟨-, rfl⟩
  · exact responds_of_effect (he hl) _ _
  · exact responds_nothing ..

theorem responds_of_load {s t : State} {i : Instr} {n : Nat} {sg : Bool} {slot : Slot}
    {am : AddrMode} (hi : IsLoad i n slot am) (h : load n sg slot am s = .next t) :
    Responds s i t := by
  rcases load_eq_next.1 h with ⟨-, rfl⟩ | ⟨-, v, -, rfl⟩
  · exact responds_nothing ..
  · exact responds_of_effect (.load _ hi) _ _

theorem responds_of_fieldAnswer {s t : State} {i : Instr} {lsb : BitVec 5} {w : Nat} {v : Word}
    (h : fieldAnswer lsb w v s = .next t) : Responds s i t := by
  rcases fieldAnswer_eq_next.1 h with ⟨-, rfl⟩ | ⟨-, rfl⟩ <;> exact responds_nothing ..

/-- A command that answers a next state has one of the effects of its rule, and responds. -/
theorem exec_responds {i : Instr} {s t : State} (h : exec i s = .next t) : Responds s i t := by
  cases i with
  | nop => cases h; exact responds_nothing ..
  | setmode m => exact responds_of_whenLegal h fun hl => .setmode m (of_decide_eq_true hl)
  | start => exact responds_of_whenLegal h fun hl => .start (of_decide_eq_true hl)
  | stop => exact responds_of_whenLegal h fun hl => .stop (by simpa using hl)
  | ack => exact responds_of_whenLegal h fun hl => .ack (of_decide_eq_true hl)
  | flush => exact responds_of_whenLegal h .flush
  | clrerr => exact responds_of_whenLegal h fun hl => .clrerr (of_decide_eq_true hl)
  | clrcnt => cases h; exact responds_of_effect .clrcnt _ _
  | setie e => cases h; exact responds_of_effect (.setie e) _ _
  | rdreg r =>
    rcases execRdreg_eq_next.1 h with ⟨-, rfl⟩ | ⟨v, -, rfl⟩ <;> exact responds_nothing ..
  | ckinit a => cases h; exact responds_of_effect (.ckinit a) _ _
  | ckbyte b => cases h; exact responds_of_effect (.ckbyte b) _ _
  | ckread => cases h; exact responds_nothing ..
  | seek off => cases h; exact responds_of_effect (.seek off) _ _
  | seekb off => cases h; exact responds_of_effect (.seekb off) _ _
  | ldu8 slot off => exact responds_of_load (.ldu8 slot off) h
  | ldu8Cur slot => exact responds_of_load (.ldu8Cur slot) h
  | lds8 slot off => exact responds_of_load (.lds8 slot off) h
  | lds8Cur slot => exact responds_of_load (.lds8Cur slot) h
  | ldu16 slot off => exact responds_of_load (.ldu16 slot off) h
  | ldu16Cur slot => exact responds_of_load (.ldu16Cur slot) h
  | lds16 slot off => exact responds_of_load (.lds16 slot off) h
  | lds16Cur slot => exact responds_of_load (.lds16Cur slot) h
  | ld32 slot off => exact responds_of_load (.ld32 slot off) h
  | ld32Cur slot => exact responds_of_load (.ld32Cur slot) h
  | bits lsb w => exact responds_of_fieldAnswer h
  | sbits lsb w => exact responds_of_fieldAnswer h
  | flags p => cases h; exact responds_nothing ..

/-- A command word that answers a next state responds, the illegal word with no effect. -/
theorem commandStep_responds {w : Word} {s t : State} (h : commandStep w s = .next t) :
    ∃ i, Responds s i t := by
  rcases commandStep_eq_next.1 h with ⟨-, rfl⟩ | ⟨i, -, hi⟩
  · exact ⟨.nop, responds_nothing ..⟩
  · exact ⟨i, exec_responds hi⟩

theorem isLoad_mnemonic {i : Instr} {n : Nat} {slot : Slot} {am : AddrMode}
    (h : IsLoad i n slot am) : i.mnemonic ∈ ["LDU8", "LDS8", "LDU16", "LDS16", "LD32"] := by
  cases h <;> simp [Instr.mnemonic]

/-! ### What a stream step can write -/

/-- The state with the byte `b` stored at `POS` (20_memory.md R52). -/
def State.store (s : State) (b : Byte) : State := { s with buf := s.buf.write s.pos.toNat b }

/-- Every stream step that stores its byte does so by `store`. -/
theorem memWrite_pos {s t : State} {b : Byte} :
    s.memWrite s.pos.toNat b = .ok t ↔ s.pos.toNat < s.cfg.bufSize ∧ t = s.store b :=
  State.memWrite_eq_ok

/-- The buffer with the sync marker at addresses 0 to 2 (40_frame_engine.md R104). -/
def State.withSync (s : State) : State :=
  { s with buf := ((s.buf.write 0 s.cfg.gSync0).write 1 s.cfg.gSync1).write 2 s.cfg.gSync2 }

/-- What the byte `b` can make of the state `s`, one case per stream step and per way it ends. -/
inductive ByteEffect (s : State) (b : Byte) : State → Prop where
  | untaken : s.inReady = false → ByteEffect s b s
  | shift : s.st = .hunt → ByteEffect s b (s.shiftIn b)
  | lock : s.st = .hunt → 2 < s.cfg.bufSize → ByteEffect s b (s.shiftIn b).withSync.lockRegs
  | header : s.st = .header → s.pos.toNat < s.cfg.bufSize →
      (s.pos + 1).toNat ≠ s.cfg.gHdrLen → ByteEffect s b ((s.store b).cover b)
  | headerEnd {id len : Nat} {type : Byte} : s.st = .header → s.pos.toNat < s.cfg.bufSize →
      (s.pos + 1).toNat = s.cfg.gHdrLen →
      ((s.store b).cover b).memRead s.cfg.gOffId s.cfg.gWId = .ok id →
      ((s.store b).cover b).readByte s.cfg.gOffType = .ok type →
      ((s.store b).cover b).memRead s.cfg.gOffLen s.cfg.gWLen = .ok len →
      ByteEffect s b (((s.store b).cover b).latchHeader id type len).afterHeader
  | body : s.st = .body → s.pos.toNat < s.cfg.bufSize →
      ByteEffect s b ((s.store b).cover b).afterBodyByte
  | trailer : s.st = .trailer → s.pos.toNat < s.cfg.bufSize →
      (s.pos + 1).toNat ≠ s.cfg.gHdrLen + s.hLen.toNat + 4 → ByteEffect s b (s.store b).pass
  | trailerEnd {rx : Nat} : s.st = .trailer → s.pos.toNat < s.cfg.bufSize →
      (s.pos + 1).toNat = s.cfg.gHdrLen + s.hLen.toNat + 4 →
      (s.store b).pass.memRead ((s.pos + 1).toNat - 4) 4 = .ok rx →
      ByteEffect s b ((s.store b).pass.latchFrame (BitVec.ofNat 32 rx)
        (s.ck ^^^ s.cfg.crcXorOut) (s.pos + 1)).gnssVerdict
  | window : s.st = .collect → s.pos.toNat < s.cfg.bufSize →
      ((s.store b).coverWindow b).pos.toNat ≠ s.cfg.aFrameLen →
      ByteEffect s b ((s.store b).coverWindow b)
  | windowEnd {t : State} : s.st = .collect → s.pos.toNat < s.cfg.bufSize →
      ((s.store b).coverWindow b).pos.toNat = s.cfg.aFrameLen →
      windowComplete ((s.store b).coverWindow b) = .next t → ByteEffect s b t

/-- A byte step that answers a next state has one of these effects. -/
theorem byteStep_effect {s t : State} {b : Byte} (h : byteStep s b = .next t) :
    ByteEffect s b t := by
  cases hst : s.st with
  | idle | done | fault =>
    have hr : s.inReady = false := by simp [State.inReady, hst, EngineState.receiving]
    rw [byteStep_of_not_ready hr] at h
    cases h
    exact .untaken hr
  | hunt =>
    simp only [byteStep, hst] at h
    rcases huntStep_eq_next.1 h with ⟨-, hl⟩ | ⟨-, rfl⟩
    · obtain ⟨hb, rfl⟩ := lockStep_eq_next.1 hl
      exact .lock hst hb
    · exact .shift hst
  | header =>
    simp only [byteStep, hst] at h
    obtain ⟨s1, hw, hend⟩ := headerStep_eq_next.1 h
    obtain ⟨hb, rfl⟩ := memWrite_pos.1 hw
    rcases hend with ⟨hp, hc⟩ | ⟨hp, rfl⟩
    · obtain ⟨id, type, len, h1, h2, h3, rfl⟩ := headerComplete_eq_next.1 hc
      exact .headerEnd hst hb hp h1 h2 h3
    · exact .header hst hb hp
  | body =>
    simp only [byteStep, hst] at h
    obtain ⟨s1, hw, rfl⟩ := bodyStep_eq_next.1 h
    obtain ⟨hb, rfl⟩ := memWrite_pos.1 hw
    exact .body hst hb
  | trailer =>
    simp only [byteStep, hst] at h
    obtain ⟨s1, hw, hend⟩ := trailerStep_eq_next.1 h
    obtain ⟨hb, rfl⟩ := memWrite_pos.1 hw
    rcases hend with ⟨hp, hc⟩ | ⟨hp, rfl⟩
    · obtain ⟨rx, hrx, rfl⟩ := trailerComplete_eq_next.1 hc
      exact .trailerEnd hst hb hp hrx
    · exact .trailer hst hb hp
  | collect =>
    simp only [byteStep, hst] at h
    obtain ⟨s1, hw, hend⟩ := collectStep_eq_next.1 h
    obtain ⟨hb, rfl⟩ := memWrite_pos.1 hw
    rcases hend with ⟨hp, hc⟩ | ⟨hp, rfl⟩
    · exact .windowEnd hst hb hp hc
    · exact .window hst hb hp

/-! ### The host's registers under the stream steps -/

/-- The registers that only the host's commands write, and the model's own fields, are the same in
`t` as in `s`. -/
def State.SameHost (s t : State) : Prop :=
  t.cfg = s.cfg ∧ t.mode = s.mode ∧ t.ie = s.ie ∧ t.acc = s.acc ∧ t.xalg = s.xalg ∧
    t.xacc = s.xacc ∧ t.rsp = s.rsp ∧ t.cycles = s.cycles

theorem State.SameHost.refl (s : State) : s.SameHost s := ⟨rfl, rfl, rfl, rfl, rfl, rfl, rfl, rfl⟩

theorem afterHeader_sameHost (s : State) : s.SameHost s.afterHeader := by
  rcases afterHeader_cases s with ⟨-, h⟩ | ⟨-, -, h⟩ | ⟨-, -, h⟩ <;> rw [h] <;> exact .refl s

theorem afterBodyByte_sameHost (s : State) : s.SameHost s.afterBodyByte := by
  unfold State.afterBodyByte
  split <;> exact .refl s

theorem gnssVerdict_sameHost (s : State) : s.SameHost s.gnssVerdict := by
  rcases gnssVerdict_cases s with ⟨-, h⟩ | ⟨-, h⟩ <;> rw [h] <;> exact .refl s

theorem coverWindow_sameHost (s : State) (b : Byte) : s.SameHost (s.coverWindow b) := by
  unfold State.coverWindow
  split <;> exact .refl s

theorem windowVerdict_sameHost (s : State) (b0 b1 : Byte) :
    s.SameHost (s.windowVerdict b0 b1) := by
  rcases windowVerdict_cases s b0 b1 with ⟨-, h⟩ | ⟨-, -, -, h⟩ | ⟨-, -, -, h⟩ <;> rw [h] <;>
    exact .refl s

theorem State.SameHost.trans {s t u : State} (h : s.SameHost t) (h' : t.SameHost u) :
    s.SameHost u := by
  unfold State.SameHost at *
  simp [h, h']

theorem windowComplete_sameHost {s t : State} (h : windowComplete s = .next t) :
    s.SameHost t := by
  obtain ⟨rx, f, b0, b1, -, -, -, -, rfl⟩ := windowComplete_eq_next.1 h
  exact windowVerdict_sameHost ..

theorem byteEffect_sameHost {s t : State} {b : Byte} (h : ByteEffect s b t) : s.SameHost t := by
  cases h with
  | untaken | shift | lock | header | trailer => exact .refl s
  | headerEnd => exact afterHeader_sameHost _
  | body => exact afterBodyByte_sameHost _
  | trailerEnd => exact gnssVerdict_sameHost _
  | window => exact coverWindow_sameHost ..
  | windowEnd _ _ _ hc =>
    have hcov : s.SameHost ((s.store b).coverWindow b) := coverWindow_sameHost (s.store b) b
    exact hcov.trans (windowComplete_sameHost hc)

theorem streamStep_sameHost {e : StreamEvent} {s t : State} (h : streamStep e s = .next t) :
    s.SameHost t := by
  cases e with
  | byte b => exact byteEffect_sameHost (byteStep_effect h)
  | err => rcases errStep_eq_next.1 h with ⟨-, rfl⟩ | ⟨-, rfl⟩ <;> exact .refl _

end Sys2Proof.Machine

open Sys2Proof Sys2Proof.Machine

/-- Settles O7: each clause reads off the cases of `streamEvent`. -/
theorem streamEventsNeedReady : Obligations.StreamEventsNeedReady := by
  refine ⟨inReady_iff, fun s c b => ?_, fun s c => ?_, fun s c cs hw hc hrst hready hcmd => ?_⟩
  · rw [streamEvent_eq_some]
    constructor
    · rintro ⟨hr, ⟨-, he⟩ | ⟨he, hv, hb⟩⟩
      · cases he
      · cases hb; exact ⟨hr, hv, he, rfl⟩
    · rintro ⟨hr, hv, he, rfl⟩
      exact ⟨hr, .inr ⟨he, hv, rfl⟩⟩
  · rw [streamEvent_eq_some]
    simp
  · have hnone : c.streamEvent (s.readyDuring c) = none := by
      simp [State.readyDuring, hready, streamEvent_not_ready]
    rw [step_of_cycles_cons hw hc]
    exact cycleStep_of_no_event cs hrst hnone (command_of_not_cmdValid hcmd)

/-- Settles O23: each field of the word is its register's code, and each code is listed. -/
theorem statusWordFields : Obligations.StatusWordFields := by
  refine ⟨fun s => ?_, fun s => ⟨rfl, rfl, rfl, rfl, ?_, ?_⟩⟩
  · obtain ⟨hst, hmode, hresult, hreserved⟩ := statusWord_fields s
    obtain ⟨h8, h9, h10, h11, h12⟩ := statusWord_bits s
    rw [hst, hmode, hresult]
    refine ⟨?_, ?_, ?_, h8, h9, h10, h11, h12, hreserved⟩
    · cases s.st <;> decide
    · cases s.mode <;> decide
    · cases s.result <;> decide
  · intro h
    simp [State.outputs, h]
  · intro r h
    refine ⟨by simp [State.outputs, h], ?_⟩
    simp only [State.outputs, h]
    cases r.status <;> decide

/-- Settles O43: a split on the effects of a byte. -/
theorem streamStepsLeaveHostRegisters : Obligations.StreamStepsLeaveHostRegisters :=
  fun _ _ _ h => streamStep_sameHost h

/-- Settles O42: a split on the effects of a command, each of which writes only what its own
mnemonic is exempt from. -/
theorem commandsWriteOnlyTheirRegisters : Obligations.CommandsWriteOnlyTheirRegisters := by
  intro i s t h
  obtain ⟨u, r, d, he, rfl⟩ := exec_responds h
  cases he with
  | @load _ n slot am v hl =>
    have hmem := isLoad_mnemonic hl
    have hcur : (∀ n slot, ¬IsLoad i n slot .cursor) → s.cursorAfter n am = s.cur := by
      intro hno
      cases am with
      | absolute off => rfl
      | cursor => exact absurd hl (hno n slot)
    simp +contextual [hmem, hcur]
  | _ => simp [Instr.mnemonic]

end

