-- ==== Sys2Proof/Proofs/StateInv.lean ====
section
/-! The invariant of the reachable states (10_state.md R44): it holds at reset and every step keeps
it. `State.Holds` is the part of it about the stored bytes; each stream step extends those bytes or
drops them. -/

namespace Sys2Proof.Machine

/-! ### The bytes of a frame -/

theorem fieldAt_lt (bs : List Byte) (a n : Nat) : fieldAt bs a n < 256 ^ n :=
  (leValue_lt _).trans_le (Nat.pow_le_pow_right (by decide) (List.length_take_le ..))

/-- A field of up to four bytes fits a 32-bit register. -/
theorem ofNat_fieldAt_toNat (bs : List Byte) (a : Nat) {n : Nat} (hn : n ≤ 4) :
    (BitVec.ofNat 32 (fieldAt bs a n)).toNat = fieldAt bs a n := by
  rw [BitVec.toNat_ofNat, Nat.mod_eq_of_lt]
  exact (fieldAt_lt bs a n).trans_le (Nat.pow_le_pow_right (by decide) hn)

/-- A field that lies inside the bytes so far is the same field when more bytes follow. -/
theorem fieldAt_append {bs : List Byte} {a n : Nat} (h : a + n ≤ bs.length) (l : List Byte) :
    fieldAt (bs ++ l) a n = fieldAt bs a n := by
  unfold fieldAt
  rw [List.drop_append_of_le_length (by omega), List.take_append_of_le_length (by simp; omega)]

theorem gnssSynced_append {p : Params} {bs : List Byte} (h : GnssSynced p bs)
    (hl : 3 ≤ bs.length) (l : List Byte) : GnssSynced p (bs ++ l) := by
  unfold GnssSynced at *
  rw [List.take_append_of_le_length hl, h]

/-- A complete header is the same header when more bytes follow. -/
theorem headerOf_append {s : State} {bs : List Byte} (hw : s.cfg.WF) (h : s.HeaderOf bs)
    (hl : s.cfg.gHdrLen ≤ bs.length) (l : List Byte) : s.HeaderOf (bs ++ l) := by
  obtain ⟨-, ⟨-, -, -, -, -, -, hid, htype, hlen⟩, -⟩ := hw
  obtain ⟨h1, h2, h3, h4, h5⟩ := h
  refine ⟨?_, ?_, h3, ?_, h5⟩
  · rw [fieldAt_append (by omega), h1]
  · rw [List.getElem?_append_left (by omega), h2]
  · rw [fieldAt_append (by omega), h4]

/-! ### The shape of the stored bytes in each state -/

section
variable {s : State} {bs : List Byte}

theorem frameSoFar_header (h : s.st = .header) :
    s.FrameSoFar bs ↔ 3 ≤ bs.length ∧ bs.length < s.cfg.gHdrLen ∧ GnssSynced s.cfg bs := by
  simp [State.FrameSoFar, h]

theorem frameSoFar_body (h : s.st = .body) :
    s.FrameSoFar bs ↔ s.cfg.gHdrLen ≤ bs.length ∧
      bs.length < s.cfg.gHdrLen + s.hLen.toNat ∧ GnssSynced s.cfg bs ∧ s.HeaderOf bs := by
  simp [State.FrameSoFar, h]

theorem frameSoFar_trailer (h : s.st = .trailer) :
    s.FrameSoFar bs ↔ s.cfg.gHdrLen + s.hLen.toNat ≤ bs.length ∧
      bs.length < s.cfg.gHdrLen + s.hLen.toNat + 4 ∧ GnssSynced s.cfg bs ∧ s.HeaderOf bs := by
  simp [State.FrameSoFar, h]

theorem frameSoFar_collect (h : s.st = .collect) :
    s.FrameSoFar bs ↔ bs.length < s.cfg.aFrameLen := by
  simp [State.FrameSoFar, h]

theorem frameSoFar_done_gnss (h : s.st = .done) (hm : s.mode = .gnss) :
    s.FrameSoFar bs ↔ s.flen = s.pos ∧ s.HeldGnss bs := by
  simp [State.FrameSoFar, h, hm]

theorem frameSoFar_done_attitude (h : s.st = .done) (hm : s.mode = .attitude) :
    s.FrameSoFar bs ↔ s.flen = s.pos ∧ s.HeldWindow bs := by
  simp [State.FrameSoFar, h, hm]

end

/-! ### The stored bytes and their accumulator -/

/-- Where the covered bytes of a frame end (41_integrity.md R146). -/
def State.coverEnd (s : State) : Nat :=
  match s.mode with
  | .gnss => s.cfg.gHdrLen + s.hLen.toNat
  | .attitude => s.cfg.aCkOff

theorem coverEnd_gnss {s : State} (h : s.mode = .gnss) :
    s.coverEnd = s.cfg.gHdrLen + s.hLen.toNat := by
  simp [State.coverEnd, h]

theorem coverEnd_attitude {s : State} (h : s.mode = .attitude) : s.coverEnd = s.cfg.aCkOff := by
  simp [State.coverEnd, h]

theorem coveredLen_eq (s : State) : s.coveredLen = min s.pos.toNat s.coverEnd := by
  unfold State.coveredLen State.coverEnd
  cases s.mode <;> rfl

/-- The bytes below `POS` are `bs`, and `CK` is the accumulator over the covered ones: the part of
the invariant's last clause that is the same in every state that stores bytes. -/
structure State.Holds (s : State) (bs : List Byte) : Prop where
  length : bs.length = s.pos.toNat
  reads : s.readBytes 0 s.pos.toNat = .ok bs
  acc : s.ck = accOver s.cfg (algOfPath s.mode) (bs.take s.coverEnd)

theorem take_coveredLen {s : State} {bs : List Byte} (h : bs.length = s.pos.toNat) :
    bs.take s.coveredLen = bs.take s.coverEnd := by
  rw [coveredLen_eq, ← h, Nat.min_comm, ← List.take_eq_take_min]

/-- The last clause of the invariant through `Holds`. -/
theorem stored_iff {s : State} :
    (∃ bs : List Byte, bs.length = s.pos.toNat ∧ s.readBytes 0 s.pos.toNat = .ok bs ∧
      s.ck = accOver s.cfg (algOfPath s.mode) (bs.take s.coveredLen) ∧ s.FrameSoFar bs) ↔
    ∃ bs, s.Holds bs ∧ s.FrameSoFar bs := by
  constructor
  · rintro ⟨bs, hl, hr, hck, hf⟩
    exact ⟨bs, ⟨hl, hr, by rw [hck, take_coveredLen hl]⟩, hf⟩
  · rintro ⟨bs, ⟨hl, hr, hck⟩, hf⟩
    exact ⟨bs, hl, hr, by rw [hck, take_coveredLen hl], hf⟩

section
variable {s t : State} {bs : List Byte}

/-- `Holds` looks only at `POS`, `BUF`, `CK`, the mode and where the covered bytes end. -/
theorem State.Holds.congr (h : s.Holds bs) (hcfg : t.cfg = s.cfg) (hmode : t.mode = s.mode)
    (hpos : t.pos = s.pos) (hck : t.ck = s.ck) (hbuf : t.buf = s.buf)
    (hcov : bs.take t.coverEnd = bs.take s.coverEnd) : t.Holds bs where
  length := by rw [hpos, h.length]
  reads := by
    have hsame : ∀ n, t.readBytes 0 n = s.readBytes 0 n := fun _ =>
      State.readBytes_congr (by rw [hcfg]) fun _ _ => by rw [hbuf]
    rw [hsame, hpos, h.reads]
  acc := by rw [hck, hcfg, hmode, hcov, h.acc]

theorem State.Holds.memRead {a n v : Nat} (h : s.Holds bs) (hr : s.memRead a n = .ok v)
    (hle : a + n ≤ bs.length) : v = fieldAt bs a n := by
  rw [State.memRead_of_readBytes h.reads hle] at hr
  exact (Except.ok.inj hr).symm

theorem State.Holds.readByte {a : Nat} {b : Byte} (h : s.Holds bs) (hr : s.readByte a = .ok b)
    (ha : a < bs.length) : bs[a]? = some b := by
  rw [State.readByte_of_readBytes h.reads ha] at hr
  rw [List.getElem?_eq_getElem ha, Except.ok.inj hr]

/-- SUM16 never reaches `CK[31:16]` (10_state.md R17). -/
theorem State.Holds.attitude_ck (h : s.Holds bs) (hm : s.mode = .attitude) :
    s.ck.extractLsb' 16 16 = 0 := by
  rw [h.acc, hm]
  exact high_half_setWidth _

theorem pos_succ_toNat {p : Half} (h : p.toNat < 65535) : (p + 1).toNat = p.toNat + 1 := by
  rw [BitVec.toNat_add, Nat.mod_eq_of_lt (by simp; omega)]
  rfl

theorem State.Holds.length_succ (h : s.Holds bs) (hb : s.pos.toNat < s.cfg.bufSize)
    (hmax : s.cfg.bufSize ≤ 65535) : bs.length + 1 = (s.pos + 1).toNat := by
  rw [pos_succ_toNat (by omega), h.length]

/-- Storing the byte at `POS` and moving on extends the stored bytes by it. -/
theorem State.Holds.reads_store (h : s.Holds bs) (hb : s.pos.toNat < s.cfg.bufSize)
    (hmax : s.cfg.bufSize ≤ 65535) (b : Byte) :
    (bs ++ [b]).length = (s.pos + 1).toNat ∧
      (s.store b).readBytes 0 (s.pos + 1).toNat = .ok (bs ++ [b]) := by
  rw [pos_succ_toNat (by omega)]
  exact ⟨by simp [h.length], State.readBytes_write_end h.reads hb rfl rfl⟩

theorem State.Holds.cover (h : s.Holds bs) (hb : s.pos.toNat < s.cfg.bufSize)
    (hmax : s.cfg.bufSize ≤ 65535) (hlt : s.pos.toNat < s.coverEnd) (b : Byte) :
    ((s.store b).cover b).Holds (bs ++ [b]) where
  length := (h.reads_store hb hmax b).1
  reads := by
    rw [← (h.reads_store hb hmax b).2]
    exact State.readBytes_congr rfl fun _ _ => rfl
  acc := by
    have hall : bs.take s.coverEnd = bs := List.take_of_length_le (by rw [h.length]; omega)
    have hall' : (bs ++ [b]).take s.coverEnd = bs ++ [b] :=
      List.take_of_length_le (by simp [h.length]; omega)
    calc accUpd s.cfg (algOfPath s.mode) s.ck b
        = accUpd s.cfg (algOfPath s.mode) (accOver s.cfg (algOfPath s.mode) bs) b := by
          rw [h.acc, hall]
      _ = accOver s.cfg (algOfPath s.mode) (bs ++ [b]) := accUpd_accOver ..
      _ = accOver s.cfg (algOfPath s.mode) ((bs ++ [b]).take s.coverEnd) := by rw [hall']

theorem State.Holds.pass (h : s.Holds bs) (hb : s.pos.toNat < s.cfg.bufSize)
    (hmax : s.cfg.bufSize ≤ 65535) (hge : s.coverEnd ≤ s.pos.toNat) (b : Byte) :
    (s.store b).pass.Holds (bs ++ [b]) where
  length := (h.reads_store hb hmax b).1
  reads := by
    rw [← (h.reads_store hb hmax b).2]
    exact State.readBytes_congr rfl fun _ _ => rfl
  acc := by
    have hcut : (bs ++ [b]).take s.coverEnd = bs.take s.coverEnd :=
      List.take_append_of_le_length (by rw [h.length]; exact hge)
    calc s.ck = accOver s.cfg (algOfPath s.mode) (bs.take s.coverEnd) := h.acc
      _ = accOver s.cfg (algOfPath s.mode) ((bs ++ [b]).take s.coverEnd) := by rw [hcut]

theorem State.Holds.coverWindow (h : s.Holds bs) (hm : s.mode = .attitude)
    (hb : s.pos.toNat < s.cfg.bufSize) (hmax : s.cfg.bufSize ≤ 65535) (b : Byte) :
    ((s.store b).coverWindow b).Holds (bs ++ [b]) := by
  have hend := coverEnd_attitude hm
  by_cases hlt : s.pos.toNat < s.cfg.aCkOff
  · have hcov : (s.store b).coverWindow b = (s.store b).cover b := if_pos hlt
    rw [hcov]
    exact h.cover hb hmax (by omega) b
  · have hcov : (s.store b).coverWindow b = (s.store b).pass := if_neg hlt
    rw [hcov]
    exact h.pass hb hmax (by omega) b

end

/-! ### The clauses that speak of no frame -/

/-- The clauses of the invariant about the configuration, the form of `BUF` and the integrity unit,
which no frame is part of. -/
structure State.Grounded (s : State) : Prop where
  cfg_wf : s.cfg.WF
  buf_wf : s.buf.wf
  buf_in_range : ∀ c ∈ s.buf, c.1 < s.cfg.bufSize
  unit_sum : s.xalg = .sum16 → s.xacc.extractLsb' 16 16 = 0

theorem State.Inv.grounded {s : State} (h : s.Inv) : s.Grounded :=
  ⟨h.cfg_wf, h.buf_wf, h.buf_in_range, h.unit_sum⟩

theorem State.Grounded.congr {s t : State} (h : s.Grounded) (hcfg : t.cfg = s.cfg)
    (hbuf : t.buf = s.buf) (hxalg : t.xalg = s.xalg) (hxacc : t.xacc = s.xacc) : t.Grounded where
  cfg_wf := hcfg ▸ h.cfg_wf
  buf_wf := hbuf ▸ h.buf_wf
  buf_in_range := by rw [hbuf, hcfg]; exact h.buf_in_range
  unit_sum := by rw [hxalg, hxacc]; exact h.unit_sum

theorem State.Grounded.write {s : State} (h : s.Grounded) {a : Nat} (ha : a < s.cfg.bufSize)
    (b : Byte) : ({ s with buf := s.buf.write a b } : State).Grounded where
  cfg_wf := h.cfg_wf
  buf_wf := Memory.write_wf h.buf_wf a b
  buf_in_range := Memory.write_in_range h.buf_in_range ha b
  unit_sum := h.unit_sum

theorem State.Grounded.bufSize_le {s : State} (h : s.Grounded) : s.cfg.bufSize ≤ 65535 := by
  obtain ⟨-, -, -, -, -, -, -, -, -, hmax⟩ := h.cfg_wf
  exact hmax

/-! ### The invariant from its parts, state by state -/

/-- While a GNSS frame is being stored. -/
theorem inv_of_gnss_frame {s : State} {bs : List Byte} (hg : s.Grounded) (hm : s.mode = .gnss)
    (hst : s.st = .header ∨ s.st = .body ∨ s.st = .trailer) (hwin : s.shreg = 0 ∧ s.shcnt = 0)
    (hres : s.result = .none) (hb : s.Holds bs) (hf : s.FrameSoFar bs) : s.Inv where
  cfg_wf := hg.cfg_wf
  buf_wf := hg.buf_wf
  buf_in_range := hg.buf_in_range
  gnss_states := by rcases hst with h | h | h <;> simp [h]
  attitude_states := by simp [hm]
  pos_at_rest hno := absurd (by rcases hst with h | h | h <;> simp [State.Storing, h]) hno
  window_empty _ := hwin
  result_none := by rcases hst with h | h | h <;> simp [h, hres]
  fault_io := by rcases hst with h | h | h <;> simp [h, hres]
  attitude_ck := by simp [hm]
  unit_sum := hg.unit_sum
  stored _ := stored_iff.2 ⟨bs, hb, hf⟩

/-- While an attitude window is being stored. -/
theorem inv_of_window {s : State} {bs : List Byte} (hg : s.Grounded) (hm : s.mode = .attitude)
    (hst : s.st = .collect) (hwin : s.shreg = 0 ∧ s.shcnt = 0) (hres : s.result = .none)
    (hb : s.Holds bs) (hf : s.FrameSoFar bs) : s.Inv where
  cfg_wf := hg.cfg_wf
  buf_wf := hg.buf_wf
  buf_in_range := hg.buf_in_range
  gnss_states := by simp [hm]
  attitude_states := by simp [hst]
  pos_at_rest hno := absurd (by simp [State.Storing, hst]) hno
  window_empty _ := hwin
  result_none := by simp [hst, hres]
  fault_io := by simp [hst, hres]
  attitude_ck _ _ := hb.attitude_ck hm
  unit_sum := hg.unit_sum
  stored _ := stored_iff.2 ⟨bs, hb, hf⟩

/-- While a frame of either path is held. -/
theorem inv_of_held {s : State} {bs : List Byte} (hg : s.Grounded) (hst : s.st = .done)
    (hwin : s.shreg = 0 ∧ s.shcnt = 0) (hres : s.result ≠ .none ∧ s.result ≠ .eIo)
    (hb : s.Holds bs) (hf : s.FrameSoFar bs) : s.Inv where
  cfg_wf := hg.cfg_wf
  buf_wf := hg.buf_wf
  buf_in_range := hg.buf_in_range
  gnss_states := by simp [hst]
  attitude_states := by simp [hst]
  pos_at_rest hno := absurd (by simp [State.Storing, hst]) hno
  window_empty _ := hwin
  result_none := by simp [hst, hres]
  fault_io := by simp [hst, hres]
  attitude_ck hm _ := hb.attitude_ck hm
  unit_sum := hg.unit_sum
  stored _ := stored_iff.2 ⟨bs, hb, hf⟩

/-- In `IDLE`. -/
theorem inv_of_idle {s : State} (hg : s.Grounded) (hst : s.st = .idle) (hpos : s.pos = 0)
    (hwin : s.shreg = 0 ∧ s.shcnt = 0) (hres : s.result = .none) : s.Inv where
  cfg_wf := hg.cfg_wf
  buf_wf := hg.buf_wf
  buf_in_range := hg.buf_in_range
  gnss_states := by simp [hst]
  attitude_states := by simp [hst]
  pos_at_rest _ := hpos
  window_empty _ := hwin
  result_none := by simp [hst, hres]
  fault_io := by simp [hst, hres]
  attitude_ck _ hne := absurd hst hne
  unit_sum := hg.unit_sum
  stored hs := absurd hs (by simp [State.Storing, hst])

/-- In `HUNT`. -/
theorem inv_of_hunt {s : State} (hg : s.Grounded) (hm : s.mode = .gnss) (hst : s.st = .hunt)
    (hpos : s.pos = 0) (hres : s.result = .none) : s.Inv where
  cfg_wf := hg.cfg_wf
  buf_wf := hg.buf_wf
  buf_in_range := hg.buf_in_range
  gnss_states := by simp [hst]
  attitude_states := by simp [hm]
  pos_at_rest _ := hpos
  window_empty hne := absurd hst hne
  result_none := by simp [hst, hres]
  fault_io := by simp [hst, hres]
  attitude_ck := by simp [hm]
  unit_sum := hg.unit_sum
  stored hs := absurd hs (by simp [State.Storing, hst])

/-- `restart()` begins a frame of either path soundly, whatever was stored before
(40_frame_engine.md R101). -/
theorem restart_inv {s : State} (hg : s.Grounded) (hres : s.result = .none) :
    s.restart.Inv := by
  have hg' : s.restart.Grounded := hg.congr rfl rfl rfl rfl
  cases hm : s.mode with
  | gnss => exact inv_of_hunt hg' hm (by simp [hm, firstState]) rfl hres
  | attitude =>
    have hst : s.restart.st = .collect := by simp [hm, firstState]
    have hempty : s.restart.Holds [] := ⟨rfl, rfl, by simp⟩
    refine inv_of_window hg' hm hst ⟨rfl, rfl⟩ hres hempty ((frameSoFar_collect hst).2 ?_)
    obtain ⟨⟨-, -, hck, -, -⟩, -, -, -, -, hlen, -⟩ := hg.cfg_wf
    simp only [List.length_nil, State.restart_cfg]
    omega

/-- Right after reset, whatever `BUF` holds (10_state.md R43). -/
theorem resetWith_inv {p : Params} {m : Memory} (hw : p.WF) (hm : m.wf)
    (hr : ∀ c ∈ m, c.1 < p.bufSize) (cs : List Cycle) :
    ({ State.resetWith p with buf := m, cycles := cs } : State).Inv :=
  inv_of_idle ⟨hw, hm, hr, fun h => by cases h⟩ rfl rfl ⟨rfl, rfl⟩ rfl

/-- The invariant does not look at `ACC`, `CUR`, the counters, `IE`, the response or the inputs. -/
theorem State.Inv.withOther {s : State} (h : s.Inv) (acc : Word) (cur : Half)
    (ok ckerr hdrerr syncerr skip : Half) (ie : BitVec 3) (rsp : Option Response)
    (cs : List Cycle) :
    ({ s with
        acc := acc, cur := cur, cntOk := ok, cntCkerr := ckerr, cntHdrerr := hdrerr,
        cntSyncerr := syncerr, cntSkip := skip, ie := ie, rsp := rsp, cycles := cs } :
      State).Inv where
  cfg_wf := h.cfg_wf
  buf_wf := h.buf_wf
  buf_in_range := h.buf_in_range
  gnss_states := h.gnss_states
  attitude_states := h.attitude_states
  pos_at_rest := h.pos_at_rest
  window_empty := h.window_empty
  result_none := h.result_none
  fault_io := h.fault_io
  attitude_ck := h.attitude_ck
  unit_sum := h.unit_sum
  stored hs := by
    obtain ⟨bs, hb, hf⟩ := stored_iff.1 (h.stored hs)
    exact stored_iff.2 ⟨bs, hb.congr rfl rfl rfl rfl rfl rfl, hf⟩

theorem State.Inv.awaiting {s : State} (h : s.Inv) (cs : List Cycle) : (s.awaiting cs).Inv :=
  h.withOther ..

theorem State.Inv.respond {s : State} (h : s.Inv) (r : Status) (d : Word) :
    (s.respond r d).Inv :=
  h.withOther ..

/-! ### What the invariant says where a step begins -/

section
variable {s : State}

theorem State.Inv.mode_gnss (h : s.Inv)
    (hst : s.st = .hunt ∨ s.st = .header ∨ s.st = .body ∨ s.st = .trailer) :
    s.mode = .gnss := by
  cases hm : s.mode with
  | gnss => rfl
  | attitude =>
    obtain ⟨h1, h2, h3, h4⟩ := h.attitude_states hm
    rcases hst with hst | hst | hst | hst <;> contradiction

theorem State.Inv.mode_attitude (h : s.Inv) (hst : s.st = .collect) : s.mode = .attitude := by
  cases hm : s.mode with
  | gnss => exact absurd hst (h.gnss_states hm)
  | attitude => rfl

theorem State.Inv.result_eq_none (h : s.Inv) (hr : s.inReady = true) : s.result = .none := by
  refine h.result_none.2 ?_
  rcases (inReady_iff s).1 hr with h | h | h | h | h <;> simp [h]

theorem State.Inv.held_frame (h : s.Inv) (hs : s.Storing) :
    ∃ bs, s.Holds bs ∧ s.FrameSoFar bs :=
  stored_iff.1 (h.stored hs)

theorem State.Grounded.store (hg : s.Grounded) (hb : s.pos.toNat < s.cfg.bufSize) (b : Byte) :
    (s.store b).Grounded :=
  hg.write hb b

end

/-! ### The steps that store a GNSS frame keep the invariant -/

section
variable {s : State} {b : Byte}

theorem shiftIn_inv (h : s.Inv) (hst : s.st = .hunt) : (s.shiftIn b).Inv :=
  inv_of_hunt (h.grounded.congr rfl rfl rfl rfl) (h.mode_gnss (.inl hst)) hst
    (h.pos_at_rest (by simp [State.Storing, hst]))
    (h.result_eq_none ((inReady_iff s).2 (.inl hst)))

/-- The three sync bytes are in `BUF` after a lock (40_frame_engine.md R104). -/
theorem withSync_reads (h : 2 < s.cfg.bufSize) :
    s.withSync.readBytes 0 3 = .ok [s.cfg.gSync0, s.cfg.gSync1, s.cfg.gSync2] := by
  refine State.readBytes_eq_ok.2 ⟨rfl, fun k hk => ?_⟩
  have hk3 : k < 3 := hk
  rw [State.readByte_eq_ok]
  refine ⟨show 0 + k < s.cfg.bufSize by omega, ?_⟩
  simp only [State.withSync, Memory.read_write]
  interval_cases k <;> simp

theorem State.Grounded.withSync (hg : s.Grounded) (h : 2 < s.cfg.bufSize) :
    s.withSync.Grounded :=
  ((hg.write (a := 0) (by omega) _).write (a := 1) (show 1 < s.cfg.bufSize by omega) _).write h _

theorem lock_inv (h : s.Inv) (hst : s.st = .hunt) (hb : 2 < s.cfg.bufSize) :
    (s.shiftIn b).withSync.lockRegs.Inv := by
  have hg : (s.shiftIn b).Grounded := h.grounded.congr rfl rfl rfl rfl
  have hm : s.mode = .gnss := h.mode_gnss (.inl hst)
  have hend : (s.shiftIn b).withSync.lockRegs.coverEnd = s.cfg.gHdrLen + s.hLen.toNat :=
    coverEnd_gnss hm
  obtain ⟨⟨hsync, -⟩, ⟨hid, -, -, hoff, -, -, hin, -⟩, -⟩ := h.cfg_wf
  have hhdr : 3 < s.cfg.gHdrLen := by omega
  refine inv_of_gnss_frame (bs := [s.cfg.gSync0, s.cfg.gSync1, s.cfg.gSync2])
    ((hg.withSync hb).congr rfl rfl rfl rfl) hm (.inl rfl) ⟨rfl, rfl⟩
    (h.result_eq_none ((inReady_iff s).2 (.inl hst))) ⟨rfl, ?_, ?_⟩
    ((frameSoFar_header rfl).2 ⟨le_refl 3, hhdr, rfl⟩)
  · exact (State.readBytes_congr rfl fun _ _ => rfl).trans (withSync_reads (s := s.shiftIn b) hb)
  · rw [hend, List.take_of_length_le (by simp; omega)]
    simp only [State.lockRegs_mode]
    rw [show (s.shiftIn b).withSync.mode = .gnss from hm]
    rfl

theorem header_inv (h : s.Inv) (hst : s.st = .header) (hb : s.pos.toNat < s.cfg.bufSize)
    (hne : (s.pos + 1).toNat ≠ s.cfg.gHdrLen) : ((s.store b).cover b).Inv := by
  obtain ⟨bs, hbs, hf⟩ := h.held_frame (.inl hst)
  obtain ⟨h3, hlt, hsync⟩ := (frameSoFar_header hst).1 hf
  have hm : s.mode = .gnss := h.mode_gnss (.inr (.inl hst))
  have hend := coverEnd_gnss hm
  have hl := hbs.length
  have hbs' := hbs.cover hb h.grounded.bufSize_le (by omega) b
  have hl' := hbs.length_succ hb h.grounded.bufSize_le
  refine inv_of_gnss_frame ((h.grounded.store hb b).congr rfl rfl rfl rfl) hm (.inl hst)
    (h.window_empty (by simp [hst])) (h.result_eq_none ((inReady_iff s).2 (by simp [hst])))
    hbs' ((frameSoFar_header (s := (s.store b).cover b) hst).2
      ⟨?_, ?_, gnssSynced_append hsync h3 [b]⟩)
  · simp; omega
  · show (bs ++ [b]).length < s.cfg.gHdrLen
    simp; omega

/-- The latched header registers describe the stored header (40_frame_engine.md R107). -/
theorem latchHeader_headerOf {u : State} {bs : List Byte} {id len : Nat} {type : Byte}
    (hw : u.cfg.WF) (hbs : u.Holds bs) (hl : u.cfg.gHdrLen ≤ bs.length)
    (hid : u.memRead u.cfg.gOffId u.cfg.gWId = .ok id)
    (htype : u.readByte u.cfg.gOffType = .ok type)
    (hlen : u.memRead u.cfg.gOffLen u.cfg.gWLen = .ok len)
    (hfit : (u.latchHeader id type len).hLen.toNat ≤ u.cfg.gMaxBody) :
    (u.latchHeader id type len).HeaderOf bs := by
  obtain ⟨-, ⟨hwid, hwlen, -, -, -, -, hinId, hinType, hinLen⟩, -⟩ := hw
  have h16 : ∀ {a n v : Nat}, n = 1 ∨ n = 2 → v = fieldAt bs a n →
      (BitVec.ofNat 16 v).toNat = fieldAt bs a n := by
    intro a n v hn hv
    have hlt := fieldAt_lt bs a n
    rw [hv, BitVec.toNat_ofNat, Nat.mod_eq_of_lt]
    rcases hn with rfl | rfl <;> omega
  have hid' := hbs.memRead hid (by omega)
  have htype' := hbs.readByte htype (by omega)
  have hlen' := hbs.memRead hlen (by omega)
  exact ⟨h16 hwid hid', htype', rfl, h16 hwlen hlen', hfit⟩

/-- A completed header is dropped, or leads to the trailer or to the body, soundly
(40_frame_engine.md R108). -/
theorem afterHeader_inv {v : State} {bs : List Byte} (hg : v.Grounded) (hm : v.mode = .gnss)
    (hwin : v.shreg = 0 ∧ v.shcnt = 0) (hres : v.result = .none) (hbs : v.Holds bs)
    (hl : bs.length = v.cfg.gHdrLen) (hsync : GnssSynced v.cfg bs)
    (hhdr : v.hLen.toNat ≤ v.cfg.gMaxBody → v.HeaderOf bs) : v.afterHeader.Inv := by
  rcases afterHeader_cases v with ⟨-, heq⟩ | ⟨hfit, h0, heq⟩ | ⟨hfit, h0, heq⟩ <;> rw [heq]
  · exact restart_inv (hg.congr rfl rfl rfl rfl) hres
  · refine inv_of_gnss_frame (hg.congr rfl rfl rfl rfl) hm (.inr (.inr rfl)) hwin hres
      (hbs.congr rfl rfl rfl rfl rfl rfl) ((frameSoFar_trailer rfl).2 ⟨?_, ?_, hsync, hhdr hfit⟩)
    · simp [h0, hl]
    · simp [h0, hl]
  · have hpos : 0 < v.hLen.toNat := by
      rcases Nat.eq_zero_or_pos v.hLen.toNat with hz | hp
      · exact absurd (BitVec.eq_of_toNat_eq hz) h0
      · exact hp
    refine inv_of_gnss_frame (hg.congr rfl rfl rfl rfl) hm (.inr (.inl rfl)) hwin hres
      (hbs.congr rfl rfl rfl rfl rfl rfl) ((frameSoFar_body rfl).2 ⟨hl.ge, ?_, hsync, hhdr hfit⟩)
    simp only [hl]
    omega

theorem headerEnd_inv {id len : Nat} {type : Byte} (h : s.Inv) (hst : s.st = .header)
    (hb : s.pos.toNat < s.cfg.bufSize) (heq : (s.pos + 1).toNat = s.cfg.gHdrLen)
    (hid : ((s.store b).cover b).memRead s.cfg.gOffId s.cfg.gWId = .ok id)
    (htype : ((s.store b).cover b).readByte s.cfg.gOffType = .ok type)
    (hlen : ((s.store b).cover b).memRead s.cfg.gOffLen s.cfg.gWLen = .ok len) :
    (((s.store b).cover b).latchHeader id type len).afterHeader.Inv := by
  obtain ⟨bs, hbs, hf⟩ := h.held_frame (.inl hst)
  obtain ⟨h3, hlt, hsync⟩ := (frameSoFar_header hst).1 hf
  have hm : s.mode = .gnss := h.mode_gnss (.inr (.inl hst))
  have hend := coverEnd_gnss hm
  have hl := hbs.length
  have hbs' := hbs.cover hb h.grounded.bufSize_le (by omega) b
  have hl' : (bs ++ [b]).length = s.cfg.gHdrLen := hbs'.length.trans heq
  have hall : ∀ n, (bs ++ [b]).take (s.cfg.gHdrLen + n) = bs ++ [b] := fun n =>
    List.take_of_length_le (by omega)
  refine afterHeader_inv (bs := bs ++ [b]) ((h.grounded.store hb b).congr rfl rfl rfl rfl) hm
    (h.window_empty (by simp [hst])) (h.result_eq_none ((inReady_iff s).2 (by simp [hst])))
    (hbs'.congr rfl rfl rfl rfl rfl ?_) hl' (gnssSynced_append hsync h3 [b])
    fun hfit => latchHeader_headerOf h.cfg_wf hbs' hl'.ge hid htype hlen hfit
  rw [coverEnd_gnss (s := ((s.store b).cover b).latchHeader id type len) hm,
    coverEnd_gnss (s := (s.store b).cover b) hm]
  exact (hall _).trans (hall _).symm

theorem body_inv (h : s.Inv) (hst : s.st = .body) (hb : s.pos.toNat < s.cfg.bufSize) :
    ((s.store b).cover b).afterBodyByte.Inv := by
  obtain ⟨bs, hbs, hf⟩ := h.held_frame (.inr (.inl hst))
  obtain ⟨hge, hlt, hsync, hhdr⟩ := (frameSoFar_body hst).1 hf
  have hm : s.mode = .gnss := h.mode_gnss (.inr (.inr (.inl hst)))
  have hend := coverEnd_gnss hm
  have hl := hbs.length
  have hbs' := hbs.cover hb h.grounded.bufSize_le (by omega) b
  have hl' := hbs.length_succ hb h.grounded.bufSize_le
  have hg : ((s.store b).cover b).Grounded := (h.grounded.store hb b).congr rfl rfl rfl rfl
  have hwin := h.window_empty (by simp [hst])
  have hres := h.result_eq_none ((inReady_iff s).2 (by simp [hst]))
  obtain ⟨⟨hs3, -⟩, ⟨-, -, -, hoff, -, -, hin, -⟩, -⟩ := h.cfg_wf
  have hsync' := gnssSynced_append hsync (by omega) [b]
  have hhdr' := headerOf_append h.cfg_wf hhdr hge [b]
  by_cases hlast : (s.pos + 1).toNat = s.cfg.gHdrLen + s.hLen.toNat
  · have heq : ((s.store b).cover b).afterBodyByte =
        { (s.store b).cover b with st := .trailer } := if_pos hlast
    rw [heq]
    refine inv_of_gnss_frame (hg.congr rfl rfl rfl rfl) hm (.inr (.inr rfl)) hwin hres
      (hbs'.congr rfl rfl rfl rfl rfl rfl)
      ((frameSoFar_trailer rfl).2 ⟨?_, ?_, hsync', hhdr'⟩)
    · exact (hbs'.length.trans hlast).ge
    · exact lt_of_eq_of_lt (hbs'.length.trans hlast) (Nat.lt_add_of_pos_right (by decide))
  · have heq : ((s.store b).cover b).afterBodyByte = (s.store b).cover b := if_neg hlast
    rw [heq]
    refine inv_of_gnss_frame hg hm (.inr (.inl hst)) hwin hres hbs'
      ((frameSoFar_body (s := (s.store b).cover b) hst).2 ⟨?_, ?_, hsync', hhdr'⟩)
    · show s.cfg.gHdrLen ≤ (bs ++ [b]).length
      simp; omega
    · show (bs ++ [b]).length < s.cfg.gHdrLen + s.hLen.toNat
      simp; omega

end

/-! ### The validators keep the invariant -/

section
variable {s : State} {b : Byte}

theorem trailer_inv (h : s.Inv) (hst : s.st = .trailer) (hb : s.pos.toNat < s.cfg.bufSize)
    (hne : (s.pos + 1).toNat ≠ s.cfg.gHdrLen + s.hLen.toNat + 4) : (s.store b).pass.Inv := by
  obtain ⟨bs, hbs, hf⟩ := h.held_frame (.inr (.inr (.inl hst)))
  obtain ⟨hge, hlt, hsync, hhdr⟩ := (frameSoFar_trailer hst).1 hf
  have hm : s.mode = .gnss := h.mode_gnss (.inr (.inr (.inr hst)))
  have hend := coverEnd_gnss hm
  have hl := hbs.length
  have hl' := hbs.length_succ hb h.grounded.bufSize_le
  obtain ⟨⟨hs3, -⟩, ⟨-, -, -, hoff, -, -, hin, -⟩, -⟩ := h.cfg_wf
  refine inv_of_gnss_frame ((h.grounded.store hb b).congr rfl rfl rfl rfl) hm
    (.inr (.inr hst)) (h.window_empty (by simp [hst]))
    (h.result_eq_none ((inReady_iff s).2 (by simp [hst])))
    (hbs.pass hb h.grounded.bufSize_le (by omega) b)
    ((frameSoFar_trailer (s := (s.store b).pass) hst).2
      ⟨?_, ?_, gnssSynced_append hsync (by omega) [b],
        headerOf_append h.cfg_wf hhdr (by omega) [b]⟩)
  · show s.cfg.gHdrLen + s.hLen.toNat ≤ (bs ++ [b]).length
    simp; omega
  · show (bs ++ [b]).length < s.cfg.gHdrLen + s.hLen.toNat + 4
    simp; omega

/-- The verdict on a complete GNSS frame, its codes latched: held if they agree, else dropped
(40_frame_engine.md R112). -/
theorem gnssVerdict_inv {v : State} {bs : List Byte} (hg : v.Grounded) (hm : v.mode = .gnss)
    (hwin : v.shreg = 0 ∧ v.shcnt = 0) (hres : v.result = .none) (hbs : v.Holds bs)
    (hflen : v.flen = v.pos) (hsync : GnssSynced v.cfg bs) (hhdr : v.HeaderOf bs)
    (hl : bs.length = v.cfg.gHdrLen + v.hLen.toNat + 4)
    (hrx : v.rxck.toNat = fieldAt bs (bs.length - 4) 4)
    (hcc : v.calcCk = crc32 v.cfg (bs.take (bs.length - 4))) : v.gnssVerdict.Inv := by
  rcases gnssVerdict_cases v with ⟨hok, heq⟩ | ⟨-, heq⟩ <;> rw [heq]
  · refine inv_of_held (hg.congr rfl rfl rfl rfl) rfl hwin ⟨by simp, by simp⟩
      (hbs.congr rfl rfl rfl rfl rfl rfl)
      ((frameSoFar_done_gnss (s := ({ v with cntOk := satInc v.cntOk }).hold .ok) rfl hm).2
        ⟨hflen, ?_⟩)
    exact ⟨hsync, hhdr, hl, hrx, hcc, hok, rfl⟩
  · exact restart_inv (hg.congr rfl rfl rfl rfl) hres

theorem trailerEnd_inv {rx : Nat} (h : s.Inv) (hst : s.st = .trailer)
    (hb : s.pos.toNat < s.cfg.bufSize)
    (heq : (s.pos + 1).toNat = s.cfg.gHdrLen + s.hLen.toNat + 4)
    (hrx : (s.store b).pass.memRead ((s.pos + 1).toNat - 4) 4 = .ok rx) :
    ((s.store b).pass.latchFrame (BitVec.ofNat 32 rx) (s.ck ^^^ s.cfg.crcXorOut)
      (s.pos + 1)).gnssVerdict.Inv := by
  obtain ⟨bs, hbs, hf⟩ := h.held_frame (.inr (.inr (.inl hst)))
  obtain ⟨hge, hlt, hsync, hhdr⟩ := (frameSoFar_trailer hst).1 hf
  have hm : s.mode = .gnss := h.mode_gnss (.inr (.inr (.inr hst)))
  have hend := coverEnd_gnss hm
  have hl := hbs.length
  have hbs' := hbs.pass hb h.grounded.bufSize_le (by omega) b
  have hl' : (bs ++ [b]).length = s.cfg.gHdrLen + s.hLen.toNat + 4 := hbs'.length.trans heq
  obtain ⟨⟨hs3, -⟩, ⟨-, -, -, hoff, -, -, hin, -⟩, -⟩ := h.cfg_wf
  have hrx' : rx = fieldAt (bs ++ [b]) ((bs ++ [b]).length - 4) 4 := by
    rw [heq] at hrx
    rw [hl']
    exact hbs'.memRead hrx (by omega)
  have hck : s.ck = crcAcc s.cfg ((bs ++ [b]).take ((bs ++ [b]).length - 4)) := by
    have hacc := hbs'.acc
    rw [coverEnd_gnss (s := (s.store b).pass) hm, show (s.store b).pass.mode = .gnss from hm]
      at hacc
    rw [show (bs ++ [b]).length - 4 = s.cfg.gHdrLen + s.hLen.toNat by omega]
    exact hacc
  refine gnssVerdict_inv (bs := bs ++ [b]) ((h.grounded.store hb b).congr rfl rfl rfl rfl) hm
    (h.window_empty (by simp [hst])) (h.result_eq_none ((inReady_iff s).2 (by simp [hst])))
    (hbs'.congr rfl rfl rfl rfl rfl rfl) rfl (gnssSynced_append hsync (by omega) [b])
    (headerOf_append h.cfg_wf hhdr (by omega) [b]) hl' ?_ ?_
  · rw [State.latchFrame_rxck, hrx']
    exact ofNat_fieldAt_toNat _ _ (le_refl 4)
  · rw [State.latchFrame_calcCk, hck]
    rfl

/-- Whether a collect step covers its byte or not, it writes only `CK` and `POS`. -/
theorem coverWindow_keeps (s : State) (b : Byte) :
    (s.coverWindow b).st = s.st ∧ (s.coverWindow b).shreg = s.shreg ∧
    (s.coverWindow b).shcnt = s.shcnt ∧ (s.coverWindow b).result = s.result ∧
    (s.coverWindow b).buf = s.buf ∧ (s.coverWindow b).pos = s.pos + 1 := by
  unfold State.coverWindow
  split <;> exact ⟨rfl, rfl, rfl, rfl, rfl, rfl⟩

theorem coverWindow_grounded (hg : s.Grounded) (b : Byte) : (s.coverWindow b).Grounded := by
  obtain ⟨hcfg, -, -, -, hxalg, hxacc, -, -⟩ := coverWindow_sameHost s b
  obtain ⟨-, -, -, -, hbuf, -⟩ := coverWindow_keeps s b
  exact hg.congr hcfg hbuf hxalg hxacc

theorem window_inv (h : s.Inv) (hst : s.st = .collect) (hb : s.pos.toNat < s.cfg.bufSize)
    (hne : ((s.store b).coverWindow b).pos.toNat ≠ s.cfg.aFrameLen) :
    ((s.store b).coverWindow b).Inv := by
  obtain ⟨bs, hbs, hf⟩ := h.held_frame (.inr (.inr (.inr (.inl hst))))
  have hlt := (frameSoFar_collect hst).1 hf
  have hm := h.mode_attitude hst
  have hbs' := hbs.coverWindow hm hb h.grounded.bufSize_le b
  obtain ⟨hcfg, hmode, -⟩ := coverWindow_sameHost (s.store b) b
  obtain ⟨hst', hshreg, hshcnt, hres, -⟩ := coverWindow_keeps (s.store b) b
  refine inv_of_window (coverWindow_grounded (h.grounded.store hb b) b) (hmode.trans hm)
    (hst'.trans hst) (by rw [hshreg, hshcnt]; exact h.window_empty (by simp [hst]))
    (hres.trans (h.result_eq_none ((inReady_iff s).2 (by simp [hst])))) hbs'
    ((frameSoFar_collect (hst'.trans hst)).2 ?_)
  rw [hcfg]
  have hl' := hbs'.length
  simp only [List.length_append, List.length_singleton] at hl' ⊢
  exact lt_of_le_of_ne hlt (hl' ▸ hne)

/-- The registers of a window agree exactly when its trailer is the sum of its covered bytes. -/
theorem rxck_eq_calcCk_iff {bs : List Byte} (hrx : s.rxck.toNat = fieldAt bs s.cfg.aCkOff 2)
    (hcc : s.calcCk = (sum16 s.cfg (bs.take s.cfg.aCkOff)).setWidth 32) :
    s.rxck = s.calcCk ↔
      fieldAt bs s.cfg.aCkOff 2 = (sum16 s.cfg (bs.take s.cfg.aCkOff)).toNat := by
  rw [← BitVec.toNat_inj, hrx, hcc, BitVec.toNat_setWidth, Nat.mod_eq_of_lt (by omega)]

theorem windowResult_ne (p : Params) (bs : List Byte) :
    windowResult p bs ≠ .none ∧ windowResult p bs ≠ .eIo := by
  unfold windowResult
  split
  · simp
  · split <;> simp

/-- The verdict on a complete window holds it with the result that its bytes have
(40_frame_engine.md R117). -/
theorem windowVerdict_eq_hold {v : State} {bs : List Byte} {b0 b1 : Byte}
    (hsync : bs.take 2 = [b0, b1])
    (hcode : v.rxck = v.calcCk ↔
      fieldAt bs v.cfg.aCkOff 2 = (sum16 v.cfg (bs.take v.cfg.aCkOff)).toNat) :
    ∃ ok ckerr syncerr, v.windowVerdict b0 b1 =
      ({ v with cntOk := ok, cntCkerr := ckerr, cntSyncerr := syncerr }).hold
        (windowResult v.cfg bs) := by
  rcases windowVerdict_cases v b0 b1 with ⟨hne, heq⟩ | ⟨h0, h1, hne, heq⟩ | ⟨h0, h1, hok, heq⟩ <;>
    rw [heq]
  · have hres : windowResult v.cfg bs = .eSync :=
      if_pos (by rw [hsync]; simpa [imp_iff_not_or] using hne)
    exact ⟨_, _, _, by rw [hres]⟩
  · have hres : windowResult v.cfg bs = .eCksum := by
      rw [windowResult, if_neg (by simp [hsync, h0, h1]), if_pos (mt hcode.2 hne)]
    exact ⟨_, _, _, by rw [hres]⟩
  · have hres : windowResult v.cfg bs = .ok := by
      rw [windowResult, if_neg (by simp [hsync, h0, h1]), if_neg (not_not.2 (hcode.1 hok))]
    exact ⟨_, _, _, by rw [hres]⟩

theorem windowVerdict_inv {v : State} {bs : List Byte} {b0 b1 : Byte} (hg : v.Grounded)
    (hm : v.mode = .attitude) (hwin : v.shreg = 0 ∧ v.shcnt = 0) (hbs : v.Holds bs)
    (hflen : v.flen = v.pos) (hl : bs.length = v.cfg.aFrameLen) (hsync : bs.take 2 = [b0, b1])
    (hrx : v.rxck.toNat = fieldAt bs v.cfg.aCkOff 2)
    (hcc : v.calcCk = (sum16 v.cfg (bs.take v.cfg.aCkOff)).setWidth 32)
    (htype : bs[v.cfg.aOffFtype]? = some v.ftype)
    (himu : v.hasImu = decide (v.ftype &&& v.cfg.aImuMask = v.cfg.aImuVal))
    (hirehs : v.hasIrehs = decide (v.ftype &&& v.cfg.aIrehsMask = v.cfg.aIrehsVal)) :
    (v.windowVerdict b0 b1).Inv := by
  obtain ⟨ok, ckerr, syncerr, heq⟩ := windowVerdict_eq_hold hsync (rxck_eq_calcCk_iff hrx hcc)
  rw [heq]
  exact inv_of_held (hg.congr rfl rfl rfl rfl) rfl hwin (windowResult_ne v.cfg bs)
    (hbs.congr rfl rfl rfl rfl rfl rfl)
    ((frameSoFar_done_attitude
      (s := ({ v with cntOk := ok, cntCkerr := ckerr, cntSyncerr := syncerr }).hold
        (windowResult v.cfg bs)) rfl hm).2
      ⟨hflen, hl, hrx, hcc, htype, himu, hirehs, rfl⟩)

theorem windowComplete_inv {u t : State} {bs : List Byte} (hg : u.Grounded)
    (hm : u.mode = .attitude) (hwin : u.shreg = 0 ∧ u.shcnt = 0) (hbs : u.Holds bs)
    (hl : u.pos.toNat = u.cfg.aFrameLen) (h : windowComplete u = .next t) : t.Inv := by
  obtain ⟨rx, f, b0, b1, hrx, hf, h0, h1, rfl⟩ := windowComplete_eq_next.1 h
  obtain ⟨⟨-, -, hck2, hsync2, -⟩, -, -, -, hoff, hframe, -, hftype, -⟩ := hg.cfg_wf
  have hlen : bs.length = u.cfg.aFrameLen := hbs.length.trans hl
  have hck : (u.ck.setWidth 16).setWidth 32 =
      (sum16 u.cfg (bs.take u.cfg.aCkOff)).setWidth 32 := by
    have hacc := hbs.acc
    rw [coverEnd_attitude hm, hm] at hacc
    rw [hacc]
    simp [algOfPath, accOver, sum16]
  have hsync : bs.take 2 = [b0, b1] := by
    refine List.ext_getElem? fun k => ?_
    have h0' := hbs.readByte h0 (by omega)
    have h1' := hbs.readByte h1 (by omega)
    match k with
    | 0 => simpa using h0'
    | 1 => simpa using h1'
    | k + 2 => simp
  have htype := hbs.readByte hf (by omega)
  refine windowVerdict_inv (bs := bs) (hg.congr rfl rfl rfl rfl) hm hwin
    (hbs.congr rfl rfl rfl rfl rfl rfl) ?_ hlen hsync ?_ hck htype rfl rfl
  · show BitVec.ofNat 16 u.cfg.aFrameLen = u.pos
    rw [← hl, BitVec.ofNat_toNat, BitVec.setWidth_eq]
  · show (BitVec.ofNat 32 rx).toNat = _
    rw [hbs.memRead hrx (by omega)]
    exact ofNat_fieldAt_toNat _ _ (by decide)

theorem windowEnd_inv {t : State} (h : s.Inv) (hst : s.st = .collect)
    (hb : s.pos.toNat < s.cfg.bufSize)
    (heq : ((s.store b).coverWindow b).pos.toNat = s.cfg.aFrameLen)
    (hc : windowComplete ((s.store b).coverWindow b) = .next t) : t.Inv := by
  obtain ⟨bs, hbs, -⟩ := h.held_frame (.inr (.inr (.inr (.inl hst))))
  have hm := h.mode_attitude hst
  obtain ⟨hcfg, hmode, -⟩ := coverWindow_sameHost (s.store b) b
  obtain ⟨-, hshreg, hshcnt, -⟩ := coverWindow_keeps (s.store b) b
  refine windowComplete_inv (coverWindow_grounded (h.grounded.store hb b) b) (hmode.trans hm)
    ?_ (hbs.coverWindow hm hb h.grounded.bufSize_le b) (by rw [hcfg]; exact heq) hc
  rw [hshreg, hshcnt]
  exact h.window_empty (by simp [hst])

end

/-! ### Every step keeps the invariant -/

section
variable {s t : State}

theorem byteEffect_inv {b : Byte} (h : s.Inv) (he : ByteEffect s b t) : t.Inv := by
  cases he with
  | untaken => exact h
  | shift hst => exact shiftIn_inv h hst
  | lock hst hb => exact lock_inv h hst hb
  | header hst hb hne => exact header_inv h hst hb hne
  | headerEnd hst hb heq hid htype hlen => exact headerEnd_inv h hst hb heq hid htype hlen
  | body hst hb => exact body_inv h hst hb
  | trailer hst hb hne => exact trailer_inv h hst hb hne
  | trailerEnd hst hb heq hrx => exact trailerEnd_inv h hst hb heq hrx
  | window hst hb hne => exact window_inv h hst hb hne
  | windowEnd hst hb heq hc => exact windowEnd_inv h hst hb heq hc

/-- A transport failure drops what was stored (40_frame_engine.md R120). -/
theorem takeFault_inv (h : s.Inv) (hr : s.inReady = true) : s.takeFault.Inv where
  cfg_wf := h.cfg_wf
  buf_wf := h.buf_wf
  buf_in_range := h.buf_in_range
  gnss_states := by simp
  attitude_states := by simp
  pos_at_rest _ := rfl
  window_empty _ := ⟨rfl, rfl⟩
  result_none := by simp
  fault_io := by simp
  attitude_ck hm _ := h.attitude_ck hm fun hst => by
    simp [State.inReady, hst, EngineState.receiving] at hr
  unit_sum := h.unit_sum
  stored hs := absurd hs (by simp [State.Storing])

theorem streamStep_inv {e : StreamEvent} (h : s.Inv) (hs : streamStep e s = .next t) :
    t.Inv := by
  cases e with
  | byte b => exact byteEffect_inv h (byteStep_effect hs)
  | err =>
    rcases errStep_eq_next.1 hs with ⟨hr, rfl⟩ | ⟨-, rfl⟩
    · exact takeFault_inv h hr
    · exact h

/-- A new value of the unit's accumulator, short in SUM16, disturbs nothing else. -/
theorem State.Inv.withUnit (h : s.Inv) {a : Alg} {c : Word}
    (hc : a = .sum16 → c.extractLsb' 16 16 = 0) :
    ({ s with xalg := a, xacc := c } : State).Inv where
  cfg_wf := h.cfg_wf
  buf_wf := h.buf_wf
  buf_in_range := h.buf_in_range
  gnss_states := h.gnss_states
  attitude_states := h.attitude_states
  pos_at_rest := h.pos_at_rest
  window_empty := h.window_empty
  result_none := h.result_none
  fault_io := h.fault_io
  attitude_ck := h.attitude_ck
  unit_sum := hc
  stored hs := by
    obtain ⟨bs, hb, hf⟩ := h.held_frame hs
    exact stored_iff.2 ⟨bs, hb.congr rfl rfl rfl rfl rfl rfl, hf⟩

theorem newFrame_inv (h : s.Inv) : s.newFrame.Inv :=
  restart_inv (h.grounded.congr rfl rfl rfl rfl) rfl

/-- In `IDLE` and in `FAULT` nothing is stored and nothing is in the scanner's window. -/
theorem State.Inv.at_rest (h : s.Inv) (hst : s.st = .idle ∨ s.st = .fault) :
    s.pos = 0 ∧ s.shreg = 0 ∧ s.shcnt = 0 := by
  have hno : ¬s.Storing ∧ s.st ≠ .hunt := by
    rcases hst with hst | hst <;> simp [State.Storing, hst]
  exact ⟨h.pos_at_rest hno.1, h.window_empty hno.2⟩

theorem commandEffect_inv {i : Instr} (h : s.Inv) (he : CommandEffect s i t) : t.Inv := by
  cases he with
  | nothing => exact h
  | setmode m hst =>
    obtain ⟨hpos, hwin⟩ := h.at_rest (.inl hst)
    exact inv_of_idle (h.grounded.congr rfl rfl rfl rfl) hst hpos hwin
      (h.result_none.2 (by simp [hst]))
  | start | ack => exact newFrame_inv h
  | stop => exact inv_of_idle (h.grounded.congr rfl rfl rfl rfl) rfl rfl ⟨rfl, rfl⟩ rfl
  | flush hr => exact restart_inv h.grounded (h.result_eq_none hr)
  | clrerr hst =>
    obtain ⟨hpos, hwin⟩ := h.at_rest (.inr hst)
    exact inv_of_idle (h.grounded.congr rfl rfl rfl rfl) rfl hpos hwin rfl
  | clrcnt | setie | seek | seekb | load => exact h.withOther ..
  | ckinit a => exact h.withUnit fun ha => ha ▸ accInit_sum16_high _
  | ckbyte b => exact h.withUnit fun ha => ha ▸ accUpd_sum16_high ..

theorem commandStep_inv {w : Word} (h : s.Inv) (hs : commandStep w s = .next t) : t.Inv := by
  obtain ⟨i, u, r, d, he, rfl⟩ := commandStep_responds hs
  exact (commandEffect_inv h he).respond r d

theorem step_inv (h : s.Inv) (hs : step s = .next t) : t.Inv := by
  obtain ⟨-, ⟨-, rfl⟩ | ⟨c, cs, -, hev⟩⟩ := step_eq_next hs
  · exact h.awaiting _
  · rcases hev with ⟨-, rfl⟩ | ⟨-, e, -, he⟩ | ⟨-, -, w, -, hw⟩ | ⟨-, -, -, rfl⟩
    · exact resetWith_inv h.cfg_wf h.buf_wf h.buf_in_range cs
    · exact streamStep_inv (h.awaiting _) he
    · exact commandStep_inv (h.awaiting _) hw
    · exact h.awaiting _

theorem fresh_inv (h : s.Fresh) : s.Inv := by
  obtain ⟨hw, hs⟩ := h
  rw [hs]
  exact resetWith_inv (m := []) hw .nil (by simp) s.cycles

theorem reachable_inv (h : Reachable s) : s.Inv := by
  induction h with
  | fresh h => exact fresh_inv h
  | step _ hs ih => exact step_inv ih hs

end

end Sys2Proof.Machine

open Sys2Proof Sys2Proof.Machine

/-- Settles O51: `resetWith_inv` with an empty `BUF`. -/
theorem resetSatisfiesInv : Obligations.ResetSatisfiesInv := fun _ h => fresh_inv h

/-- Settles O52: a split on the five kinds of step, and on the effects of bytes and commands. -/
theorem everyStepKeepsInv : Obligations.EveryStepKeepsInv := fun _ _ h hs => step_inv h hs

/-- Settles O54: by induction on the run, from O51 and O52. -/
theorem reachableStatesSatisfyInv : Obligations.ReachableStatesSatisfyInv :=
  fun _ h => reachable_inv h

end

