-- ==== Sys2Proof/Proofs/StateClauses.lean ====
section
/-! The clauses of 10_state.md R44 in the states of the invariant, how a step moves `POS` and `CK`,
and the run that clause (g) of R44 as written does not allow for (log entry 5). -/

namespace Sys2Proof.Machine

/-! ### The clauses about one state -/

section
variable {s : State}

/-- Bytes that read lie inside `BUF`. -/
theorem readBytes_le_bufSize {n : Nat} {bs : List Byte} (h : s.readBytes 0 n = .ok bs) :
    n ≤ s.cfg.bufSize := by
  have hl := State.readBytes_length h
  cases n with
  | zero => exact Nat.zero_le _
  | succ n => exact (State.readByte_eq_ok.1 (State.readByte_of_readBytes h (a := n) (by omega))).1

theorem State.Inv.pos_le_bufSize (h : s.Inv) : s.pos.toNat ≤ s.cfg.bufSize := by
  by_cases hs : s.Storing
  · obtain ⟨bs, hbs, -⟩ := h.held_frame hs
    exact readBytes_le_bufSize hbs.reads
  · simp [h.pos_at_rest hs]

theorem State.Inv.done_result (h : s.Inv) (hst : s.st = .done) :
    s.result = .ok ∨ s.result = .eCksum ∨ s.result = .eSync := by
  have hnone : s.result ≠ .none := fun hn => (h.result_none.1 hn).1 hst
  have hio : s.result ≠ .eIo := fun he => by simp [h.fault_io.2 he] at hst
  cases hr : s.result <;> simp_all

/-- The stored bytes of a held frame, and what its path says of them. -/
theorem State.Inv.done_frame (h : s.Inv) (hst : s.st = .done) :
    ∃ bs, s.Holds bs ∧ s.flen = s.pos ∧ (s.mode = .gnss → s.HeldGnss bs) ∧
      (s.mode = .attitude → s.HeldWindow bs) := by
  obtain ⟨bs, hbs, hf⟩ := h.held_frame (.inr (.inr (.inr (.inr hst))))
  cases hm : s.mode with
  | gnss =>
    obtain ⟨hflen, hheld⟩ := (frameSoFar_done_gnss hst hm).1 hf
    exact ⟨bs, hbs, hflen, fun _ => hheld, nofun⟩
  | attitude =>
    obtain ⟨hflen, hheld⟩ := (frameSoFar_done_attitude hst hm).1 hf
    exact ⟨bs, hbs, hflen, nofun, fun _ => hheld⟩

theorem State.Inv.done_gnss (h : s.Inv) (hst : s.st = .done) (hm : s.mode = .gnss) :
    s.result = .ok ∧ s.rxck = s.calcCk := by
  obtain ⟨bs, -, -, hheld, -⟩ := h.done_frame hst
  obtain ⟨-, -, -, -, -, hcode, hok⟩ := hheld hm
  exact ⟨hok, hcode⟩

/-- An accepted window's trailer is its sum. -/
theorem fieldAt_of_windowResult_ok {p : Params} {bs : List Byte} (h : windowResult p bs = .ok) :
    fieldAt bs p.aCkOff 2 = (sum16 p (bs.take p.aCkOff)).toNat := by
  by_contra hne
  unfold windowResult at h
  rw [if_pos hne] at h
  split at h <;> cases h

/-- The received and the computed code of an accepted frame agree, on either path. -/
theorem State.Inv.done_ok_codes (h : s.Inv) (hst : s.st = .done) (hok : s.result = .ok) :
    s.rxck = s.calcCk := by
  cases hm : s.mode with
  | gnss => exact (h.done_gnss hst hm).2
  | attitude =>
    obtain ⟨bs, -, -, -, hheld⟩ := h.done_frame hst
    obtain ⟨-, hrx, hcc, -, -, -, hres⟩ := hheld hm
    exact (rxck_eq_calcCk_iff hrx hcc).2 (fieldAt_of_windowResult_ok (hres.symm.trans hok))

/-- Every byte of a held frame is below `POS` and has been written. -/
theorem State.Inv.done_bytes (h : s.Inv) (hst : s.st = .done) :
    ∀ a < s.flen.toNat, a < s.pos.toNat ∧ ∃ b, s.readByte a = .ok b := by
  obtain ⟨bs, hbs, hflen, -⟩ := h.done_frame hst
  intro a ha
  rw [hflen] at ha
  exact ⟨ha, _, State.readByte_of_readBytes hbs.reads (hbs.length.symm ▸ ha)⟩

end

/-! ### How a step moves `POS` -/

/-- `POS` and the bytes below it, from `s` to `t`, where `b` is the byte the step takes, if it takes
one: back to 0, as they were, at 3 with the sync marker stored, or one further with `b` stored
(10_state.md R14, 40_frame_engine.md R101, R104). -/
def PosMoves (s : State) (b : Option Byte) (t : State) : Prop :=
  t.pos = 0 ∨
  (t.pos = s.pos ∧ ∀ a < s.pos.toNat, t.readByte a = s.readByte a) ∨
  (s.pos = 0 ∧ t.pos = 3 ∧
    t.readBytes 0 3 = .ok [s.cfg.gSync0, s.cfg.gSync1, s.cfg.gSync2]) ∨
  (t.pos.toNat = s.pos.toNat + 1 ∧ (∀ a < s.pos.toNat, t.readByte a = s.readByte a) ∧
    ∃ c, b = some c ∧ t.readByte s.pos.toNat = .ok c)

section
variable {s t : State}

theorem posMoves_of_same (b : Option Byte) (hpos : t.pos = s.pos) (hcfg : t.cfg = s.cfg)
    (hbuf : t.buf = s.buf) : PosMoves s b t :=
  .inr (.inl ⟨hpos, fun _ _ => State.readByte_congr (by rw [hcfg]) (by rw [hbuf])⟩)

/-- A step that stores the byte at `POS` and counts it. -/
theorem posMoves_of_store {b : Byte} (hb : s.pos.toNat < s.cfg.bufSize)
    (hmax : s.cfg.bufSize ≤ 65535) (hpos : t.pos = s.pos + 1) (hcfg : t.cfg = s.cfg)
    (hbuf : t.buf = (s.store b).buf) : PosMoves s (some b) t := by
  refine .inr (.inr (.inr ⟨by rw [hpos, pos_succ_toNat (by omega)], fun a ha => ?_, b, rfl, ?_⟩))
  · refine State.readByte_congr (by rw [hcfg]) ?_
    rw [hbuf, State.store, Memory.read_write_other _ _ (by omega)]
  · rw [State.readByte_eq_ok, hbuf, hcfg]
    exact ⟨hb, Memory.read_write_same ..⟩

/-- What a completing step does after it has stored its byte: it keeps `POS` and `BUF`, or begins
anew. -/
theorem posMoves_of_verdict {b : Byte} {u : State} (hb : s.pos.toNat < s.cfg.bufSize)
    (hmax : s.cfg.bufSize ≤ 65535) (hpos : u.pos = s.pos + 1) (hcfg : u.cfg = s.cfg)
    (hbuf : u.buf = (s.store b).buf) (hcfg' : t.cfg = u.cfg)
    (hv : t.pos = 0 ∨ (t.pos = u.pos ∧ t.buf = u.buf)) : PosMoves s (some b) t := by
  rcases hv with hzero | ⟨hpos', hbuf'⟩
  · exact .inl hzero
  · exact posMoves_of_store hb hmax (hpos'.trans hpos) (hcfg'.trans hcfg) (hbuf'.trans hbuf)

theorem afterHeader_pos (s : State) :
    s.afterHeader.pos = 0 ∨ (s.afterHeader.pos = s.pos ∧ s.afterHeader.buf = s.buf) := by
  rcases afterHeader_cases s with ⟨-, h⟩ | ⟨-, -, h⟩ | ⟨-, -, h⟩ <;> simp [h]

theorem afterBodyByte_pos (s : State) :
    s.afterBodyByte.pos = s.pos ∧ s.afterBodyByte.buf = s.buf := by
  unfold State.afterBodyByte
  split <;> exact ⟨rfl, rfl⟩

theorem gnssVerdict_pos (s : State) :
    s.gnssVerdict.pos = 0 ∨ (s.gnssVerdict.pos = s.pos ∧ s.gnssVerdict.buf = s.buf) := by
  rcases gnssVerdict_cases s with ⟨-, h⟩ | ⟨-, h⟩ <;> simp [h]

/-- A completed window is held as it was stored (40_frame_engine.md R117). -/
theorem windowComplete_holds (h : windowComplete s = .next t) :
    t.st = .done ∧ t.pos = s.pos ∧ t.buf = s.buf := by
  obtain ⟨rx, f, b0, b1, -, -, -, -, rfl⟩ := windowComplete_eq_next.1 h
  rcases windowVerdict_cases _ b0 b1 with ⟨-, h⟩ | ⟨-, -, -, h⟩ | ⟨-, -, -, h⟩ <;> rw [h] <;>
    exact ⟨rfl, rfl, rfl⟩

theorem byteEffect_posMoves {b : Byte} (h : s.Inv) (he : ByteEffect s b t) :
    PosMoves s (some b) t := by
  have hmax := h.grounded.bufSize_le
  cases he with
  | untaken => exact posMoves_of_same _ rfl rfl rfl
  | shift => exact posMoves_of_same _ rfl rfl rfl
  | lock hst hb =>
    refine .inr (.inr (.inl ⟨h.pos_at_rest (by simp [State.Storing, hst]), rfl, ?_⟩))
    exact (State.readBytes_congr rfl fun _ _ => rfl).trans (withSync_reads (s := s.shiftIn b) hb)
  | header _ hb => exact posMoves_of_store hb hmax rfl rfl rfl
  | trailer _ hb => exact posMoves_of_store hb hmax rfl rfl rfl
  | @headerEnd id len type _ hb =>
    exact posMoves_of_verdict (u := ((s.store b).cover b).latchHeader id type len) hb hmax rfl rfl
      rfl (afterHeader_sameHost _).1 (afterHeader_pos _)
  | body _ hb =>
    exact posMoves_of_verdict (u := (s.store b).cover b) hb hmax rfl rfl rfl
      (afterBodyByte_sameHost _).1 (.inr (afterBodyByte_pos _))
  | trailerEnd _ hb =>
    exact posMoves_of_verdict (u := (s.store b).pass) hb hmax rfl rfl rfl
      (gnssVerdict_sameHost _).1 (gnssVerdict_pos _)
  | window _ hb =>
    obtain ⟨hcfg, -⟩ := coverWindow_sameHost (s.store b) b
    obtain ⟨-, -, -, -, hbuf, hpos⟩ := coverWindow_keeps (s.store b) b
    exact posMoves_of_store hb hmax hpos hcfg hbuf
  | windowEnd _ hb _ hc =>
    obtain ⟨hcfg, -⟩ := coverWindow_sameHost (s.store b) b
    obtain ⟨-, -, -, -, hbuf, hpos⟩ := coverWindow_keeps (s.store b) b
    exact posMoves_of_verdict hb hmax hpos hcfg hbuf (windowComplete_sameHost hc).1
      (.inr (windowComplete_holds hc).2)

theorem commandEffect_posMoves {i : Instr} (he : CommandEffect s i t) (b : Option Byte) :
    PosMoves s b t := by
  cases he with
  | start | stop | ack | flush => exact .inl rfl
  | _ => exact posMoves_of_same b rfl rfl rfl

/-- The presented response and the inputs do not matter to `PosMoves`. -/
theorem PosMoves.of_awaiting {cs : List Cycle} {b : Option Byte}
    (h : PosMoves (s.awaiting cs) b t) : PosMoves s b t := by
  have hread : ∀ a, (s.awaiting cs).readByte a = s.readByte a := fun _ =>
    State.readByte_congr rfl rfl
  simpa only [PosMoves, State.awaiting_pos, State.awaiting_cfg, hread] using h

/-- The waiting cycle's stream event is the byte `b`. -/
def State.Takes (s : State) (b : Byte) : Prop :=
  ∃ c cs, s.cycles = c :: cs ∧ c.streamEvent s.inReady = some (.byte b)

theorem step_posMoves (h : s.Inv) (hs : step s = .next t) :
    ∃ b, PosMoves s b t ∧ ∀ x, b = some x → s.Takes x := by
  obtain ⟨-, ⟨-, rfl⟩ | ⟨c, cs, hcs, hev⟩⟩ := step_eq_next hs
  · exact ⟨none, posMoves_of_same _ rfl rfl rfl, nofun⟩
  · rcases hev with ⟨-, rfl⟩ | ⟨-, e, he, hstep⟩ | ⟨-, -, w, -, hw⟩ | ⟨-, -, -, rfl⟩
    · exact ⟨none, .inl rfl, nofun⟩
    · cases e with
      | byte b =>
        have hmoves := byteEffect_posMoves (h.awaiting _) (byteStep_effect hstep)
        exact ⟨some b, hmoves.of_awaiting, fun x hx => ⟨c, cs, hcs, by rw [he, Option.some.inj hx]⟩⟩
      | err =>
        rcases errStep_eq_next.1 hstep with ⟨-, rfl⟩ | ⟨-, rfl⟩
        · exact ⟨none, .inl rfl, nofun⟩
        · exact ⟨none, posMoves_of_same _ rfl rfl rfl, nofun⟩
    · obtain ⟨i, u, r, d, heff, rfl⟩ := commandStep_responds hw
      exact ⟨none, (commandEffect_posMoves heff none).of_awaiting, nofun⟩
    · exact ⟨none, posMoves_of_same _ rfl rfl rfl, nofun⟩

end

/-! ### Where `CK` can come to be long in attitude mode -/

section
variable {s t : State}

theorem firstState_ne_idle (m : DevicePath) : firstState m ≠ .idle := by
  cases m <;> simp [firstState]

/-- A byte that is taken never leads to `IDLE`. -/
theorem byteEffect_st {b : Byte} (he : ByteEffect s b t) : t = s ∨ t.st ≠ .idle := by
  cases he with
  | untaken => exact .inl rfl
  | shift hst | header hst | trailer hst => exact .inr (by simp [hst, State.store])
  | lock => exact .inr (by simp)
  | @headerEnd id len type =>
    refine .inr ?_
    rcases afterHeader_cases (((s.store b).cover b).latchHeader id type len) with
      ⟨-, h⟩ | ⟨-, -, h⟩ | ⟨-, -, h⟩ <;> simp [h, firstState_ne_idle]
  | body hst =>
    refine .inr ?_
    unfold State.afterBodyByte
    split <;> simp [hst, State.store]
  | trailerEnd =>
    refine .inr ?_
    rcases gnssVerdict_cases _ with ⟨-, h⟩ | ⟨-, h⟩ <;> rw [h] <;> simp [firstState_ne_idle]
  | window hst =>
    obtain ⟨hst', -⟩ := coverWindow_keeps (s.store b) b
    exact .inr (by rw [hst']; simp [hst, State.store])
  | windowEnd _ _ _ hc => exact .inr (by simp [(windowComplete_holds hc).1])

theorem streamStep_st {e : StreamEvent} (h : streamStep e s = .next t) :
    t = s ∨ t.st ≠ .idle := by
  cases e with
  | byte b => exact byteEffect_st (byteStep_effect h)
  | err =>
    rcases errStep_eq_next.1 h with ⟨-, rfl⟩ | ⟨-, rfl⟩
    · exact .inr (by simp)
    · exact .inl rfl

theorem commandEffect_ck {i : Instr} (he : CommandEffect s i t) :
    t.ck = s.ck ∨ t.st ≠ .idle := by
  cases he with
  | start | ack | flush => exact .inr (firstState_ne_idle _)
  | _ => exact .inl rfl

/-- A step that ends in `IDLE` keeps `CK` or is a reset. -/
theorem step_ck (h : step s = .next t) : t.ck = s.ck ∨ t.mode = .gnss ∨ t.st ≠ .idle := by
  obtain ⟨-, ⟨-, rfl⟩ | ⟨c, cs, -, hev⟩⟩ := step_eq_next h
  · exact .inl rfl
  · rcases hev with ⟨-, rfl⟩ | ⟨-, e, -, he⟩ | ⟨-, -, w, -, hw⟩ | ⟨-, -, -, rfl⟩
    · exact .inr (.inl rfl)
    · rcases streamStep_st he with rfl | hst
      · exact .inl rfl
      · exact .inr (.inr hst)
    · obtain ⟨i, u, r, d, heff, rfl⟩ := commandStep_responds hw
      exact (commandEffect_ck heff).imp id .inr
    · exact .inl rfl

theorem step_attitude_ck (h : s.Inv) (hs : step s = .next t) (hm : t.mode = .attitude)
    (hck : s.ck.extractLsb' 16 16 = 0) : t.ck.extractLsb' 16 16 = 0 := by
  rcases step_ck hs with hsame | hgnss | hst
  · rw [hsame, hck]
  · rw [hgnss] at hm; cases hm
  · exact (step_inv h hs).attitude_ck hm hst

end

/-- Right after reset with `SETMODE 1` waiting on the command port. -/
def resetThenSetmode : State := State.reset.withFetchWord 32 0x04000001

/-- `SETMODE 1` writes `MODE` and leaves `CK` at `CRC_INIT` (43_control.md R191). -/
theorem step_resetThenSetmode :
    step resetThenSetmode =
      .next { State.reset with mode := .attitude, rsp := some ⟨.ok, 0⟩ } := rfl

theorem resetThenSetmode_fresh : resetThenSetmode.Fresh := ⟨by decide, rfl⟩

end Sys2Proof.Machine

open Sys2Proof Sys2Proof.Machine

/-- Settles O55: the clauses about one state read off the invariant; those about a step are
`step_posMoves` and `step_attitude_ck`. -/
theorem soundStatesMeetR44 : Obligations.SoundStatesMeetR44 := by
  refine ⟨fun s h => ?_, fun s t h hs => ?_, fun s t h hs _ hm hck => step_attitude_ck h hs hm hck⟩
  · have hdone : s.st = .done → s.pos = s.flen := fun hst => by
      obtain ⟨bs, -, hflen, -⟩ := h.done_frame hst
      exact hflen.symm
    exact ⟨h.pos_le_bufSize, fun hst => (h.window_empty hst).2,
      fun hst => ⟨hdone hst, h.done_result hst⟩, h.fault_io, h.done_gnss,
      fun hst hok => ⟨h.done_ok_codes hst hok, h.done_bytes hst⟩, h.attitude_ck, h.unit_sum⟩
  · obtain ⟨b, hmoves, htakes⟩ := step_posMoves h hs
    refine hmoves.imp_right (.imp_right (.imp_right ?_))
    rintro ⟨hpos, hbelow, x, hx, hread⟩
    obtain ⟨c, cs, hcs, he⟩ := htakes x hx
    exact ⟨hpos, hbelow, c, cs, x, hcs, he, hread⟩

/-- Refutes O56: after reset, `SETMODE 1` gives attitude mode with `CK = 0xFFFFFFFF`. -/
theorem not_attitudeModeAlwaysShortCk : ¬ Obligations.AttitudeModeAlwaysShortCk := by
  intro h
  have hreach := Reachable.step (.fresh resetThenSetmode_fresh) step_resetThenSetmode
  exact absurd (h _ hreach rfl) (by decide)

end

