-- ==== Sys2Proof/Proofs/Memory.lean ====
section
/-! The statements of 20_memory.md about who writes `BUF`: no command does (R51), and a byte step
stores the sync marker at a lock or its own byte at `POS` (R52). -/

namespace Sys2Proof.Machine

/-! ### The commands -/

theorem commandEffect_keeps_buf {s t : State} {i : Instr} (h : CommandEffect s i t) :
    t.cfg = s.cfg ∧ t.buf = s.buf := by
  cases h <;> exact ⟨rfl, rfl⟩

/-! ### The byte steps -/

@[simp] theorem State.store_buf (s : State) (b : Byte) :
    (s.store b).buf = s.buf.write s.pos.toNat b := rfl

theorem afterHeader_buf (s : State) : s.afterHeader.buf = s.buf := by
  rcases afterHeader_cases s with ⟨-, h⟩ | ⟨-, -, h⟩ | ⟨-, -, h⟩ <;> simp [h]

theorem gnssVerdict_buf (s : State) : s.gnssVerdict.buf = s.buf := by
  rcases gnssVerdict_cases s with ⟨-, h⟩ | ⟨-, h⟩ <;> simp [h]

/-- The receiving states in which a byte step stores its own byte (40_frame_engine.md R105 to
R116): all but `HUNT`. -/
def State.StoresByte (s : State) : Prop :=
  s.st = .header ∨ s.st = .body ∨ s.st = .trailer ∨ s.st = .collect

/-- What the byte `b`, taken in the state `s`, makes of `BUF`, where `t` is the state after it. -/
inductive BufEffect (s : State) (b : Byte) (t : State) : Prop where
  | untaken : s.inReady = false → t = s → BufEffect s b t
  | scanned : s.st = .hunt → t.st = .hunt → t.buf = s.buf → BufEffect s b t
  | locked : s.st = .hunt → t.st = .header → 2 < s.cfg.bufSize → t.buf = s.withSync.buf →
      BufEffect s b t
  | stored : s.StoresByte → s.pos.toNat < s.cfg.bufSize → t.buf = (s.store b).buf →
      BufEffect s b t

theorem byteEffect_buf {s t : State} {b : Byte} (h : ByteEffect s b t) : BufEffect s b t := by
  cases h with
  | untaken hr => exact .untaken hr rfl
  | shift hst => exact .scanned hst hst rfl
  | lock hst hb => exact .locked hst rfl hb rfl
  | header hst hb => exact .stored (.inl hst) hb rfl
  | headerEnd hst hb => exact .stored (.inl hst) hb (afterHeader_buf _)
  | body hst hb => exact .stored (.inr (.inl hst)) hb (afterBodyByte_pos _).2
  | trailer hst hb => exact .stored (.inr (.inr (.inl hst))) hb rfl
  | trailerEnd hst hb => exact .stored (.inr (.inr (.inl hst))) hb (gnssVerdict_buf _)
  | window hst hb =>
    obtain ⟨-, -, -, -, hbuf, -⟩ := coverWindow_keeps (s.store b) b
    exact .stored (.inr (.inr (.inr hst))) hb hbuf
  | windowEnd hst hb _ hc =>
    obtain ⟨-, -, -, -, hbuf, -⟩ := coverWindow_keeps (s.store b) b
    obtain ⟨-, -, hbuf'⟩ := windowComplete_holds hc
    exact .stored (.inr (.inr (.inr hst))) hb (hbuf'.trans hbuf)

theorem State.StoresByte.inReady {s : State} (h : s.StoresByte) : s.inReady = true :=
  (inReady_iff s).2 (.inr h)

theorem State.StoresByte.ne_hunt {s : State} (h : s.StoresByte) : s.st ≠ .hunt := by
  rcases h with h | h | h | h <;> simp [h]

theorem withSync_read_other (s : State) {a : Nat} (h : 2 < a) :
    s.withSync.buf.read a = s.buf.read a := by
  rw [State.withSync, Memory.read_write_other _ _ (by omega),
    Memory.read_write_other _ _ (by omega), Memory.read_write_other _ _ (by omega)]

end Sys2Proof.Machine

open Sys2Proof Sys2Proof.Machine

/-- Settles O40: a split on the effects of a command, none of which writes `BUF`. -/
theorem commandsNeverWriteBuf : Obligations.CommandsNeverWriteBuf := by
  intro i s t h
  obtain ⟨u, r, d, he, rfl⟩ := exec_responds h
  obtain ⟨hcfg, hbuf⟩ := commandEffect_keeps_buf he
  exact ⟨hbuf, fun a => State.readByte_congr (congrArg _ hcfg) (congrArg (·.read a) hbuf)⟩

/-- Settles O44: a split on what a byte step makes of `BUF`. -/
theorem byteStepStoresOneByte : Obligations.ByteStepStoresOneByte := by
  intro s t b h
  have heff := byteStep_effect h
  obtain ⟨hcfg, -⟩ := byteEffect_sameHost heff
  have hread : ∀ a, t.buf.read a = s.buf.read a → t.readByte a = s.readByte a := fun _ hb =>
    State.readByte_congr (by rw [hcfg]) hb
  cases byteEffect_buf heff with
  | untaken hr ht =>
    subst ht
    refine ⟨fun _ _ _ => rfl, fun hst hno => absurd hst hno, fun hst => ?_, fun _ => rfl⟩
    exact absurd (State.StoresByte.inReady hst) (by simp [hr])
  | scanned hst hst' hbuf =>
    exact ⟨fun _ a _ => hread a (by rw [hbuf]), fun _ hno => absurd hst' hno, by simp [hst],
      by simp [hst]⟩
  | locked hst hst' hb hbuf =>
    have hsync : t.readBytes 0 3 = .ok [s.cfg.gSync0, s.cfg.gSync1, s.cfg.gSync2] :=
      (State.readBytes_congr (by rw [hcfg]; rfl) fun _ _ => by rw [hbuf]).trans (withSync_reads hb)
    refine ⟨fun _ a ha => ?_, fun _ _ => ?_, by simp [hst], by simp [hst]⟩
    · have ha2 : 2 < a := ha.resolve_left (by simp [hst'])
      exact hread a (by rw [hbuf, withSync_read_other s ha2])
    · exact ⟨State.readByte_of_readBytes hsync (a := 0) (by simp),
        State.readByte_of_readBytes hsync (a := 1) (by simp),
        State.readByte_of_readBytes hsync (a := 2) (by simp)⟩
  | stored hst hb hbuf =>
    have hhunt := hst.ne_hunt
    refine ⟨fun h => absurd h hhunt, fun h => absurd h hhunt, fun _ => ⟨?_, fun a ha => ?_⟩,
      fun hno => ?_⟩
    · rw [State.readByte_eq_ok, hcfg, hbuf]
      exact ⟨hb, Memory.read_write_same ..⟩
    · exact hread a (by rw [hbuf, State.store_buf, Memory.read_write_other _ _ ha])
    · rcases hno with h | h | h <;> simp [State.StoresByte, h] at hst

end

