-- ==== Sys2Proof/Proofs/StaleBytes.lean ====
section
/-! The bytes of `BUF` that have not been stored since the last `restart()` are unobservable
(20_memory.md R56). `State.Twin` relates a state to a buffer that agrees with its own below `POS`;
every step of the two states answers, and answers twins again (`AnswersAlike`). -/

namespace Sys2Proof.Machine

/-! ### Two states that differ in `BUF` only -/

/-- The state `s` with another buffer. -/
def State.withBuf (s : State) (m : Memory) : State := { s with buf := m }

@[simp] theorem State.withBuf_cfg (s : State) (m : Memory) : (s.withBuf m).cfg = s.cfg := rfl

/-- Every byte below `POS` has been written, and reads the same in the buffer `m`. -/
structure State.Twin (s : State) (m : Memory) : Prop where
  stored : ∃ bs, s.readBytes 0 s.pos.toNat = .ok bs
  same : ∀ a < s.pos.toNat, m.read a = s.buf.read a

/-- In a sound state every byte below `POS` has been written (10_state.md R14). -/
theorem State.Inv.twin {s : State} {m : Memory} (h : s.Inv)
    (hsame : ∀ a < s.pos.toNat, m.read a = s.buf.read a) : s.Twin m := by
  refine ⟨?_, hsame⟩
  by_cases hs : s.Storing
  · obtain ⟨bs, hbs, -⟩ := h.held_frame hs
    exact ⟨bs, hbs.reads⟩
  · exact ⟨[], by rw [h.pos_at_rest hs]; rfl⟩

section
variable {s t : State} {m : Memory}

theorem twin_of_pos_zero (h : s.pos = 0) (m : Memory) : s.Twin m :=
  ⟨⟨[], by rw [h]; rfl⟩, by simp [h]⟩

theorem State.Twin.congr (h : s.Twin m) (hcfg : t.cfg = s.cfg) (hpos : t.pos = s.pos)
    (hbuf : t.buf = s.buf) : t.Twin m := by
  obtain ⟨bs, hbs⟩ := h.stored
  refine ⟨⟨bs, ?_⟩, by rw [hpos, hbuf]; exact h.same⟩
  rw [hpos, ← hbs]
  exact State.readBytes_congr (by rw [hcfg]) fun _ _ => by rw [hbuf]

/-- What keeps `POS` and `BUF`, or begins anew, keeps the relation. -/
theorem State.Twin.of_verdict (h : s.Twin m) (hcfg : t.cfg = s.cfg)
    (hv : t.pos = 0 ∨ (t.pos = s.pos ∧ t.buf = s.buf)) : t.Twin m := by
  rcases hv with hzero | ⟨hpos, hbuf⟩
  · exact twin_of_pos_zero hzero m
  · exact h.congr hcfg hpos hbuf

/-- Both buffers store the byte at `POS`, which grows by 1. -/
theorem State.Twin.store {b : Byte} (h : s.Twin m) (hb : s.pos.toNat < s.cfg.bufSize)
    (hmax : s.cfg.bufSize ≤ 65535) (hcfg : t.cfg = s.cfg) (hpos : t.pos = s.pos + 1)
    (hbuf : t.buf = (s.store b).buf) : t.Twin (m.write s.pos.toNat b) := by
  have hsucc : t.pos.toNat = s.pos.toNat + 1 := by rw [hpos, pos_succ_toNat (by omega)]
  obtain ⟨bs, hbs⟩ := h.stored
  refine ⟨⟨bs ++ [b], ?_⟩, fun a ha => ?_⟩
  · rw [hsucc]
    exact State.readBytes_write_end hbs hb (by rw [hcfg]) hbuf
  · rw [hbuf, State.store_buf, Memory.read_write, Memory.read_write]
    split
    · rfl
    · exact h.same a (by omega)

/-- A range below `POS` reads the same, and has a value. -/
theorem State.Twin.memRead (h : s.Twin m) {a n : Nat} (hle : a + n ≤ s.pos.toNat) :
    ∃ v, s.memRead a n = .ok v ∧ (s.withBuf m).memRead a n = .ok v := by
  obtain ⟨bs, hbs⟩ := h.stored
  have hv := State.memRead_of_readBytes hbs (State.readBytes_length hbs ▸ hle)
  have hsame : (s.withBuf m).memRead a n = s.memRead a n :=
    State.memRead_congr rfl fun k hk => h.same (a + k) (by omega)
  exact ⟨_, hv, hsame.trans hv⟩

/-- A byte below `POS` reads the same, and has a value. -/
theorem State.Twin.readByte (h : s.Twin m) {a : Nat} (ha : a < s.pos.toNat) :
    ∃ b, s.readByte a = .ok b ∧ (s.withBuf m).readByte a = .ok b := by
  obtain ⟨bs, hbs⟩ := h.stored
  have hb := State.readByte_of_readBytes hbs (State.readBytes_length hbs ▸ ha)
  have hsame : (s.withBuf m).readByte a = s.readByte a :=
    State.readByte_congr rfl (h.same a ha)
  exact ⟨_, hb, hsame.trans hb⟩

end

/-! ### Two steps that answer alike -/

/-- Both outcomes are next states, which differ in `BUF` only and are twins. -/
def AnswersAlike (o o' : Host.Outcome State Fault Refusal) : Prop :=
  ∃ t m', o = .next t ∧ o' = .next (t.withBuf m') ∧ t.Twin m'

section
variable {s : State} {m : Memory}

theorem State.Twin.alike (h : s.Twin m) : AnswersAlike (.next s) (.next (s.withBuf m)) :=
  ⟨s, m, rfl, rfl, h⟩

theorem alike_ite {c : Prop} [Decidable c] {o₁ o₂ o₁' o₂' : Host.Outcome State Fault Refusal}
    (h₁ : c → AnswersAlike o₁ o₁') (h₂ : ¬c → AnswersAlike o₂ o₂') :
    AnswersAlike (if c then o₁ else o₂) (if c then o₁' else o₂') := by
  split
  · next h => exact h₁ h
  · next h => exact h₂ h

theorem alike_orFault {α : Type} {r r' : Except Fault α}
    {k k' : α → Host.Outcome State Fault Refusal} (h : ∃ a, r = .ok a ∧ r' = .ok a)
    (hk : ∀ a, AnswersAlike (k a) (k' a)) : AnswersAlike (orFault r k) (orFault r' k') := by
  obtain ⟨a, rfl, rfl⟩ := h
  exact hk a

/-- Both states store the byte at `POS` and go on. -/
theorem alike_store {b : Byte} {k k' : State → Host.Outcome State Fault Refusal}
    (hb : s.pos.toNat < s.cfg.bufSize)
    (hk : AnswersAlike (k (s.store b)) (k' ((s.store b).withBuf (m.write s.pos.toNat b)))) :
    AnswersAlike (orFault (s.memWrite s.pos.toNat b) k)
      (orFault ((s.withBuf m).memWrite (s.withBuf m).pos.toNat b) k') := by
  rw [orFault_ok (memWrite_pos.2 ⟨hb, rfl⟩),
    orFault_ok (memWrite_pos (s := s.withBuf m) (b := b).2 ⟨hb, rfl⟩)]
  exact hk

end

/-! ### The commands -/

section
variable {s : State} {m : Memory}

theorem respond_alike (h : s.Twin m) (r : Status) (d : Word) :
    AnswersAlike (.next (s.respond r d)) (.next ((s.withBuf m).respond r d)) :=
  (h.congr (t := s.respond r d) rfl rfl rfl).alike

theorem whenLegal_alike {s' : State} (h : s.Twin m) (h' : s'.Twin m) (legal : Bool) :
    AnswersAlike (whenLegal legal s s') (whenLegal legal (s.withBuf m) (s'.withBuf m)) :=
  alike_ite (fun _ => respond_alike h' _ _) fun _ => respond_alike h _ _

theorem readReg_withBuf (s : State) (m : Memory) (i : BitVec 6) :
    (s.withBuf m).readReg i = s.readReg i := rfl

theorem execRdreg_alike (h : s.Twin m) (i : BitVec 6) :
    AnswersAlike (execRdreg i s) (execRdreg i (s.withBuf m)) := by
  unfold execRdreg
  rw [readReg_withBuf]
  cases s.readReg i with
  | none => exact respond_alike h _ _
  | some v => exact respond_alike h _ _

theorem fieldAnswer_alike (h : s.Twin m) (lsb : BitVec 5) (w : Nat) (v : Word) :
    AnswersAlike (fieldAnswer lsb w v s) (fieldAnswer lsb w v (s.withBuf m)) :=
  alike_ite (fun _ => respond_alike h _ _) fun _ => respond_alike h _ _

/-- A load that passes its range check reads below `FLEN`, which is `POS` in `DONE`
(42_unpack.md R165). -/
theorem load_alike (h : s.Inv) (ht : s.Twin m) (n : Nat) (sg : Bool) (slot : Slot)
    (am : AddrMode) : AnswersAlike (load n sg slot am s) (load n sg slot am (s.withBuf m)) := by
  refine alike_ite (fun hok => ?_) fun _ => respond_alike ht _ _
  obtain ⟨hst, -, -, hle⟩ := loadStatus_eq_ok.1 hok
  obtain ⟨bs, -, hflen, -⟩ := h.done_frame hst
  refine alike_orFault (ht.memRead (hflen ▸ hle)) fun v => respond_alike ?_ _ _
  exact ht.congr (t := s.loaded _ _) rfl rfl rfl

theorem exec_alike (h : s.Inv) (ht : s.Twin m) (i : Instr) :
    AnswersAlike (exec i s) (exec i (s.withBuf m)) := by
  cases i with
  | nop | ckread | flags => exact respond_alike ht _ _
  | clrcnt => exact respond_alike (s := s.clearCounters) (ht.congr rfl rfl rfl) _ _
  | setie e => exact respond_alike (s := { s with ie := e }) (ht.congr rfl rfl rfl) _ _
  | ckinit a =>
    exact respond_alike (s := { s with xalg := a, xacc := accInit s.cfg a })
      (ht.congr rfl rfl rfl) _ _
  | ckbyte b =>
    exact respond_alike (s := { s with xacc := accUpd s.cfg s.xalg s.xacc b })
      (ht.congr rfl rfl rfl) _ _
  | seek off => exact respond_alike (s := { s with cur := off }) (ht.congr rfl rfl rfl) _ _
  | seekb off =>
    exact respond_alike (s := { s with cur := s.bodyOff + off }) (ht.congr rfl rfl rfl) _ _
  | setmode d => exact whenLegal_alike (s' := { s with mode := d }) ht (ht.congr rfl rfl rfl) _
  | start | ack => exact whenLegal_alike (s' := s.newFrame) ht (twin_of_pos_zero rfl m) _
  | stop => exact whenLegal_alike (s' := s.goIdle) ht (twin_of_pos_zero rfl m) _
  | flush => exact whenLegal_alike (s' := s.restart) ht (twin_of_pos_zero rfl m) _
  | clrerr => exact whenLegal_alike (s' := s.leaveFault) ht (ht.congr rfl rfl rfl) _
  | rdreg i => exact execRdreg_alike ht i
  | bits | sbits => exact fieldAnswer_alike ht _ _ _
  | ldu8 | ldu8Cur | lds8 | lds8Cur | ldu16 | ldu16Cur | lds16 | lds16Cur | ld32 | ld32Cur =>
    exact load_alike h ht _ _ _ _

theorem commandStep_alike (h : s.Inv) (ht : s.Twin m) (w : Word) :
    AnswersAlike (commandStep w s) (commandStep w (s.withBuf m)) := by
  unfold commandStep
  cases decode w with
  | error e => exact respond_alike ht _ _
  | ok i => exact exec_alike h ht i

end

/-! ### The stream steps -/

section
variable {s : State} {m : Memory}

/-- Where a byte is stored at `POS`, the address exists (20_memory.md R52). -/
theorem State.Inv.pos_lt_bufSize (h : s.Inv) (hst : s.StoresByte) :
    s.pos.toNat < s.cfg.bufSize := by
  have hstoring : s.Storing := by rcases hst with h | h | h | h <;> simp [State.Storing, h]
  obtain ⟨bs, hbs, hf⟩ := h.held_frame hstoring
  obtain ⟨⟨-, hck4, -, -, -⟩, -, hfits, -, -, -, -, -, hframe, -⟩ := h.cfg_wf
  have hl := hbs.length
  rcases hst with hst | hst | hst | hst
  · obtain ⟨-, hlt, -⟩ := (frameSoFar_header hst).1 hf
    omega
  · obtain ⟨-, hlt, -, -, -, -, -, hbody⟩ := (frameSoFar_body hst).1 hf
    omega
  · obtain ⟨-, hlt, -, -, -, -, -, hbody⟩ := (frameSoFar_trailer hst).1 hf
    omega
  · have hlt := (frameSoFar_collect hst).1 hf
    omega

/-- A completed header goes on by its length, whatever `BUF` holds. -/
theorem afterHeader_alike (ht : s.Twin m) :
    AnswersAlike (.next s.afterHeader) (.next (s.withBuf m).afterHeader) := by
  have hcomm : (s.withBuf m).afterHeader = s.afterHeader.withBuf m := by
    simp only [State.afterHeader, apply_ite (State.withBuf · m)]
    rfl
  rw [hcomm]
  exact (ht.of_verdict (afterHeader_sameHost s).1 (afterHeader_pos s)).alike

theorem afterBodyByte_alike (ht : s.Twin m) :
    AnswersAlike (.next s.afterBodyByte) (.next (s.withBuf m).afterBodyByte) := by
  have hcomm : (s.withBuf m).afterBodyByte = s.afterBodyByte.withBuf m := by
    simp only [State.afterBodyByte, apply_ite (State.withBuf · m)]
    rfl
  rw [hcomm]
  obtain ⟨hpos, hbuf⟩ := afterBodyByte_pos s
  exact (ht.congr (afterBodyByte_sameHost s).1 hpos hbuf).alike

/-- The verdict on a GNSS frame looks at its latched codes only. -/
theorem gnssVerdict_alike (ht : s.Twin m) :
    AnswersAlike (.next s.gnssVerdict) (.next (s.withBuf m).gnssVerdict) := by
  have hcomm : (s.withBuf m).gnssVerdict = s.gnssVerdict.withBuf m := by
    simp only [State.gnssVerdict, apply_ite (State.withBuf · m)]
    rfl
  rw [hcomm]
  exact (ht.of_verdict (gnssVerdict_sameHost s).1 (gnssVerdict_pos s)).alike

/-- A verdict on a window keeps it as it was stored (40_frame_engine.md R117). -/
theorem windowVerdict_pos (s : State) (b0 b1 : Byte) :
    (s.windowVerdict b0 b1).pos = s.pos ∧ (s.windowVerdict b0 b1).buf = s.buf := by
  rcases windowVerdict_cases s b0 b1 with ⟨-, h⟩ | ⟨-, -, -, h⟩ | ⟨-, -, -, h⟩ <;> rw [h] <;>
    exact ⟨rfl, rfl⟩

theorem windowVerdict_alike (ht : s.Twin m) (b0 b1 : Byte) :
    AnswersAlike (.next (s.windowVerdict b0 b1)) (.next ((s.withBuf m).windowVerdict b0 b1)) := by
  have hcomm : (s.withBuf m).windowVerdict b0 b1 = (s.windowVerdict b0 b1).withBuf m := by
    simp only [State.windowVerdict, apply_ite (State.withBuf · m)]
    rfl
  rw [hcomm]
  obtain ⟨hpos, hbuf⟩ := windowVerdict_pos s b0 b1
  exact (ht.congr (windowVerdict_sameHost s b0 b1).1 hpos hbuf).alike

theorem coverWindow_withBuf (s : State) (m : Memory) (b : Byte) :
    (s.withBuf m).coverWindow b = (s.coverWindow b).withBuf m := by
  simp only [State.coverWindow, apply_ite (State.withBuf · m)]
  rfl

/-- A lock stores the sync marker in both buffers (40_frame_engine.md R104). -/
theorem lock_twin (hb : 2 < s.cfg.bufSize) (m : Memory) :
    s.withSync.lockRegs.Twin (s.withBuf m).withSync.buf where
  stored := ⟨_, (State.readBytes_congr rfl fun _ _ => rfl).trans (withSync_reads hb)⟩
  same a ha := by
    have ha3 : a < 3 := ha
    simp only [State.lockRegs_buf, State.withSync, Memory.read_write]
    interval_cases a <;> simp

theorem huntStep_alike (h : s.Inv) (ht : s.Twin m) (b : Byte) :
    AnswersAlike (huntStep s b) (huntStep (s.withBuf m) b) := by
  have hb : 2 < s.cfg.bufSize := by
    obtain ⟨⟨-, hck4, -⟩, -, hfits, -⟩ := h.cfg_wf
    omega
  refine alike_ite (fun _ => ?_) fun _ => ?_
  · exact ⟨(s.shiftIn b).withSync.lockRegs, _, lockStep_eq_next.2 ⟨hb, rfl⟩,
      lockStep_eq_next.2 ⟨hb, rfl⟩, lock_twin (s := s.shiftIn b) hb m⟩
  · exact (ht.congr (t := s.shiftIn b) rfl rfl rfl).alike

theorem headerComplete_alike (hw : s.cfg.WF) (ht : s.Twin m) (hp : s.pos.toNat = s.cfg.gHdrLen) :
    AnswersAlike (headerComplete s) (headerComplete (s.withBuf m)) := by
  obtain ⟨-, ⟨-, -, -, -, -, -, hid, htype, hlen⟩, -⟩ := hw
  refine alike_orFault (ht.memRead (by omega)) fun id => ?_
  refine alike_orFault (ht.readByte (by omega)) fun type => ?_
  refine alike_orFault (ht.memRead (by omega)) fun len => ?_
  exact afterHeader_alike (ht.congr (t := s.latchHeader id type len) rfl rfl rfl)

theorem headerStep_alike (h : s.Inv) (ht : s.Twin m) (hst : s.st = .header) (b : Byte) :
    AnswersAlike (headerStep s b) (headerStep (s.withBuf m) b) := by
  have hb := h.pos_lt_bufSize (.inl hst)
  have ht' : ((s.store b).cover b).Twin (m.write s.pos.toNat b) :=
    ht.store hb h.grounded.bufSize_le rfl rfl rfl
  refine alike_store hb (alike_ite (fun hp => ?_) fun _ => ht'.alike)
  exact headerComplete_alike (s := (s.store b).cover b) h.cfg_wf ht' hp

theorem bodyStep_alike (h : s.Inv) (ht : s.Twin m) (hst : s.st = .body) (b : Byte) :
    AnswersAlike (bodyStep s b) (bodyStep (s.withBuf m) b) := by
  have hb := h.pos_lt_bufSize (.inr (.inl hst))
  have ht' : ((s.store b).cover b).Twin (m.write s.pos.toNat b) :=
    ht.store hb h.grounded.bufSize_le rfl rfl rfl
  exact alike_store hb (afterBodyByte_alike ht')

theorem trailerComplete_alike (ht : s.Twin m) (hp : 4 ≤ s.pos.toNat) :
    AnswersAlike (trailerComplete s) (trailerComplete (s.withBuf m)) := by
  refine alike_orFault (ht.memRead (by omega)) fun rx => ?_
  exact gnssVerdict_alike (ht.congr (t := s.latchFrame _ _ _) rfl rfl rfl)

theorem trailerStep_alike (h : s.Inv) (ht : s.Twin m) (hst : s.st = .trailer) (b : Byte) :
    AnswersAlike (trailerStep s b) (trailerStep (s.withBuf m) b) := by
  have hb := h.pos_lt_bufSize (.inr (.inr (.inl hst)))
  have ht' : (s.store b).pass.Twin (m.write s.pos.toNat b) :=
    ht.store hb h.grounded.bufSize_le rfl rfl rfl
  refine alike_store hb (alike_ite (fun hp => ?_) fun _ => ht'.alike)
  exact trailerComplete_alike (s := (s.store b).pass) ht' (hp ▸ Nat.le_add_left ..)

theorem windowComplete_alike (hw : s.cfg.WF) (ht : s.Twin m)
    (hp : s.pos.toNat = s.cfg.aFrameLen) :
    AnswersAlike (windowComplete s) (windowComplete (s.withBuf m)) := by
  obtain ⟨⟨-, -, hck2, hsync2, -⟩, -, -, -, hoff, hframe, -, hftype, -⟩ := hw
  refine alike_orFault (ht.memRead (by omega)) fun rx => ?_
  refine alike_orFault (ht.readByte (by omega)) fun f => ?_
  refine alike_orFault (ht.readByte (by omega)) fun b0 => ?_
  refine alike_orFault (ht.readByte (by omega)) fun b1 => ?_
  refine windowVerdict_alike ?_ b0 b1
  exact ht.congr rfl rfl rfl

theorem collectStep_alike (h : s.Inv) (ht : s.Twin m) (hst : s.st = .collect) (b : Byte) :
    AnswersAlike (collectStep s b) (collectStep (s.withBuf m) b) := by
  have hb := h.pos_lt_bufSize (.inr (.inr (.inr hst)))
  obtain ⟨hcfg, -⟩ := coverWindow_sameHost (s.store b) b
  obtain ⟨-, -, -, -, hbuf, hpos⟩ := coverWindow_keeps (s.store b) b
  have ht' : ((s.store b).coverWindow b).Twin (m.write s.pos.toNat b) :=
    ht.store hb h.grounded.bufSize_le hcfg hpos hbuf
  have hend := coverWindow_withBuf (s.store b) (m.write s.pos.toNat b) b
  refine alike_store hb ?_
  rw [hend]
  refine alike_ite (fun hp => ?_) fun _ => ht'.alike
  exact windowComplete_alike (by rw [hcfg]; exact h.cfg_wf) ht' (by rw [hcfg]; exact hp)

theorem byteStep_alike (h : s.Inv) (ht : s.Twin m) (b : Byte) :
    AnswersAlike (byteStep s b) (byteStep (s.withBuf m) b) := by
  have hst' : (s.withBuf m).st = s.st := rfl
  unfold byteStep
  rw [hst']
  cases hst : s.st with
  | hunt => exact huntStep_alike h ht b
  | header => exact headerStep_alike h ht hst b
  | body => exact bodyStep_alike h ht hst b
  | trailer => exact trailerStep_alike h ht hst b
  | collect => exact collectStep_alike h ht hst b
  | idle | done | fault => exact ht.alike

theorem streamStep_alike (h : s.Inv) (ht : s.Twin m) (e : StreamEvent) :
    AnswersAlike (streamStep e s) (streamStep e (s.withBuf m)) := by
  cases e with
  | byte b => exact byteStep_alike h ht b
  | err =>
    exact alike_ite (fun _ => (twin_of_pos_zero (s := s.takeFault) rfl m).alike) fun _ => ht.alike

end

/-! ### Every step -/

section
variable {s : State} {m : Memory}

theorem State.Twin.awaiting (ht : s.Twin m) (cs : List Cycle) : (s.awaiting cs).Twin m :=
  ht.congr rfl rfl rfl

theorem cycleStep_alike (h : s.Inv) (ht : s.Twin m) (c : Cycle) (cs : List Cycle) :
    AnswersAlike (cycleStep c cs s) (cycleStep c cs (s.withBuf m)) := by
  have hready : (s.withBuf m).readyDuring c = s.readyDuring c := rfl
  refine alike_ite (fun _ => ?_) fun _ => ?_
  · exact (twin_of_pos_zero (s := resetStep (s.awaiting cs)) rfl m).alike
  · rw [hready]
    cases c.streamEvent (s.readyDuring c) with
    | some e => exact streamStep_alike (h.awaiting _) (ht.awaiting _) e
    | none =>
      cases c.command with
      | some w => exact commandStep_alike (h.awaiting _) (ht.awaiting _) w
      | none => exact (ht.awaiting cs).alike

/-- Twins step alike, whatever inputs are waiting. In particular a sound state's step answers. -/
theorem step_alike (h : s.Inv) (ht : s.Twin m) : AnswersAlike (step s) (step (s.withBuf m)) := by
  cases hc : s.cycles with
  | nil =>
    rw [step_of_no_cycles h.cfg_wf hc, step_of_no_cycles (s := s.withBuf m) h.cfg_wf hc]
    exact (ht.awaiting []).alike
  | cons c cs =>
    rw [step_of_cycles_cons h.cfg_wf hc, step_of_cycles_cons (s := s.withBuf m) h.cfg_wf hc]
    exact cycleStep_alike h ht c cs

end

end Sys2Proof.Machine

open Sys2Proof Sys2Proof.Machine

/-- Settles O60: a sound state is the twin of every buffer that agrees with its own below `POS`, and
twins step alike. -/
theorem staleBytesAreUnobservable : Obligations.StaleBytesAreUnobservable := by
  intro s m h _ hsame
  obtain ⟨t, m', hs, hs', ht⟩ := step_alike h (h.twin hsame)
  exact ⟨t, m', hs, hs', ht.same⟩

end

