-- ==== Sys2Proof/Proofs/Encoding.lean ====
section
/-! The statements of 30_encoding.md: decoding and encoding are inverse to each other (R80 to R86),
the opcode map selects the words that decode (R86), and a word that matches no row answers `ILLEGAL`
(R87). The key lemma is `decode_eq_ok_iff`: a word decodes to a command exactly when the command is
well formed and the word is its word. -/

namespace Sys2Proof

/-! ### What each format decodes, as the fields that encode it (30_encoding.md R81 to R84) -/

theorem eq_plainFields_iff {f : Fields} {opc : BitVec 6} {imm : Half} :
    f = plainFields opc imm ↔ f.opc = opc ∧ f.rsv = 0 ∧ f.slot = 0 ∧ f.am = 0 ∧ f.imm = imm := by
  obtain ⟨fopc, slot, am, rsv, fimm⟩ := f
  simp only [plainFields, Fields.mk.injEq]
  tauto

theorem eq_absFields_iff {f : Fields} {opc : BitVec 6} {slot : Slot} {off : Half} :
    f = absFields opc slot off ↔
      f.opc = opc ∧ f.rsv = 0 ∧ f.slot = slotCode slot ∧ f.am = 0 ∧ f.imm = off := by
  obtain ⟨fopc, fslot, am, rsv, imm⟩ := f
  simp only [absFields, Fields.mk.injEq]
  tauto

theorem eq_curFields_iff {f : Fields} {opc : BitVec 6} {slot : Slot} :
    f = curFields opc slot ↔
      f.opc = opc ∧ f.rsv = 0 ∧ f.slot = slotCode slot ∧ f.am = 1 ∧ f.imm = 0 := by
  obtain ⟨fopc, fslot, am, rsv, imm⟩ := f
  simp only [curFields, Fields.mk.injEq]
  tauto

/-- The codes of `slot` are one to one (30_encoding.md R80). -/
theorem eq_slotCode_iff {v : BitVec 2} {slot : Slot} : v = slotCode slot ↔ slotOf v = slot :=
  ⟨fun h => by simp [h], fun h => by simp [← h]⟩

/-- The operand of a format I command, found again in the immediate that holds it. -/
theorem setWidth_setWidth_operand {n : Nat} (hn : n ≤ 16) (v : BitVec n) :
    (v.setWidth 16).setWidth n = v := by
  rw [BitVec.setWidth_setWidth_of_le v hn, BitVec.setWidth_eq]

theorem formatZ_eq_ok_iff {f : Fields} {i j : Instr} :
    formatZ f i = .ok j ↔ f = plainFields f.opc 0 ∧ i = j := by
  rw [formatZ_eq_ok, eq_plainFields_iff]
  tauto

theorem formatI_eq_ok_iff {f : Fields} {n : Nat} (hn : n ≤ 16) {mk : BitVec n → Instr} {j : Instr} :
    formatI f n mk = .ok j ↔
      ∃ v : BitVec n, f = plainFields f.opc (v.setWidth 16) ∧ mk v = j := by
  simp only [formatI_eq_ok, eq_plainFields_iff]
  constructor
  · rintro ⟨hrsv, hslot, ham, himm, hj⟩
    exact ⟨_, ⟨trivial, hrsv, hslot, ham, himm⟩, hj⟩
  · rintro ⟨v, ⟨-, hrsv, hslot, ham, himm⟩, hj⟩
    have hv : f.imm.setWidth n = v := by rw [himm, setWidth_setWidth_operand hn]
    exact ⟨hrsv, hslot, ham, by rw [hv, himm], by rw [hv, hj]⟩

theorem formatL_eq_ok_iff {f : Fields} {abs : Slot → Half → Instr} {cur : Slot → Instr}
    {j : Instr} :
    formatL f abs cur = .ok j ↔
      (∃ slot off, f = absFields f.opc slot off ∧ abs slot off = j) ∨
      ∃ slot, f = curFields f.opc slot ∧ cur slot = j := by
  simp only [formatL_eq_ok, eq_absFields_iff, eq_curFields_iff, eq_slotCode_iff]
  constructor
  · rintro ⟨hrsv, ⟨ham, hj⟩ | ⟨ham, himm, hj⟩⟩
    · exact .inl ⟨_, _, ⟨trivial, hrsv, rfl, ham, rfl⟩, hj⟩
    · exact .inr ⟨_, ⟨trivial, hrsv, rfl, ham, himm⟩, hj⟩
  · rintro (⟨slot, off, ⟨-, hrsv, rfl, ham, rfl⟩, hj⟩ | ⟨slot, ⟨-, hrsv, rfl, ham, himm⟩, hj⟩)
    · exact ⟨hrsv, .inl ⟨ham, hj⟩⟩
    · exact ⟨hrsv, .inr ⟨ham, himm, hj⟩⟩

/-- A bit-field immediate by its four parts: two of zeros, `lsb`, and the width minus one
(30_encoding.md R84). -/
theorem eq_fieldImm_iff {imm : Half} {lsb : BitVec 5} {w : Nat} :
    imm = fieldImm lsb w ↔
      imm.extractLsb' 5 3 = 0 ∧ imm.extractLsb' 13 3 = 0 ∧ imm.extractLsb' 0 5 = lsb ∧
        imm.extractLsb' 8 5 = BitVec.ofNat 5 (w - 1) := by
  unfold fieldImm
  generalize BitVec.ofNat 5 (w - 1) = v
  constructor
  · rintro rfl
    refine ⟨?_, ?_, ?_, ?_⟩ <;> apply BitVec.eq_of_getLsbD_eq <;> intro i hi <;>
      simp only [BitVec.getLsbD_extractLsb', BitVec.getLsbD_append] <;> grind
  · rintro ⟨h5, h13, rfl, rfl⟩
    have key : imm = imm.extractLsb' 13 3 ++ imm.extractLsb' 8 5 ++ imm.extractLsb' 5 3 ++
        imm.extractLsb' 0 5 := by
      apply BitVec.eq_of_getLsbD_eq
      intro i hi
      simp only [BitVec.getLsbD_extractLsb', BitVec.getLsbD_append]
      grind
    rw [h5, h13] at key
    exact key

/-- The width of a bit field is one more than the five bits that hold it (30_encoding.md R84). -/
theorem eq_ofNat_pred_iff {v : BitVec 5} {w : Nat} (hw : FieldWidth w) :
    v = BitVec.ofNat 5 (w - 1) ↔ v.toNat + 1 = w := by
  obtain ⟨hlo, hhi⟩ := hw
  rw [← BitVec.toNat_inj, BitVec.toNat_ofNat, Nat.mod_eq_of_lt (by omega)]
  omega

theorem formatB_eq_ok_iff {f : Fields} {mk : BitVec 5 → Nat → Instr} {j : Instr} :
    formatB f mk = .ok j ↔
      ∃ lsb w, FieldWidth w ∧ f = plainFields f.opc (fieldImm lsb w) ∧ mk lsb w = j := by
  simp only [formatB_eq_ok, eq_plainFields_iff, eq_fieldImm_iff]
  constructor
  · rintro ⟨hrsv, hslot, ham, h5, h13, hj⟩
    have hw : FieldWidth ((f.imm.extractLsb' 8 5).toNat + 1) := ⟨by omega, by omega⟩
    exact ⟨_, _, hw, ⟨trivial, hrsv, hslot, ham, h5, h13, rfl, (eq_ofNat_pred_iff hw).2 rfl⟩, hj⟩
  · rintro ⟨lsb, w, hw, ⟨-, hrsv, hslot, ham, h5, h13, hlsb, hwidth⟩, hj⟩
    rw [eq_ofNat_pred_iff hw] at hwidth
    exact ⟨hrsv, hslot, ham, h5, h13, by rw [hlsb, hwidth, hj]⟩

/-! ### Decoding is the inverse of encoding -/

/-- The command is well formed, and these are the fields of its word. -/
def Instr.HasFields (i : Instr) (f : Fields) : Prop := i.wellFormed = true ∧ encodeFields i = f

theorem decodeFields_of_hasFields {f : Fields} {i : Instr} (h : i.HasFields f) :
    decodeFields f = .ok i := by
  obtain ⟨hwf, rfl⟩ := h
  cases i with
  | nop | start | stop | ack | flush | clrerr | clrcnt | ckread =>
    exact formatZ_eq_ok_iff.2 ⟨rfl, rfl⟩
  | setmode m =>
    exact (formatI_eq_ok_iff (mk := fun v => .setmode (pathOf v)) (by decide)).2
      ⟨pathCode m, rfl, by rw [pathOf_pathCode]⟩
  | ckinit a =>
    exact (formatI_eq_ok_iff (mk := fun v => .ckinit (algOf v)) (by decide)).2
      ⟨algCode a, rfl, by rw [algOf_algCode]⟩
  | setie v | rdreg v | ckbyte v | flags v =>
    exact (formatI_eq_ok_iff (by decide)).2 ⟨v, rfl, rfl⟩
  | seek off | seekb off =>
    exact (formatI_eq_ok_iff le_rfl).2 ⟨off, by rw [BitVec.setWidth_eq]; rfl, rfl⟩
  | ldu8 slot off | lds8 slot off | ldu16 slot off | lds16 slot off | ld32 slot off =>
    exact formatL_eq_ok_iff.2 (.inl ⟨slot, off, rfl, rfl⟩)
  | ldu8Cur slot | lds8Cur slot | ldu16Cur slot | lds16Cur slot | ld32Cur slot =>
    exact formatL_eq_ok_iff.2 (.inr ⟨slot, rfl, rfl⟩)
  | bits lsb w | sbits lsb w =>
    exact formatB_eq_ok_iff.2 ⟨lsb, w, of_decide_eq_true hwf, rfl, rfl⟩

section

variable {f : Fields} {j : Instr} (opc : BitVec 6) (hop : f.opc.toNat = opc.toNat)

include hop

theorem hasFields_of_formatZ {i : Instr}
    (hi : i.HasFields (plainFields opc 0)) (h : formatZ f i = .ok j) : j.HasFields f := by
  obtain rfl := BitVec.eq_of_toNat_eq hop
  obtain ⟨hf, rfl⟩ := formatZ_eq_ok_iff.1 h
  exact hf ▸ hi

theorem hasFields_of_formatI {n : Nat} {mk : BitVec n → Instr} (hn : n ≤ 16)
    (hmk : ∀ v, (mk v).HasFields (plainFields opc (v.setWidth 16)))
    (h : formatI f n mk = .ok j) : j.HasFields f := by
  obtain rfl := BitVec.eq_of_toNat_eq hop
  obtain ⟨v, hf, rfl⟩ := (formatI_eq_ok_iff hn).1 h
  exact hf ▸ hmk v

theorem hasFields_of_formatL {abs : Slot → Half → Instr} {cur : Slot → Instr}
    (habs : ∀ slot off, (abs slot off).HasFields (absFields opc slot off))
    (hcur : ∀ slot, (cur slot).HasFields (curFields opc slot))
    (h : formatL f abs cur = .ok j) : j.HasFields f := by
  obtain rfl := BitVec.eq_of_toNat_eq hop
  obtain ⟨slot, off, hf, rfl⟩ | ⟨slot, hf, rfl⟩ := formatL_eq_ok_iff.1 h
  · exact hf ▸ habs slot off
  · exact hf ▸ hcur slot

theorem hasFields_of_formatB {mk : BitVec 5 → Nat → Instr}
    (hmk : ∀ lsb w, FieldWidth w → (mk lsb w).HasFields (plainFields opc (fieldImm lsb w)))
    (h : formatB f mk = .ok j) : j.HasFields f := by
  obtain rfl := BitVec.eq_of_toNat_eq hop
  obtain ⟨lsb, w, hw, hf, rfl⟩ := formatB_eq_ok_iff.1 h
  exact hf ▸ hmk lsb w hw

end

theorem hasFields_setmode (v : BitVec 1) :
    (Instr.setmode (pathOf v)).HasFields (plainFields 0x01 (v.setWidth 16)) :=
  ⟨rfl, by rw [encodeFields, pathCode_pathOf]⟩

theorem hasFields_ckinit (v : BitVec 1) :
    (Instr.ckinit (algOf v)).HasFields (plainFields 0x10 (v.setWidth 16)) :=
  ⟨rfl, by rw [encodeFields, algCode_algOf]⟩

theorem hasFields_seek (v : Half) : (Instr.seek v).HasFields (plainFields 0x20 (v.setWidth 16)) :=
  ⟨rfl, by rw [encodeFields, BitVec.setWidth_eq]⟩

theorem hasFields_seekb (v : Half) : (Instr.seekb v).HasFields (plainFields 0x21 (v.setWidth 16)) :=
  ⟨rfl, by rw [encodeFields, BitVec.setWidth_eq]⟩

theorem hasFields_bits (lsb : BitVec 5) (w : Nat) (hw : FieldWidth w) :
    (Instr.bits lsb w).HasFields (plainFields 0x28 (fieldImm lsb w)) :=
  ⟨decide_eq_true hw, rfl⟩

theorem hasFields_sbits (lsb : BitVec 5) (w : Nat) (hw : FieldWidth w) :
    (Instr.sbits lsb w).HasFields (plainFields 0x29 (fieldImm lsb w)) :=
  ⟨decide_eq_true hw, rfl⟩

/-- Fields decode only to the command they are the fields of: one case per assigned opcode, by its
format. -/
theorem hasFields_of_decodeFields {f : Fields} {i : Instr} (h : decodeFields f = .ok i) :
    i.HasFields f := by
  unfold decodeFields at h
  split at h
  next hop => exact hasFields_of_formatZ 0x00 hop ⟨rfl, rfl⟩ h
  next hop => exact hasFields_of_formatI 0x01 hop (by decide) hasFields_setmode h
  next hop => exact hasFields_of_formatZ 0x02 hop ⟨rfl, rfl⟩ h
  next hop => exact hasFields_of_formatZ 0x03 hop ⟨rfl, rfl⟩ h
  next hop => exact hasFields_of_formatZ 0x04 hop ⟨rfl, rfl⟩ h
  next hop => exact hasFields_of_formatZ 0x05 hop ⟨rfl, rfl⟩ h
  next hop => exact hasFields_of_formatZ 0x06 hop ⟨rfl, rfl⟩ h
  next hop => exact hasFields_of_formatZ 0x07 hop ⟨rfl, rfl⟩ h
  next hop => exact hasFields_of_formatI 0x08 hop (by decide) (fun _ => ⟨rfl, rfl⟩) h
  next hop => exact hasFields_of_formatI 0x09 hop (by decide) (fun _ => ⟨rfl, rfl⟩) h
  next hop => exact hasFields_of_formatI 0x10 hop (by decide) hasFields_ckinit h
  next hop => exact hasFields_of_formatI 0x11 hop (by decide) (fun _ => ⟨rfl, rfl⟩) h
  next hop => exact hasFields_of_formatZ 0x12 hop ⟨rfl, rfl⟩ h
  next hop => exact hasFields_of_formatI 0x20 hop le_rfl hasFields_seek h
  next hop => exact hasFields_of_formatI 0x21 hop le_rfl hasFields_seekb h
  next hop => exact hasFields_of_formatL 0x22 hop (fun _ _ => ⟨rfl, rfl⟩) (fun _ => ⟨rfl, rfl⟩) h
  next hop => exact hasFields_of_formatL 0x23 hop (fun _ _ => ⟨rfl, rfl⟩) (fun _ => ⟨rfl, rfl⟩) h
  next hop => exact hasFields_of_formatL 0x24 hop (fun _ _ => ⟨rfl, rfl⟩) (fun _ => ⟨rfl, rfl⟩) h
  next hop => exact hasFields_of_formatL 0x25 hop (fun _ _ => ⟨rfl, rfl⟩) (fun _ => ⟨rfl, rfl⟩) h
  next hop => exact hasFields_of_formatL 0x26 hop (fun _ _ => ⟨rfl, rfl⟩) (fun _ => ⟨rfl, rfl⟩) h
  next hop => exact hasFields_of_formatB 0x28 hop hasFields_bits h
  next hop => exact hasFields_of_formatB 0x29 hop hasFields_sbits h
  next hop => exact hasFields_of_formatI 0x2A hop (by decide) (fun _ => ⟨rfl, rfl⟩) h
  next => cases h

/-- A word decodes to a command exactly when the command is well formed and the word is its word
(30_encoding.md R86). -/
theorem decode_eq_ok_iff {w : Word} {i : Instr} :
    decode w = .ok i ↔ i.wellFormed = true ∧ encode i = w := by
  constructor
  · intro h
    obtain ⟨hwf, hf⟩ := hasFields_of_decodeFields h
    exact ⟨hwf, by rw [encode, hf, wordOf_fieldsOf]⟩
  · rintro ⟨hwf, rfl⟩
    rw [decode_encode_fields, decodeFields_of_hasFields ⟨hwf, rfl⟩]

/-! ### The opcode map (30_encoding.md R86) -/

theorem wordOf_inj {f g : Fields} : wordOf f = wordOf g ↔ f = g :=
  Function.LeftInverse.injective fieldsOf_wordOf |>.eq_iff

/-- A mask of a word masks each field by itself. -/
theorem wordOf_and (f g : Fields) :
    wordOf f &&& wordOf g =
      wordOf ⟨f.opc &&& g.opc, f.slot &&& g.slot, f.am &&& g.am, f.rsv &&& g.rsv,
        f.imm &&& g.imm⟩ := by
  apply BitVec.eq_of_getLsbD_eq
  intro i hi
  simp only [wordOf, BitVec.getLsbD_append, BitVec.getLsbD_and]
  split_ifs <;> rfl

/-- The immediate bits that a format Z, I or B row fixes when the operand is the low `n` bits. -/
def operandMask (n : Nat) : Half := BitVec.allOnes 16 <<< n

/-- A row of a format Z, I or B command: every bit is fixed but those of `imm` outside `mask`. -/
def plainRow (mnemonic : String) (opc : BitVec 6) (mask : Half) : OpcodeRow where
  mnemonic := mnemonic
  pattern := wordOf (plainFields opc 0)
  mask := wordOf ⟨BitVec.allOnes 6, BitVec.allOnes 2, BitVec.allOnes 1, BitVec.allOnes 7, mask⟩

/-- The row of an absolute load: `slot` and `imm` are free. -/
def absRow (mnemonic : String) (opc : BitVec 6) : OpcodeRow where
  mnemonic := mnemonic
  pattern := wordOf (absFields opc .raw 0)
  mask := wordOf ⟨BitVec.allOnes 6, 0, BitVec.allOnes 1, BitVec.allOnes 7, 0⟩

/-- The row of a cursor load: `slot` is free. -/
def curRow (mnemonic : String) (opc : BitVec 6) : OpcodeRow where
  mnemonic := mnemonic
  pattern := wordOf (curFields opc .raw)
  mask := wordOf ⟨BitVec.allOnes 6, 0, BitVec.allOnes 1, BitVec.allOnes 7, BitVec.allOnes 16⟩

/-- The 28 rows by their formats. -/
theorem opcodeMap_eq : opcodeMap =
    [ plainRow "NOP" 0x00 (operandMask 0), plainRow "SETMODE" 0x01 (operandMask 1),
      plainRow "START" 0x02 (operandMask 0), plainRow "STOP" 0x03 (operandMask 0),
      plainRow "ACK" 0x04 (operandMask 0), plainRow "FLUSH" 0x05 (operandMask 0),
      plainRow "CLRERR" 0x06 (operandMask 0), plainRow "CLRCNT" 0x07 (operandMask 0),
      plainRow "SETIE" 0x08 (operandMask 3), plainRow "RDREG" 0x09 (operandMask 6),
      plainRow "CKINIT" 0x10 (operandMask 1), plainRow "CKBYTE" 0x11 (operandMask 8),
      plainRow "CKREAD" 0x12 (operandMask 0), plainRow "SEEK" 0x20 (operandMask 16),
      plainRow "SEEKB" 0x21 (operandMask 16),
      absRow "LDU8" 0x22, curRow "LDU8" 0x22, absRow "LDS8" 0x23, curRow "LDS8" 0x23,
      absRow "LDU16" 0x24, curRow "LDU16" 0x24, absRow "LDS16" 0x25, curRow "LDS16" 0x25,
      absRow "LD32" 0x26, curRow "LD32" 0x26,
      plainRow "BITS" 0x28 0xE0E0, plainRow "SBITS" 0x29 0xE0E0,
      plainRow "FLAGS" 0x2A (operandMask 3) ] := by
  decide

theorem selects_plainRow_iff {f : Fields} {m : String} {opc : BitVec 6} {mask : Half} :
    wordOf f &&& (plainRow m opc mask).mask = (plainRow m opc mask).pattern ↔
      ∃ imm, f = plainFields opc imm ∧ imm &&& mask = 0 := by
  simp only [plainRow, wordOf_and, wordOf_inj, BitVec.and_allOnes, eq_plainFields_iff]
  constructor
  · rintro ⟨hopc, hrsv, hslot, ham, himm⟩
    exact ⟨f.imm, ⟨hopc, hrsv, hslot, ham, rfl⟩, himm⟩
  · rintro ⟨imm, ⟨hopc, hrsv, hslot, ham, rfl⟩, himm⟩
    exact ⟨hopc, hrsv, hslot, ham, himm⟩

theorem selects_absRow_iff {f : Fields} {m : String} {opc : BitVec 6} :
    wordOf f &&& (absRow m opc).mask = (absRow m opc).pattern ↔
      ∃ slot off, f = absFields opc slot off := by
  simp only [absRow, wordOf_and, wordOf_inj, BitVec.and_allOnes, eq_absFields_iff,
    eq_slotCode_iff, BitVec.ofNat_eq_ofNat, BitVec.and_zero]
  constructor
  · rintro ⟨hopc, hrsv, -, ham, -⟩
    exact ⟨_, _, hopc, hrsv, rfl, ham, rfl⟩
  · rintro ⟨slot, off, hopc, hrsv, -, ham, -⟩
    exact ⟨hopc, hrsv, rfl, ham, trivial⟩

theorem selects_curRow_iff {f : Fields} {m : String} {opc : BitVec 6} :
    wordOf f &&& (curRow m opc).mask = (curRow m opc).pattern ↔
      ∃ slot, f = curFields opc slot := by
  simp only [curRow, wordOf_and, wordOf_inj, BitVec.and_allOnes, eq_curFields_iff,
    eq_slotCode_iff, BitVec.ofNat_eq_ofNat, BitVec.and_zero]
  constructor
  · rintro ⟨hopc, hrsv, -, ham, himm⟩
    exact ⟨_, hopc, hrsv, rfl, ham, himm⟩
  · rintro ⟨slot, hopc, hrsv, -, ham, himm⟩
    exact ⟨hopc, hrsv, rfl, ham, himm⟩

theorem exists_operand_of_and_operandMask {n : Nat} {imm : Half} (h : imm &&& operandMask n = 0) :
    ∃ v : BitVec n, imm = v.setWidth 16 := by
  refine ⟨imm.setWidth n, BitVec.eq_of_getLsbD_eq fun i hi => ?_⟩
  have hbit : (imm &&& operandMask n).getLsbD i = false := by rw [h]; simp
  simp only [operandMask, BitVec.getLsbD_and, BitVec.getLsbD_shiftLeft,
    BitVec.getLsbD_allOnes] at hbit
  simp only [BitVec.getLsbD_setWidth, hi]
  by_cases hn : i < n
  · simp [hn]
  · simpa [hn, hi, Nat.sub_lt_of_lt hi] using hbit

theorem exists_field_of_and_fieldMask {imm : Half} (h : imm &&& 0xE0E0 = 0) :
    ∃ lsb w, FieldWidth w ∧ imm = fieldImm lsb w := by
  have hw : FieldWidth ((imm.extractLsb' 8 5).toNat + 1) := ⟨by omega, by omega⟩
  have hbit (i : Nat) : (imm &&& 0xE0E0).getLsbD i = false := by rw [h]; simp
  refine ⟨_, _, hw, eq_fieldImm_iff.2 ⟨?_, ?_, rfl, (eq_ofNat_pred_iff hw).2 rfl⟩⟩
  · apply BitVec.eq_of_getLsbD_eq
    intro i hi
    have := hbit (5 + i)
    interval_cases i <;> simpa using this
  · apply BitVec.eq_of_getLsbD_eq
    intro i hi
    have := hbit (13 + i)
    interval_cases i <;> simpa using this

/-- No row's pattern agrees with another row's on the bits that both rows fix. -/
theorem opcodeMap_disjoint :
    ∀ r ∈ opcodeMap, ∀ r' ∈ opcodeMap, r.pattern &&& r'.mask = r'.pattern &&& r.mask → r = r' := by
  decide

/-- Every word that selects the row is the word of a command of the row's mnemonic. -/
def RowDecodes (r : OpcodeRow) : Prop :=
  ∀ f, wordOf f &&& r.mask = r.pattern → ∃ i : Instr, i.HasFields f ∧ i.mnemonic = r.mnemonic

section

variable {m : String} {opc : BitVec 6}

theorem rowDecodes_operand {n : Nat} {mk : BitVec n → Instr} (hm : ∀ v, (mk v).mnemonic = m)
    (hmk : ∀ v, (mk v).HasFields (plainFields opc (v.setWidth 16))) :
    RowDecodes (plainRow m opc (operandMask n)) := by
  intro f hf
  obtain ⟨imm, rfl, himm⟩ := selects_plainRow_iff.1 hf
  obtain ⟨v, rfl⟩ := exists_operand_of_and_operandMask himm
  exact ⟨mk v, hmk v, hm v⟩

theorem rowDecodes_noOperand {i : Instr} (hm : i.mnemonic = m)
    (hi : i.HasFields (plainFields opc 0)) : RowDecodes (plainRow m opc (operandMask 0)) := by
  refine rowDecodes_operand (mk := fun _ => i) (fun _ => hm) fun v => ?_
  obtain rfl : v = 0#0 := BitVec.of_length_zero
  exact hi

theorem rowDecodes_field {mk : BitVec 5 → Nat → Instr} (hm : ∀ lsb w, (mk lsb w).mnemonic = m)
    (hmk : ∀ lsb w, FieldWidth w → (mk lsb w).HasFields (plainFields opc (fieldImm lsb w))) :
    RowDecodes (plainRow m opc 0xE0E0) := by
  intro f hf
  obtain ⟨imm, rfl, himm⟩ := selects_plainRow_iff.1 hf
  obtain ⟨lsb, w, hw, rfl⟩ := exists_field_of_and_fieldMask himm
  exact ⟨mk lsb w, hmk lsb w hw, hm lsb w⟩

theorem rowDecodes_abs {mk : Slot → Half → Instr} (hm : ∀ slot off, (mk slot off).mnemonic = m)
    (hmk : ∀ slot off, (mk slot off).HasFields (absFields opc slot off)) :
    RowDecodes (absRow m opc) := by
  intro f hf
  obtain ⟨slot, off, rfl⟩ := selects_absRow_iff.1 hf
  exact ⟨mk slot off, hmk slot off, hm slot off⟩

theorem rowDecodes_cur {mk : Slot → Instr} (hm : ∀ slot, (mk slot).mnemonic = m)
    (hmk : ∀ slot, (mk slot).HasFields (curFields opc slot)) : RowDecodes (curRow m opc) := by
  intro f hf
  obtain ⟨slot, rfl⟩ := selects_curRow_iff.1 hf
  exact ⟨mk slot, hmk slot, hm slot⟩

end

/-- Each row is that of one command, whose operands are the bits that the row leaves free. -/
theorem opcodeMap_rowDecodes : ∀ r ∈ opcodeMap, RowDecodes r := by
  simp only [opcodeMap_eq, List.forall_mem_cons]
  exact
    ⟨rowDecodes_noOperand (i := .nop) rfl ⟨rfl, rfl⟩,
     rowDecodes_operand (fun _ => rfl) hasFields_setmode,
     rowDecodes_noOperand (i := .start) rfl ⟨rfl, rfl⟩,
     rowDecodes_noOperand (i := .stop) rfl ⟨rfl, rfl⟩,
     rowDecodes_noOperand (i := .ack) rfl ⟨rfl, rfl⟩,
     rowDecodes_noOperand (i := .flush) rfl ⟨rfl, rfl⟩,
     rowDecodes_noOperand (i := .clrerr) rfl ⟨rfl, rfl⟩,
     rowDecodes_noOperand (i := .clrcnt) rfl ⟨rfl, rfl⟩,
     rowDecodes_operand (mk := .setie) (fun _ => rfl) (fun _ => ⟨rfl, rfl⟩),
     rowDecodes_operand (mk := .rdreg) (fun _ => rfl) (fun _ => ⟨rfl, rfl⟩),
     rowDecodes_operand (fun _ => rfl) hasFields_ckinit,
     rowDecodes_operand (mk := .ckbyte) (fun _ => rfl) (fun _ => ⟨rfl, rfl⟩),
     rowDecodes_noOperand (i := .ckread) rfl ⟨rfl, rfl⟩,
     rowDecodes_operand (fun _ => rfl) hasFields_seek,
     rowDecodes_operand (fun _ => rfl) hasFields_seekb,
     rowDecodes_abs (mk := .ldu8) (fun _ _ => rfl) (fun _ _ => ⟨rfl, rfl⟩),
     rowDecodes_cur (mk := .ldu8Cur) (fun _ => rfl) (fun _ => ⟨rfl, rfl⟩),
     rowDecodes_abs (mk := .lds8) (fun _ _ => rfl) (fun _ _ => ⟨rfl, rfl⟩),
     rowDecodes_cur (mk := .lds8Cur) (fun _ => rfl) (fun _ => ⟨rfl, rfl⟩),
     rowDecodes_abs (mk := .ldu16) (fun _ _ => rfl) (fun _ _ => ⟨rfl, rfl⟩),
     rowDecodes_cur (mk := .ldu16Cur) (fun _ => rfl) (fun _ => ⟨rfl, rfl⟩),
     rowDecodes_abs (mk := .lds16) (fun _ _ => rfl) (fun _ _ => ⟨rfl, rfl⟩),
     rowDecodes_cur (mk := .lds16Cur) (fun _ => rfl) (fun _ => ⟨rfl, rfl⟩),
     rowDecodes_abs (mk := .ld32) (fun _ _ => rfl) (fun _ _ => ⟨rfl, rfl⟩),
     rowDecodes_cur (mk := .ld32Cur) (fun _ => rfl) (fun _ => ⟨rfl, rfl⟩),
     rowDecodes_field (fun _ _ => rfl) hasFields_bits,
     rowDecodes_field (fun _ _ => rfl) hasFields_sbits,
     rowDecodes_operand (mk := .flags) (fun _ => rfl) (fun _ => ⟨rfl, rfl⟩),
     fun _ h => absurd h List.not_mem_nil⟩

/-- Every well-formed command's word selects a row of its mnemonic. -/
theorem rowOfEncoding : ∀ i : Instr, Laws.RowOfEncoding.Statement i
  | .nop => Laws.RowOfEncoding.nop
  | .setmode m => Laws.RowOfEncoding.setmode m
  | .start => Laws.RowOfEncoding.start
  | .stop => Laws.RowOfEncoding.stop
  | .ack => Laws.RowOfEncoding.ack
  | .flush => Laws.RowOfEncoding.flush
  | .clrerr => Laws.RowOfEncoding.clrerr
  | .clrcnt => Laws.RowOfEncoding.clrcnt
  | .setie e => Laws.RowOfEncoding.setie e
  | .rdreg i => Laws.RowOfEncoding.rdreg i
  | .ckinit a => Laws.RowOfEncoding.ckinit a
  | .ckbyte b => Laws.RowOfEncoding.ckbyte b
  | .ckread => Laws.RowOfEncoding.ckread
  | .seek off => Laws.RowOfEncoding.seek off
  | .seekb off => Laws.RowOfEncoding.seekb off
  | .ldu8 slot off => Laws.RowOfEncoding.ldu8 slot off
  | .ldu8Cur slot => Laws.RowOfEncoding.ldu8Cur slot
  | .lds8 slot off => Laws.RowOfEncoding.lds8 slot off
  | .lds8Cur slot => Laws.RowOfEncoding.lds8Cur slot
  | .ldu16 slot off => Laws.RowOfEncoding.ldu16 slot off
  | .ldu16Cur slot => Laws.RowOfEncoding.ldu16Cur slot
  | .lds16 slot off => Laws.RowOfEncoding.lds16 slot off
  | .lds16Cur slot => Laws.RowOfEncoding.lds16Cur slot
  | .ld32 slot off => Laws.RowOfEncoding.ld32 slot off
  | .ld32Cur slot => Laws.RowOfEncoding.ld32Cur slot
  | .bits lsb w => Laws.RowOfEncoding.bits lsb w
  | .sbits lsb w => Laws.RowOfEncoding.sbits lsb w
  | .flags p => Laws.RowOfEncoding.flags p

theorem decode_of_selects {w : Word} {r : OpcodeRow} (hr : r ∈ opcodeMap)
    (h : w &&& r.mask = r.pattern) :
    ∃ i, decode w = .ok i ∧ i.mnemonic = r.mnemonic ∧ encode i = w := by
  rw [← wordOf_fieldsOf w] at h
  obtain ⟨i, ⟨hwf, hf⟩, hm⟩ := opcodeMap_rowDecodes r hr _ h
  have hw : encode i = w := by rw [encode, hf, wordOf_fieldsOf]
  exact ⟨i, decode_eq_ok_iff.2 ⟨hwf, hw⟩, hm, hw⟩

theorem selects_of_decode {w : Word} {i : Instr} (h : decode w = .ok i) :
    ∃ r ∈ opcodeMap, w &&& r.mask = r.pattern ∧ i.mnemonic = r.mnemonic := by
  obtain ⟨hwf, rfl⟩ := decode_eq_ok_iff.1 h
  obtain ⟨r, hr, hm, hsel⟩ := rowOfEncoding i hwf
  exact ⟨r, hr, hsel, hm.symm⟩

/-- No word selects two rows: on the bits that both rows fix it would agree with both patterns. -/
theorem row_eq_of_selects {w : Word} {r r' : OpcodeRow} (hr : r ∈ opcodeMap) (hr' : r' ∈ opcodeMap)
    (h : w &&& r.mask = r.pattern) (h' : w &&& r'.mask = r'.pattern) : r = r' := by
  apply opcodeMap_disjoint r hr r' hr'
  rw [← h, ← h', BitVec.and_assoc, BitVec.and_assoc, BitVec.and_comm r.mask]

/-! ### Illegal words (30_encoding.md R87) -/

theorem decode_error_of_no_row {w : Word} (h : ∀ r ∈ opcodeMap, w &&& r.mask ≠ r.pattern) :
    ∃ e, decode w = .error e := by
  cases hd : decode w with
  | error e => exact ⟨e, rfl⟩
  | ok i =>
    obtain ⟨r, hr, hsel, -⟩ := selects_of_decode hd
    exact absurd hsel (h r hr)

/-- The cases of R87: an unassigned opcode, a bit of `rsv`, `slot` or `am` outside format L, an
immediate bit outside the format's legal bits, a cursor load with an immediate. -/
def IllegalFields (f : Fields) : Prop :=
  (0x0A ≤ f.opc.toNat ∧ f.opc.toNat ≤ 0x0F) ∨ (0x13 ≤ f.opc.toNat ∧ f.opc.toNat ≤ 0x1F) ∨
  f.opc.toNat = 0x27 ∨ 0x2B ≤ f.opc.toNat ∨
  f.rsv ≠ 0 ∨
  ((f.slot ≠ 0 ∨ f.am ≠ 0) ∧ (f.opc.toNat < 0x22 ∨ 0x26 < f.opc.toNat)) ∨
  (f.imm ≠ 0 ∧ (f.opc.toNat = 0x00 ∨ (0x02 ≤ f.opc.toNat ∧ f.opc.toNat ≤ 0x07) ∨
    f.opc.toNat = 0x12)) ∨
  (1 < f.imm.toNat ∧ (f.opc.toNat = 0x01 ∨ f.opc.toNat = 0x10)) ∨
  (7 < f.imm.toNat ∧ (f.opc.toNat = 0x08 ∨ f.opc.toNat = 0x2A)) ∨
  (63 < f.imm.toNat ∧ f.opc.toNat = 0x09) ∨
  (255 < f.imm.toNat ∧ f.opc.toNat = 0x11) ∨
  (f.imm &&& 0xE0E0 ≠ 0 ∧ (f.opc.toNat = 0x28 ∨ f.opc.toNat = 0x29)) ∨
  (f.am = 1 ∧ f.imm ≠ 0 ∧ 0x22 ≤ f.opc.toNat ∧ f.opc.toNat ≤ 0x26)

theorem fieldImm_and_fieldMask (lsb : BitVec 5) (w : Nat) : fieldImm lsb w &&& 0xE0E0 = 0 := by
  apply BitVec.eq_of_getLsbD_eq
  intro i hi
  simp only [fieldImm, BitVec.getLsbD_append, BitVec.getLsbD_and]
  interval_cases i <;> simp

/-- An immediate that holds an operand of `n` bits is below `2 ^ n`. -/
theorem operand_toNat_le {n : Nat} (v : BitVec n) : (v.setWidth 16).toNat ≤ 2 ^ n - 1 := by
  have := v.isLt
  rw [BitVec.toNat_setWidth]
  have := Nat.mod_le v.toNat (2 ^ 16)
  omega

/-- No command's own fields are in a case of R87, by the format of the command. -/
theorem not_illegalFields_encodeFields (i : Instr) : ¬IllegalFields (encodeFields i) := by
  cases i with
  | nop | start | stop | ack | flush | clrerr | clrcnt | ckread =>
    simp [IllegalFields, encodeFields, plainFields]
  | setmode m =>
    simpa [IllegalFields, encodeFields, plainFields] using operand_toNat_le (pathCode m)
  | ckinit a =>
    simpa [IllegalFields, encodeFields, plainFields] using operand_toNat_le (algCode a)
  | setie v | rdreg v | ckbyte v | flags v =>
    simpa [IllegalFields, encodeFields, plainFields] using operand_toNat_le v
  | seek off | seekb off => simp [IllegalFields, encodeFields, plainFields]
  | ldu8 slot off | lds8 slot off | ldu16 slot off | lds16 slot off | ld32 slot off =>
    simp [IllegalFields, encodeFields, absFields]
  | ldu8Cur slot | lds8Cur slot | ldu16Cur slot | lds16Cur slot | ld32Cur slot =>
    simp [IllegalFields, encodeFields, curFields]
  | bits lsb w | sbits lsb w =>
    simpa [IllegalFields, encodeFields, plainFields] using fieldImm_and_fieldMask lsb w

theorem no_row_of_illegalFields {f : Fields} (h : IllegalFields f) :
    ∀ r ∈ opcodeMap, wordOf f &&& r.mask ≠ r.pattern := by
  intro r hr hsel
  obtain ⟨i, ⟨-, rfl⟩, -⟩ := opcodeMap_rowDecodes r hr f hsel
  exact not_illegalFields_encodeFields i h

end Sys2Proof

namespace Sys2Proof.Machine

/-! ### The step of a command word (43_control.md R189) -/

theorem commandStep_of_no_row {w : Word} (s : State)
    (h : ∀ r ∈ opcodeMap, w &&& r.mask ≠ r.pattern) :
    commandStep w s = .next (s.respond .illegal 0) :=
  commandStep_eq_next.2 (.inl ⟨decode_error_of_no_row h, rfl⟩)

theorem commandStep_encode {i : Instr} {s t : State} (hwf : i.wellFormed = true)
    (h : exec i s = .next t) : commandStep (encode i) s = .next t :=
  commandStep_eq_next.2 (.inr ⟨i, decode_eq_ok_iff.2 ⟨hwf, rfl⟩, h⟩)

/-- A cycle without reset and stream event runs its command on the state that awaits the rest
(60_exceptions.md R224). -/
theorem cycleStep_of_command {c : Cycle} {s : State} (cs : List Cycle) (hr : c.rst = false)
    (hs : c.streamEvent s.inReady = none) (hc : c.cmdValid = true) :
    cycleStep c cs s = commandStep c.cmdWord (s.awaiting cs) := by
  simp [cycleStep, State.readyDuring, Cycle.command, hr, hs, hc]

/-- An unassigned register index decodes and answers `BADARG` (43_control.md R199). -/
theorem exec_rdreg_unassigned {i : BitVec 6} (s : State) (hi : 22 < i.toNat) :
    exec (.rdreg i) s = .next (s.respond .badArg 0) :=
  execRdreg_eq_next.2 (.inl ⟨(readReg_eq_none_iff s i).2 hi, rfl⟩)

/-- A bit field that would pass bit 31 answers `BADARG` (42_unpack.md R171, R172). -/
theorem fieldAnswer_past_bit31 {lsb : BitVec 5} {w : Nat} (v : Word) (s : State)
    (h : 32 < lsb.toNat + w) : fieldAnswer lsb w v s = .next (s.respond .badArg 0) :=
  fieldAnswer_eq_next.2 (.inl ⟨h, rfl⟩)

end Sys2Proof.Machine

open Sys2Proof Sys2Proof.Machine

/-- Settles O1: each format decodes the fields that encode its command. -/
theorem decodeOfEncodedCommand : Obligations.DecodeOfEncodedCommand :=
  fun _ h => decode_eq_ok_iff.2 ⟨h, rfl⟩

/-- Settles O2: each format decodes nothing but the fields that encode its command. -/
theorem encodeOfDecodedWord : Obligations.EncodeOfDecodedWord :=
  fun _ _ h => decode_eq_ok_iff.1 h

/-- Settles O3: the rows are disjoint by their patterns, and each row is that of one format. -/
theorem wordsDecodeByOpcodeMap : Obligations.WordsDecodeByOpcodeMap :=
  ⟨rfl, by decide, fun _ _ hr _ hr' => row_eq_of_selects hr hr', fun _ _ => decode_of_selects,
    fun _ _ => selects_of_decode⟩

/-- Settles O4: a word without a row does not decode, no command's fields are in a case of R87, and
the two `BADARG` answers come from commands that decode. -/
theorem illegalWordsAnswerIllegal : Obligations.IllegalWordsAnswerIllegal := by
  refine ⟨fun w s => commandStep_of_no_row s, ?_, fun f => no_row_of_illegalFields, ?_, ?_⟩
  · intro s c cs hw hc hr hs hcmd hno
    calc step s = cycleStep c cs s := step_of_cycles_cons hw hc
      _ = commandStep c.cmdWord (s.awaiting cs) := cycleStep_of_command cs hr hs hcmd
      _ = .next ((s.awaiting cs).respond .illegal 0) := commandStep_of_no_row _ hno
  · intro i s hi
    exact commandStep_encode rfl (exec_rdreg_unassigned s hi)
  · intro lsb w s hw h
    have hwf : decide (FieldWidth w) = true := decide_eq_true hw
    exact ⟨commandStep_encode (i := .bits lsb w) hwf (fieldAnswer_past_bit31 _ s h),
      commandStep_encode (i := .sbits lsb w) hwf (fieldAnswer_past_bit31 _ s h)⟩

/-- Settles O5: each word written out is the word of its command. -/
theorem writtenOutWordsDecode : Obligations.WrittenOutWordsDecode :=
  ⟨decode_eq_ok_iff.2 (by decide), decode_eq_ok_iff.2 (by decide), decode_eq_ok_iff.2 (by decide),
    decode_eq_ok_iff.2 (by decide), decode_eq_ok_iff.2 (by decide), decode_eq_ok_iff.2 (by decide)⟩

end


/-! CRC-32 tells two byte strings apart that differ in one byte (40_frame_engine.md R122,
41_integrity.md R140). A reflected polynomial whose bit 31 is set makes every round injective: the
bit that a round shifts out can be read off bit 31 of its result. -/

namespace Sys2Proof.Machine

/-- After a round bit 31 is the bit that was shifted out. -/
theorem crcRound_getLsbD_31 {poly : Word} (hp : poly.getLsbD 31 = true) (c : Word) :
    (crcRound poly c).getLsbD 31 = c.getLsbD 0 := by
  have hshift : (c >>> 1).getLsbD 31 = false := by simp
  unfold crcRound
  split
  · next h => rw [BitVec.getLsbD_xor, hshift, hp, h]; rfl
  · next h => rw [hshift, Bool.eq_false_of_not_eq_true h]

theorem eq_of_low_bit_of_ushiftRight {c d : Word} (hlow : c.getLsbD 0 = d.getLsbD 0)
    (hhigh : c >>> 1 = d >>> 1) : c = d := by
  refine BitVec.eq_of_getLsbD_eq fun i _ => ?_
  cases i with
  | zero => exact hlow
  | succ i =>
    have hbit := congrArg (·.getLsbD i) hhigh
    simpa only [BitVec.getLsbD_ushiftRight, Nat.add_comm 1 i] using hbit

theorem crcRound_injective {poly : Word} (hp : poly.getLsbD 31 = true) :
    Function.Injective (crcRound poly) := by
  intro c d h
  have hlow : c.getLsbD 0 = d.getLsbD 0 := by
    rw [← crcRound_getLsbD_31 hp, h, crcRound_getLsbD_31 hp]
  refine eq_of_low_bit_of_ushiftRight hlow ?_
  unfold crcRound at h
  rw [hlow] at h
  split at h
  · exact (BitVec.xor_left_inj poly).1 h
  · exact h

theorem crcRounds_injective {poly : Word} (hp : poly.getLsbD 31 = true) (k : Nat) :
    Function.Injective (crcRounds poly k) := by
  induction k with
  | zero => exact Function.injective_id
  | succ k ih => exact ih.comp (crcRound_injective hp)

/-- One byte into two accumulators keeps them apart. -/
theorem crcUpd_injective_acc {p : Params} (hp : p.crcPolyRefl.getLsbD 31 = true) (b : Byte) :
    Function.Injective (crcUpd p · b) := fun _ _ h =>
  (BitVec.xor_left_inj _).1 (crcRounds_injective hp 8 h)

/-- Two bytes into one accumulator set it apart. -/
theorem crcUpd_injective_byte {p : Params} (hp : p.crcPolyRefl.getLsbD 31 = true) (c : Word) :
    Function.Injective (crcUpd p c) := fun b b' h => by
  have hb : b.setWidth 32 = b'.setWidth 32 :=
    (BitVec.xor_right_inj c).1 (crcRounds_injective hp 8 h)
  simpa using congrArg (BitVec.setWidth 8) hb

/-- The bytes that follow keep two accumulators apart. -/
theorem foldl_crcUpd_injective {p : Params} (hp : p.crcPolyRefl.getLsbD 31 = true)
    (bs : List Byte) : Function.Injective (bs.foldl (crcUpd p)) := by
  induction bs with
  | nil => exact Function.injective_id
  | cons b bs ih => exact ih.comp (crcUpd_injective_acc hp b)

end Sys2Proof.Machine

section
open Sys2Proof Sys2Proof.Machine

/-- Settles O31: the bytes before the change give one accumulator, the changed byte gives two, and
the bytes after it and the final XOR keep them apart. -/
theorem crcTellsOneChangedByte : Obligations.CrcTellsOneChangedByte := by
  intro p xs ys b b' hp hne h
  have hacc : crcAcc p (xs ++ b :: ys) = crcAcc p (xs ++ b' :: ys) := (BitVec.xor_left_inj _).1 h
  simp only [crcAcc, List.foldl_append, List.foldl_cons] at hacc
  exact hne (crcUpd_injective_byte hp _ (foldl_crcUpd_injective hp ys hacc))

end


/-! The stream steps, each as one equation (40_frame_engine.md R103 to R120). An equation's premises
are the state, the address that `BUF` must have and, where a frame is completed, the bytes stored so
far; the next state is the model's own composition of register writes. What those writes are in each
mode is said once, and the statements about the steps put the two together. -/

namespace Sys2Proof.Machine

/-! ### The step of each state -/

section
variable {s : State}

theorem byteStep_of_hunt (h : s.st = .hunt) (b : Byte) : byteStep s b = huntStep s b := by
  simp only [byteStep, h]

theorem byteStep_of_header (h : s.st = .header) (b : Byte) : byteStep s b = headerStep s b := by
  simp only [byteStep, h]

theorem byteStep_of_body (h : s.st = .body) (b : Byte) : byteStep s b = bodyStep s b := by
  simp only [byteStep, h]

theorem byteStep_of_trailer (h : s.st = .trailer) (b : Byte) :
    byteStep s b = trailerStep s b := by
  simp only [byteStep, h]

theorem byteStep_of_collect (h : s.st = .collect) (b : Byte) :
    byteStep s b = collectStep s b := by
  simp only [byteStep, h]

end

/-! ### The register writes, mode by mode -/

section
variable {s : State}

theorem cover_gnss (hm : s.mode = .gnss) (b : Byte) :
    s.cover b = { s with ck := crcUpd s.cfg s.ck b, pos := s.pos + 1 } := by
  rw [State.cover, hm]
  rfl

theorem restart_gnss (hm : s.mode = .gnss) :
    s.restart = { s with pos := 0, shreg := 0, shcnt := 0, st := .hunt, ck := s.cfg.crcInit } := by
  rw [State.restart, hm]
  rfl

theorem hold_gnss (hm : s.mode = .gnss) {r : ResultCode} :
    s.hold r = { s with result := r, cur := BitVec.ofNat 16 s.cfg.gHdrLen, st := .done } := by
  rw [State.hold, State.bodyOff, hm]

theorem hold_attitude (hm : s.mode = .attitude) {r : ResultCode} :
    s.hold r = { s with result := r, cur := BitVec.ofNat 16 s.cfg.aHdrLen, st := .done } := by
  rw [State.hold, State.bodyOff, hm]

theorem afterHeader_drops (hm : s.mode = .gnss) (h : s.cfg.gMaxBody < s.hLen.toNat) :
    s.afterHeader = { s with
      cntHdrerr := satInc s.cntHdrerr,
      st := .hunt, pos := 0, shreg := 0, shcnt := 0, ck := s.cfg.crcInit } := by
  rw [State.afterHeader, if_pos h]
  exact restart_gnss hm

theorem afterHeader_goes_on (h : s.hLen.toNat ≤ s.cfg.gMaxBody) :
    s.afterHeader = { s with st := if s.hLen = 0 then .trailer else .body } := by
  rw [State.afterHeader, if_neg (Nat.not_lt.2 h)]
  split <;> rfl

theorem afterBodyByte_eq (s : State) : s.afterBodyByte = { s with
    st := if s.pos.toNat = s.cfg.gHdrLen + s.hLen.toNat then .trailer else s.st } := by
  unfold State.afterBodyByte
  split <;> rfl

theorem gnssVerdict_holds (hm : s.mode = .gnss) (h : s.rxck = s.calcCk) :
    s.gnssVerdict = { s with
      result := .ok, cntOk := satInc s.cntOk, cur := BitVec.ofNat 16 s.cfg.gHdrLen,
      st := .done } := by
  rw [State.gnssVerdict, if_pos h]
  exact hold_gnss (by exact hm)

theorem gnssVerdict_drops (hm : s.mode = .gnss) (h : s.rxck ≠ s.calcCk) :
    s.gnssVerdict = { s with
      cntCkerr := satInc s.cntCkerr,
      st := .hunt, pos := 0, shreg := 0, shcnt := 0, ck := s.cfg.crcInit } := by
  rw [State.gnssVerdict, if_neg h]
  exact restart_gnss hm

theorem windowVerdict_eSync (hm : s.mode = .attitude) {b0 b1 : Byte}
    (h : [b0, b1] ≠ [s.cfg.aSync0, s.cfg.aSync1]) :
    s.windowVerdict b0 b1 = { s with
      result := .eSync, cntSyncerr := satInc s.cntSyncerr,
      cur := BitVec.ofNat 16 s.cfg.aHdrLen, st := .done } := by
  rw [State.windowVerdict, if_pos (by simpa [imp_iff_not_or] using h)]
  exact hold_attitude (by exact hm)

theorem windowVerdict_eCksum (hm : s.mode = .attitude) {b0 b1 : Byte}
    (h : [b0, b1] = [s.cfg.aSync0, s.cfg.aSync1]) (hc : s.rxck ≠ s.calcCk) :
    s.windowVerdict b0 b1 = { s with
      result := .eCksum, cntCkerr := satInc s.cntCkerr,
      cur := BitVec.ofNat 16 s.cfg.aHdrLen, st := .done } := by
  rw [State.windowVerdict, if_neg (by simpa [imp_iff_not_or] using h), if_pos hc]
  exact hold_attitude (by exact hm)

theorem windowVerdict_ok (hm : s.mode = .attitude) {b0 b1 : Byte}
    (h : [b0, b1] = [s.cfg.aSync0, s.cfg.aSync1]) (hc : s.rxck = s.calcCk) :
    s.windowVerdict b0 b1 = { s with
      result := .ok, cntOk := satInc s.cntOk,
      cur := BitVec.ofNat 16 s.cfg.aHdrLen, st := .done } := by
  rw [State.windowVerdict, if_neg (by simpa [imp_iff_not_or] using h), if_neg (not_not.2 hc)]
  exact hold_attitude (by exact hm)

/-- The last byte of a header is stored and covered, and the header's fields are latched. -/
theorem store_cover_latchHeader (hm : s.mode = .gnss) (b : Byte) (id : Nat) (type : Byte)
    (len : Nat) : ((s.store b).cover b).latchHeader id type len = { s with
      buf := s.buf.write s.pos.toNat b, ck := crcUpd s.cfg s.ck b, pos := s.pos + 1,
      hId := BitVec.ofNat 16 id, hType := type, hRsp := type.getLsbD s.cfg.gRspBit,
      hLen := BitVec.ofNat 16 len } := by
  rw [cover_gnss (s := s.store b) hm]
  rfl

/-- The last byte of a frame is stored uncovered, and the frame's codes and length are latched. -/
theorem store_pass_latchFrame (s : State) (b : Byte) (rx cc : Word) (len : Half) :
    (s.store b).pass.latchFrame rx cc len = { s with
      buf := s.buf.write s.pos.toNat b, pos := s.pos + 1, rxck := rx, calcCk := cc,
      flen := len } := rfl

/-- One byte into a 32-bit register that holds a SUM16 accumulator (41_integrity.md R151). -/
theorem accUpd_sum16 (p : Params) (c : Word) (b : Byte) :
    accUpd p .sum16 c b = BitVec.ofNat 32 ((c.toNat % 65536 + b.toNat) % 65536) := by
  refine BitVec.eq_of_toNat_eq ?_
  have hb := b.isLt
  simp only [accUpd, sumUpd, BitVec.toNat_setWidth, BitVec.toNat_add, BitVec.toNat_ofNat]
  omega

theorem coverWindow_attitude (hm : s.mode = .attitude) (b : Byte) :
    s.coverWindow b = { s with
      ck := if s.pos.toNat < s.cfg.aCkOff
        then BitVec.ofNat 32 ((s.ck.toNat % 65536 + b.toNat) % 65536) else s.ck,
      pos := s.pos + 1 } := by
  unfold State.coverWindow
  split
  · rw [State.cover, hm, algOfPath, accUpd_sum16]
  · rfl

end

/-! ### The hunt step and the lock (R103, R104) -/

section
variable {s : State} {b : Byte}

theorem byteStep_hunt_locks (hst : s.st = .hunt) (hb : 2 < s.cfg.bufSize)
    (hl : (s.shiftIn b).locked = true) :
    byteStep s b = .next (s.shiftIn b).withSync.lockRegs := by
  rw [byteStep_of_hunt hst]
  exact huntStep_eq_next.2 (.inl ⟨hl, lockStep_eq_next.2 ⟨hb, rfl⟩⟩)

theorem byteStep_hunt_shifts (hst : s.st = .hunt) (hl : (s.shiftIn b).locked = false) :
    byteStep s b = .next (s.shiftIn b) := by
  rw [byteStep_of_hunt hst]
  exact huntStep_eq_next.2 (.inr ⟨hl, rfl⟩)

/-- The window holds one byte more, at most three (R103). -/
theorem shiftIn_shcnt_toNat (s : State) (b : Byte) :
    (s.shiftIn b).shcnt.toNat = min (s.shcnt.toNat + 1) 3 := by
  have hcases : ∀ n : BitVec 2, (if n = 3 then 3 else n + 1).toNat = min (n.toNat + 1) 3 := by
    decide
  exact hcases s.shcnt

end

/-! ### The steps that store a byte and complete nothing (R105, R109, R111, R116) -/

section
variable {s : State} {b : Byte}

theorem byteStep_header_stores (hst : s.st = .header) (hb : s.pos.toNat < s.cfg.bufSize)
    (hne : (s.pos + 1).toNat ≠ s.cfg.gHdrLen) :
    byteStep s b = .next ((s.store b).cover b) := by
  rw [byteStep_of_header hst]
  exact headerStep_eq_next.2 ⟨_, memWrite_pos.2 ⟨hb, rfl⟩, .inr ⟨hne, rfl⟩⟩

theorem byteStep_body_stores (hst : s.st = .body) (hb : s.pos.toNat < s.cfg.bufSize) :
    byteStep s b = .next ((s.store b).cover b).afterBodyByte := by
  rw [byteStep_of_body hst]
  exact bodyStep_eq_next.2 ⟨_, memWrite_pos.2 ⟨hb, rfl⟩, rfl⟩

theorem byteStep_trailer_stores (hst : s.st = .trailer) (hb : s.pos.toNat < s.cfg.bufSize)
    (hne : (s.pos + 1).toNat ≠ s.cfg.gHdrLen + s.hLen.toNat + 4) :
    byteStep s b = .next (s.store b).pass := by
  rw [byteStep_of_trailer hst]
  exact trailerStep_eq_next.2 ⟨_, memWrite_pos.2 ⟨hb, rfl⟩, .inr ⟨hne, rfl⟩⟩

theorem byteStep_collect_stores (hst : s.st = .collect) (hb : s.pos.toNat < s.cfg.bufSize)
    (hne : (s.pos + 1).toNat ≠ s.cfg.aFrameLen) :
    byteStep s b = .next ((s.store b).coverWindow b) := by
  obtain ⟨hcfg, -⟩ := coverWindow_sameHost (s.store b) b
  obtain ⟨-, -, -, -, -, hpos⟩ := coverWindow_keeps (s.store b) b
  rw [byteStep_of_collect hst]
  exact collectStep_eq_next.2 ⟨_, memWrite_pos.2 ⟨hb, rfl⟩, .inr ⟨hpos ▸ hne, rfl⟩⟩

end

/-! ### The fields of the stored bytes -/

theorem fieldAt_one {bs : List Byte} {a : Nat} (h : a < bs.length) :
    fieldAt bs a 1 = bs[a].toNat := by
  rw [fieldAt, List.drop_eq_getElem_cons h, List.take_succ_cons, List.take_zero, leValue_cons,
    leValue_nil, Nat.mul_zero, Nat.add_zero]

/-- A field of one or two bytes fits a 16-bit register. -/
theorem ofNat16_fieldAt_toNat (bs : List Byte) (a : Nat) {n : Nat} (hn : n = 1 ∨ n = 2) :
    (BitVec.ofNat 16 (fieldAt bs a n)).toNat = fieldAt bs a n := by
  have hle : 256 ^ n ≤ 2 ^ 16 := by rcases hn with rfl | rfl <;> decide
  rw [BitVec.toNat_ofNat, Nat.mod_eq_of_lt ((fieldAt_lt bs a n).trans_le hle)]

section
variable {s : State} {n a k : Nat} {bs : List Byte}

/-- A read inside the stored bytes gives their field (20_memory.md R53). -/
theorem State.memRead_eq_fieldAt (h : s.readBytes 0 n = .ok bs) (hk : a + k ≤ bs.length) :
    s.memRead a k = .ok (fieldAt bs a k) :=
  State.memRead_of_readBytes h hk

theorem State.readByte_eq_fieldAt (h : s.readBytes 0 n = .ok bs) (ha : a < bs.length) :
    s.readByte a = .ok (BitVec.ofNat 8 (fieldAt bs a 1)) := by
  rw [State.readByte_of_readBytes h ha, fieldAt_one ha, BitVec.ofNat_toNat, BitVec.setWidth_eq]

end

/-! ### The steps that complete a header, a GNSS frame or a window (R106 to R108, R112, R117) -/

section
variable {s : State} {b : Byte} {bs : List Byte}

theorem byteStep_header_completes (hst : s.st = .header) (hw : s.cfg.WF)
    (hp : s.pos.toNat + 1 = s.cfg.gHdrLen) (hbs : s.readBytes 0 s.pos.toNat = .ok bs) :
    byteStep s b = .next (((s.store b).cover b).latchHeader
      (fieldAt (bs ++ [b]) s.cfg.gOffId s.cfg.gWId)
      (BitVec.ofNat 8 (fieldAt (bs ++ [b]) s.cfg.gOffType 1))
      (fieldAt (bs ++ [b]) s.cfg.gOffLen s.cfg.gWLen)).afterHeader := by
  obtain ⟨-, ⟨-, -, -, -, -, -, hid, htype, hlen⟩, hfits, -, -, -, -, -, -, hmax⟩ := hw
  have hb : s.pos.toNat < s.cfg.bufSize := by omega
  have hl : (bs ++ [b]).length = s.cfg.gHdrLen := by
    simp [State.readBytes_length hbs, hp]
  have hread : ((s.store b).cover b).readBytes 0 (s.pos.toNat + 1) = .ok (bs ++ [b]) :=
    State.readBytes_write_end hbs hb rfl rfl
  have hend : (s.pos + 1).toNat = s.cfg.gHdrLen := by rw [pos_succ_toNat (by omega), hp]
  rw [byteStep_of_header hst]
  refine headerStep_eq_next.2 ⟨_, memWrite_pos.2 ⟨hb, rfl⟩, .inl ⟨hend, ?_⟩⟩
  exact headerComplete_eq_next.2 ⟨_, _, _, State.memRead_eq_fieldAt hread (hl ▸ hid),
    State.readByte_eq_fieldAt hread (hl ▸ htype), State.memRead_eq_fieldAt hread (hl ▸ hlen), rfl⟩

theorem byteStep_trailer_completes (hst : s.st = .trailer) (hb : s.pos.toNat < s.cfg.bufSize)
    (hp : (s.pos + 1).toNat = s.cfg.gHdrLen + s.hLen.toNat + 4)
    (hpos : s.pos.toNat < 65535) (hbs : s.readBytes 0 s.pos.toNat = .ok bs) :
    byteStep s b = .next ((s.store b).pass.latchFrame
      (BitVec.ofNat 32 (fieldAt (bs ++ [b]) ((s.pos + 1).toNat - 4) 4))
      (s.ck ^^^ s.cfg.crcXorOut) (s.pos + 1)).gnssVerdict := by
  have hsucc := pos_succ_toNat hpos
  have hl := State.readBytes_length hbs
  have hread : (s.store b).pass.readBytes 0 (s.pos.toNat + 1) = .ok (bs ++ [b]) :=
    State.readBytes_write_end hbs hb rfl rfl
  have hrx : (s.store b).pass.memRead ((s.pos + 1).toNat - 4) 4 =
      .ok (fieldAt (bs ++ [b]) ((s.pos + 1).toNat - 4) 4) :=
    State.memRead_eq_fieldAt hread (by simp; omega)
  rw [byteStep_of_trailer hst]
  refine trailerStep_eq_next.2 ⟨_, memWrite_pos.2 ⟨hb, rfl⟩, .inl ⟨hp, ?_⟩⟩
  exact trailerComplete_eq_next.2 ⟨_, hrx, rfl⟩

/-- The first two bytes of a window are those that its sync test reads. -/
theorem take_two_eq (h : 2 ≤ bs.length) :
    bs.take 2 = [BitVec.ofNat 8 (fieldAt bs 0 1), BitVec.ofNat 8 (fieldAt bs 1 1)] := by
  match bs, h with
  | b0 :: b1 :: _, _ => simp [fieldAt]

theorem windowComplete_of_reads (hw : s.cfg.WF)
    (hbs : s.readBytes 0 s.cfg.aFrameLen = .ok bs) :
    ∃ b0 b1, bs.take 2 = [b0, b1] ∧
      windowComplete s = .next (((s.latchFrame (BitVec.ofNat 32 (fieldAt bs s.cfg.aCkOff 2))
        ((s.ck.setWidth 16).setWidth 32) (BitVec.ofNat 16 s.cfg.aFrameLen)).latchFtype
        (BitVec.ofNat 8 (fieldAt bs s.cfg.aOffFtype 1))).windowVerdict b0 b1) := by
  obtain ⟨⟨-, -, hck2, -⟩, -, -, -, -, hframe, -, hftype, -⟩ := hw
  have hl := State.readBytes_length hbs
  refine ⟨_, _, take_two_eq (by omega), ?_⟩
  exact windowComplete_eq_next.2 ⟨_, _, _, _, State.memRead_eq_fieldAt hbs (by omega),
    State.readByte_eq_fieldAt hbs (by omega), State.readByte_eq_fieldAt hbs (by omega),
    State.readByte_eq_fieldAt hbs (by omega), rfl⟩

theorem byteStep_collect_completes (hst : s.st = .collect) (hw : s.cfg.WF)
    (hp : s.pos.toNat + 1 = s.cfg.aFrameLen) (hbs : s.readBytes 0 s.pos.toNat = .ok bs) :
    ∃ b0 b1, (bs ++ [b]).take 2 = [b0, b1] ∧
      byteStep s b = .next ((((s.store b).pass.latchFrame
        (BitVec.ofNat 32 (fieldAt (bs ++ [b]) s.cfg.aCkOff 2)) ((s.ck.setWidth 16).setWidth 32)
        (BitVec.ofNat 16 s.cfg.aFrameLen)).latchFtype
        (BitVec.ofNat 8 (fieldAt (bs ++ [b]) s.cfg.aOffFtype 1))).windowVerdict b0 b1) := by
  have ⟨⟨_, _, hck2, _⟩, _, _, _, _, hframe, _, _, hfits, hmax⟩ := hw
  have hb : s.pos.toNat < s.cfg.bufSize := by omega
  have hcov : (s.store b).coverWindow b = (s.store b).pass :=
    if_neg (show ¬s.pos.toNat < s.cfg.aCkOff by omega)
  have hend : (s.pos + 1).toNat = s.cfg.aFrameLen := by rw [pos_succ_toNat (by omega), hp]
  have hread : (s.store b).pass.readBytes 0 s.cfg.aFrameLen = .ok (bs ++ [b]) := by
    rw [← hp]
    exact State.readBytes_write_end hbs hb rfl rfl
  obtain ⟨b0, b1, hsync, hcomplete⟩ := windowComplete_of_reads (s := (s.store b).pass) hw hread
  refine ⟨b0, b1, hsync, ?_⟩
  rw [byteStep_of_collect hst]
  refine collectStep_eq_next.2 ⟨_, memWrite_pos.2 ⟨hb, rfl⟩, ?_⟩
  rw [hcov]
  exact .inl ⟨hend, hcomplete⟩

end

end Sys2Proof.Machine

section
open Sys2Proof Sys2Proof.Machine

/-- Settles O50: `takeFault` writes those five registers. -/
theorem errorStepFaults : Obligations.ErrorStepFaults := fun _ =>
  ⟨fun hr => errStep_eq_next.2 (.inl ⟨hr, rfl⟩), fun hr => errStep_eq_next.2 (.inr ⟨hr, rfl⟩)⟩

/-- Settles O45: the window after the shift is what the lock test looks at. -/
theorem huntStepShiftsAndLocks : Obligations.HuntStepShiftsAndLocks := by
  intro s b hst hb skip w n hskip hw hn
  have hn' : n = (s.shiftIn b).shcnt :=
    BitVec.eq_of_toNat_eq (hn.trans (shiftIn_shcnt_toNat s b).symm)
  subst hskip hw hn'
  have hlocked : (s.shiftIn b).locked = true ↔ _ := locked_iff (s.shiftIn b)
  refine ⟨fun hyes => ?_, fun hno => ?_⟩
  · rw [byteStep_hunt_locks hst hb (hlocked.2 hyes)]
    rfl
  · rw [byteStep_hunt_shifts hst (Bool.eq_false_of_not_eq_true (mt hlocked.1 hno))]
    rfl

/-- Settles O46: each step's equation, with its register writes in the mode of its state. -/
theorem storedBytesAreCovered : Obligations.StoredBytesAreCovered := by
  intro s b hb hpos
  have hsucc := pos_succ_toNat hpos
  refine ⟨fun hst hm hne => ?_, fun hst hm => ?_, fun hst hne => ?_, fun hst hm hne => ?_⟩
  · rw [byteStep_header_stores hst hb (hsucc ▸ hne), cover_gnss (s := s.store b) hm]
    rfl
  · rw [byteStep_body_stores hst hb, cover_gnss (s := s.store b) hm, afterBodyByte_eq, ← hsucc,
      ← hst]
    rfl
  · rw [byteStep_trailer_stores hst hb (hsucc ▸ hne)]
    rfl
  · rw [byteStep_collect_stores hst hb (hsucc ▸ hne), coverWindow_attitude (s := s.store b) hm]
    rfl

/-- Settles O47: the header registers are latched from the stored header, and `afterHeader` goes on
by the length, which fits its register. -/
theorem headerCompletion : Obligations.HeaderCompletion := by
  intro s b bs hst hm hw hp hbs id len ty hid hty hlen
  have ⟨_, ⟨_, hwlen, hrsp, _⟩, _⟩ := hw
  have hlen16 : (BitVec.ofNat 16 len).toNat = len := by
    rw [hlen]
    exact ofNat16_fieldAt_toNat _ _ hwlen
  have hbit : (BitVec.ofNat 8 ty).getLsbD s.cfg.gRspBit = ty.testBit s.cfg.gRspBit := by
    rw [BitVec.getLsbD_ofNat, decide_eq_true (Nat.lt_succ_of_le hrsp), Bool.true_and]
  have hzero : BitVec.ofNat 16 len = 0 ↔ len = 0 := by
    rw [← BitVec.toNat_inj, hlen16]
    rfl
  have hstep := byteStep_header_completes hst hw hp hbs (b := b)
  rw [← hid, ← hty, ← hlen, store_cover_latchHeader hm, hbit] at hstep
  rw [hstep]
  refine ⟨fun hbig => ?_, fun hfit => ?_⟩
  · exact congrArg Host.Outcome.next (afterHeader_drops hm (hbig.trans_eq hlen16.symm))
  · simp only [← hzero]
    exact congrArg Host.Outcome.next (afterHeader_goes_on (hlen16.trans_le hfit))

/-- Settles O48: the codes are latched, and `gnssVerdict` holds or drops the frame. -/
theorem trailerCompletion : Obligations.TrailerCompletion := by
  intro s b bs hst hm hb hpos hp hbs rx hrx
  have hsucc := pos_succ_toNat hpos
  have hrx' : BitVec.ofNat 32 (fieldAt (bs ++ [b]) ((s.pos + 1).toNat - 4) 4) = rx := by
    rw [hsucc, Nat.add_sub_add_right, ← hrx, BitVec.ofNat_toNat, BitVec.setWidth_eq]
  rw [byteStep_trailer_completes hst hb (hsucc.trans hp) hpos hbs, hrx',
    store_pass_latchFrame]
  refine ⟨fun hok => ?_, fun hbad => ?_⟩
  · exact congrArg Host.Outcome.next (gnssVerdict_holds hm hok)
  · exact congrArg Host.Outcome.next (gnssVerdict_drops hm hbad)

/-- Settles O49: the codes and the frame type are latched, and each of the three verdicts holds the
window. -/
theorem windowCompletion : Obligations.WindowCompletion := by
  intro s b bs hst hm hw hp hbs rx cc f hrx hcc hf
  obtain ⟨b0, b1, hsync, hstep⟩ := byteStep_collect_completes hst hw hp hbs (b := b)
  have hcc' : (s.ck.setWidth 16).setWidth 32 = cc := by
    refine BitVec.eq_of_toNat_eq ?_
    rw [BitVec.toNat_setWidth, BitVec.toNat_setWidth, hcc]
    omega
  rw [← hrx, ← hf, BitVec.ofNat_toNat, BitVec.ofNat_toNat, BitVec.setWidth_eq, BitVec.setWidth_eq,
    hcc', store_pass_latchFrame] at hstep
  rw [hsync]
  by_cases hs : [b0, b1] = [s.cfg.aSync0, s.cfg.aSync1]
  · by_cases hc : rx = cc
    · rw [windowVerdict_ok (by exact hm) (by exact hs) (by exact hc)] at hstep
      refine ⟨_, hstep, rfl, ?_⟩
      rw [if_neg (not_not.2 hs), if_neg (not_not.2 hc)]
      exact ⟨rfl, rfl, rfl, rfl⟩
    · rw [windowVerdict_eCksum (by exact hm) (by exact hs) (by exact hc)] at hstep
      refine ⟨_, hstep, rfl, ?_⟩
      rw [if_neg (not_not.2 hs), if_pos hc]
      exact ⟨rfl, rfl, rfl, rfl⟩
  · rw [windowVerdict_eSync (by exact hm) (by exact hs)] at hstep
    refine ⟨_, hstep, rfl, ?_⟩
    rw [if_pos hs]
    exact ⟨rfl, rfl, rfl, rfl⟩

end


/-! The held frames of the sound states: a GNSS frame that is held is valid (40_frame_engine.md
R122), and an attitude window is accepted by its sync marker and its sum, which no change of one
byte keeps (R123). -/

namespace Sys2Proof.Machine

/-! ### The held frame and its bytes -/

section
variable {s : State}

/-- A field of the held frame reads as the field of its bytes. -/
theorem State.Holds.memRead_eq {bs : List Byte} (h : s.Holds bs) {a n : Nat}
    (hle : a + n ≤ bs.length) : s.memRead a n = .ok (fieldAt bs a n) :=
  State.memRead_of_readBytes h.reads hle

theorem State.Inv.held_gnss (h : s.Inv) (hst : s.st = .done) (hm : s.mode = .gnss) :
    ∃ bs, s.Holds bs ∧ s.flen = s.pos ∧ s.HeldGnss bs := by
  obtain ⟨bs, hbs, hflen, hheld, -⟩ := h.done_frame hst
  exact ⟨bs, hbs, hflen, hheld hm⟩

/-- The bytes of a held window are what `BUF` reads, and `RESULT` is the verdict on them. -/
theorem State.Inv.held_window (h : s.Inv) (hst : s.st = .done) (hm : s.mode = .attitude) :
    ∃ bs, s.Holds bs ∧ bs.length = s.cfg.aFrameLen ∧ s.readBytes 0 s.cfg.aFrameLen = .ok bs ∧
      s.result = windowResult s.cfg bs := by
  obtain ⟨bs, hbs, -, -, hheld⟩ := h.done_frame hst
  obtain ⟨hl, -, -, -, -, -, hres⟩ := hheld hm
  exact ⟨bs, hbs, hl, by rw [← hl, hbs.length, hbs.reads], hres⟩

end

/-- The header and the trailer of a held GNSS frame make it a well-formed one. -/
theorem gnssFrame_of_heldGnss {s : State} {bs : List Byte} (h : s.HeldGnss bs) :
    fieldAt bs (bs.length - 4) 4 = (crc32 s.cfg (bs.take (bs.length - 4))).toNat ∧
      GnssFrame s.cfg bs := by
  obtain ⟨hsync, ⟨-, -, -, hlen, hfit⟩, hl, hrx, hcc, hok, -⟩ := h
  have hcode : fieldAt bs (bs.length - 4) 4 = (crc32 s.cfg (bs.take (bs.length - 4))).toNat := by
    rw [← hrx, hok, hcc]
  exact ⟨hcode, hsync, hlen ▸ hl, hlen ▸ hfit, hcode⟩

/-! ### The verdict on a window -/

theorem windowResult_ok_iff (p : Params) (bs : List Byte) :
    windowResult p bs = .ok ↔ bs.take 2 = [p.aSync0, p.aSync1] ∧
      fieldAt bs p.aCkOff 2 = (sum16 p (bs.take p.aCkOff)).toNat := by
  unfold windowResult
  split
  · next hne => simp [hne]
  · next hsync =>
    rw [not_not] at hsync
    split
    · next hne => simp [hne]
    · next hsum => exact iff_of_true rfl ⟨hsync, not_not.1 hsum⟩

/-! ### One changed byte -/

/-- Two strings that differ in the byte `k` only, cut at it. -/
theorem set_eq_cut {bs : List Byte} {k : Nat} (hk : k < bs.length) (b : Byte) :
    bs = bs.take k ++ bs[k] :: bs.drop (k + 1) ∧
      bs.set k b = bs.take k ++ b :: bs.drop (k + 1) := by
  refine ⟨?_, by rw [List.set_eq_take_append_cons_drop, if_pos hk]⟩
  rw [← List.drop_eq_getElem_cons hk, List.take_append_drop]

/-- SUM16 tells one changed byte: a byte is less than the modulus. -/
theorem sum16_set_injective (p : Params) {bs : List Byte} {k : Nat} (hk : k < bs.length) {b : Byte}
    (h : sum16 p (bs.set k b) = sum16 p bs) : bs[k] = b := by
  obtain ⟨hbs, hset⟩ := set_eq_cut hk b
  rw [hset] at h
  nth_rw 3 [hbs] at h
  simp only [sum16, sumAcc, List.foldl_append, List.foldl_cons] at h
  rw [foldl_sumUpd _ (sumUpd _ b), foldl_sumUpd _ (sumUpd _ bs[k])] at h
  have hb : b.setWidth 16 = bs[k].setWidth 16 :=
    (BitVec.add_right_inj _).1 ((BitVec.add_left_inj _).1 h)
  simpa using congrArg (BitVec.setWidth 8) hb.symm

/-- A little-endian value tells one changed byte. -/
theorem leValue_set_injective {bs : List Byte} {k : Nat} (hk : k < bs.length) {b : Byte}
    (h : leValue (bs.set k b) = leValue bs) : bs[k] = b := by
  induction bs generalizing k with
  | nil => simp at hk
  | cons c bs ih =>
    have hb := b.isLt
    have hc := c.isLt
    cases k with
    | zero =>
      simp only [List.set_cons_zero, leValue_cons] at h
      exact BitVec.eq_of_toNat_eq (by simp only [List.getElem_cons_zero]; omega)
    | succ k =>
      simp only [List.set_cons_succ, leValue_cons] at h
      exact ih (by simpa using hk) (by omega)

/-- Two accepted windows do not differ in exactly one byte (40_frame_engine.md R123): the changed
byte is a covered one, which changes the sum, or one of the trailer, which changes the field. -/
theorem windowResult_set_ne_ok {p : Params} {bs : List Byte} {k : Nat} {b : Byte}
    (hl : bs.length = p.aCkOff + 2) (hk : k < bs.length) (hne : bs[k]? ≠ some b)
    (hok : windowResult p bs = .ok) : windowResult p (bs.set k b) ≠ .ok := by
  intro hok'
  obtain ⟨-, hsum⟩ := (windowResult_ok_iff p bs).1 hok
  obtain ⟨-, hsum'⟩ := (windowResult_ok_iff p _).1 hok'
  refine hne ((List.getElem?_eq_getElem hk).trans (congrArg some ?_))
  by_cases hcov : k < p.aCkOff
  · have hfield : fieldAt (bs.set k b) p.aCkOff 2 = fieldAt bs p.aCkOff 2 := by
      rw [fieldAt, List.drop_set_of_lt hcov, fieldAt]
    have hcode : sum16 p ((bs.take p.aCkOff).set k b) = sum16 p (bs.take p.aCkOff) := by
      rw [← List.take_set, ← BitVec.toNat_inj, ← hsum, ← hsum', hfield]
    have hbyte := sum16_set_injective p (by simp; omega) hcode
    rwa [List.getElem_take] at hbyte
  · have hcode : (bs.set k b).take p.aCkOff = bs.take p.aCkOff := by
      rw [List.take_set_of_le (by omega)]
    have hfield : leValue (((bs.drop p.aCkOff).take 2).set (k - p.aCkOff) b) =
        leValue ((bs.drop p.aCkOff).take 2) := by
      rw [hcode, ← hsum, fieldAt, fieldAt, List.drop_set, if_neg hcov, List.take_set] at hsum'
      exact hsum'
    have hbyte := leValue_set_injective (by simp; omega) hfield
    simpa [Nat.add_sub_cancel' (not_lt.1 hcov)] using hbyte

end Sys2Proof.Machine

section
open Sys2Proof Sys2Proof.Machine

/-- Settles O57: the invariant's clause about a held GNSS frame, with its codes equal. -/
theorem heldGnssFrameIsValid : Obligations.HeldGnssFrameIsValid := by
  intro s h hst hm
  obtain ⟨bs, hbs, hflen, hheld⟩ := h.held_gnss hst hm
  obtain ⟨hcode, hframe⟩ := gnssFrame_of_heldGnss hheld
  have ⟨hsync, _, hl, _⟩ := hheld
  have hlen : s.flen.toNat = bs.length := by rw [hflen, hbs.length]
  refine ⟨bs, by rw [hflen, hbs.reads], hsync, by rw [hlen, hl], ?_, hframe⟩
  rw [hlen, ← hcode]
  exact hbs.memRead_eq (by omega)

/-- Settles O58: `RESULT` is the verdict on the held bytes, and one changed byte cannot keep it. -/
theorem windowAcceptance : Obligations.WindowAcceptance := by
  constructor
  · intro s h hst hm
    obtain ⟨bs, hbs, hl, hread, hres⟩ := h.held_window hst hm
    have ⟨⟨_, _, hck2, _⟩, _, _, _, _, hframe, _⟩ := h.cfg_wf
    refine ⟨bs, hread, ?_⟩
    rw [hres, windowResult_ok_iff, hbs.memRead_eq (by omega), Except.ok.injEq]
  · intro s t bs k b hs ht hcfg hst hst' hm hm' hread hread' hk hne hok
    obtain ⟨cs, -, hl, hcs, hres⟩ := hs.held_window hst hm
    obtain ⟨ds, -, -, hds, hres'⟩ := ht.held_window hst' hm'
    have ⟨⟨_, _, hck2, _⟩, _, _, _, _, hframe, _⟩ := hs.cfg_wf
    obtain rfl : bs = cs := Except.ok.inj (hread.symm.trans hcs)
    obtain rfl : bs.set k b = ds := Except.ok.inj (hread'.symm.trans (hcfg ▸ hds))
    rw [hres', hcfg]
    exact windowResult_set_ne_ok (by omega) hk hne (hres ▸ hok)

end

/-! GNSS acceptance (40_frame_engine.md R121). While the scanner looks at the noise and at the sync
marker (`State.Scanned`) its window is the last three bytes of the stream; from the lock on
(`State.Receiving`) the bytes of the frame are stored, and neither completion drops a well-formed
frame. `Progress` joins the two, and a run over a byte stream is an induction on the stream. -/

namespace Sys2Proof.Machine

/-! ### A run over a stream of bytes -/

theorem core_run_succ {s t : State} (h : step s = .next t) (k : Nat) :
    core.run (k + 1) s = core.run k t := by
  have hcore : core.step s = .next t := h
  simp only [Host.Core.run, hcore]

/-- In a receiving state the step of a cycle that offers one byte and nothing else is the byte step,
which leaves the later inputs. -/
theorem step_byteCycle {s : State} {b : Byte} {cs : List Cycle} (hw : s.cfg.WF)
    (hr : s.inReady = true) (hc : s.cycles = byteCycle b :: cs) :
    step s = byteStep (s.awaiting cs) b := by
  have hready : s.readyDuring (byteCycle b) = true := by simp [State.readyDuring, hr, byteCycle]
  rw [step_of_cycles_cons hw hc, cycleStep, hready]
  rfl

/-- What every step over a byte of the stream extends by that byte holds after the whole stream. -/
theorem core_run_bytes {P : List Byte → State → Prop} {stream : List Byte} {rest : List Cycle}
    (hstep : ∀ (pre : List Byte) (b : Byte) (cs : List Cycle) (s : State), pre ++ [b] <+: stream →
      P pre s → s.cycles = byteCycle b :: cs → ∃ t, step s = .next t ∧ P (pre ++ [b]) t ∧
        t.cycles = cs)
    (l : List Byte) : ∀ (pre : List Byte) (s : State), pre ++ l = stream → P pre s →
      s.cycles = l.map byteCycle ++ rest →
      ∃ t, core.run l.length s = .next t ∧ P stream t ∧ t.cycles = rest := by
  induction l with
  | nil =>
    intro pre s hpre hP hc
    rw [List.append_nil] at hpre
    exact ⟨s, rfl, hpre ▸ hP, hc⟩
  | cons b l ih =>
    intro pre s hpre hP hc
    have hpre' : pre ++ [b] ++ l = stream := by rw [← hpre]; simp
    obtain ⟨t, ht, hP', hc'⟩ := hstep pre b _ s ⟨l, hpre'⟩ hP hc
    obtain ⟨u, hu, hPu, hcu⟩ := ih (pre ++ [b]) t hpre' hP' hc'
    exact ⟨u, (core_run_succ ht l.length).trans hu, hPu, hcu⟩

/-! ### The scanner's window -/

/-- One more byte in the scanner's window (R103). -/
def shiftWindow (r : BitVec 24) (b : Byte) : BitVec 24 := r.extractLsb' 0 16 ++ b

theorem shiftIn_window (s : State) (b : Byte) : (s.shiftIn b).shreg = shiftWindow s.shreg b := rfl

/-- Three bytes fill the window, whatever was in it. -/
theorem shiftWindow_three (r : BitVec 24) (a b c : Byte) :
    shiftWindow (shiftWindow (shiftWindow r a) b) c = a ++ b ++ c := by
  refine BitVec.eq_of_getLsbD_eq fun i hi => ?_
  simp only [shiftWindow, BitVec.getLsbD_append, BitVec.getLsbD_extractLsb']
  grind

theorem bitVec_append_inj {m n : Nat} {x x' : BitVec m} {y y' : BitVec n} :
    x ++ y = x' ++ y' ↔ x = x' ∧ y = y' := by
  refine ⟨fun h => ⟨?_, ?_⟩, fun ⟨hx, hy⟩ => by rw [hx, hy]⟩
  · rw [← BitVec.extractLsb'_append_eq_left (a := x) (b := y), h,
      BitVec.extractLsb'_append_eq_left]
  · rw [← BitVec.extractLsb'_append_eq_right (a := x) (b := y), h,
      BitVec.extractLsb'_append_eq_right]

/-- After three bytes or more the window is the marker exactly when the last three bytes are. -/
theorem window_eq_sync_iff {p : Params} {w : List Byte} (r : BitVec 24) (h : 3 ≤ w.length) :
    w.foldl shiftWindow r = syncWindow p ↔
      w.drop (w.length - 3) = [p.gSync0, p.gSync1, p.gSync2] := by
  have hlast : (w.drop (w.length - 3)).length = 3 := by rw [List.length_drop]; omega
  obtain ⟨a, b, c, habc⟩ := List.length_eq_three.1 hlast
  have hw : w = w.take (w.length - 3) ++ [a, b, c] := by rw [← habc, List.take_append_drop]
  rw [habc, hw, List.foldl_append, List.foldl_cons, List.foldl_cons, List.foldl_cons,
    List.foldl_nil, shiftWindow_three, syncWindow, bitVec_append_inj, bitVec_append_inj]
  simp [and_assoc]

/-- From `s` the scanner has looked at the bytes `w` without a lock; the state is then `t`. -/
structure State.Scanned (s : State) (w : List Byte) (t : State) : Prop where
  inv : t.Inv
  cfg : t.cfg = s.cfg
  st : t.st = .hunt
  count : t.shcnt.toNat = min w.length 3
  window : t.shreg = w.foldl shiftWindow s.shreg
  skip : t.cntSkip.toNat = min (s.cntSkip.toNat + (w.length - 3)) 0xFFFF

section
variable {s t : State} {w : List Byte}

theorem scanned_nil (h : s.Inv) (hst : s.st = .hunt) (hcnt : s.shcnt = 0) : s.Scanned [] s where
  inv := h
  cfg := rfl
  st := hst
  count := by rw [hcnt]; rfl
  window := rfl
  skip := by
    have hmax := s.cntSkip.isLt
    simp only [List.length_nil]
    omega

theorem State.Scanned.awaiting (h : s.Scanned w t) (cs : List Cycle) :
    s.Scanned w (t.awaiting cs) :=
  ⟨h.inv.awaiting cs, h.cfg, h.st, h.count, h.window, h.skip⟩

theorem State.Scanned.full_iff (h : s.Scanned w t) : t.shcnt = 3 ↔ 3 ≤ w.length := by
  rw [← BitVec.toNat_inj, h.count]
  exact min_eq_right_iff

/-- One more byte in the window; once it is full every byte skips one (R103). -/
theorem State.Scanned.shiftIn (h : s.Scanned w t) (b : Byte) :
    s.Scanned (w ++ [b]) (t.shiftIn b) where
  inv := shiftIn_inv h.inv h.st
  cfg := h.cfg
  st := h.st
  count := by
    rw [shiftIn_shcnt_toNat, h.count, List.length_append, List.length_singleton]
    omega
  window := by rw [shiftIn_window, h.window, List.foldl_concat]
  skip := by
    have hskip := h.skip
    rw [List.length_append, List.length_singleton]
    by_cases hlen : 3 ≤ w.length
    · rw [State.shiftIn_cntSkip, if_pos (h.full_iff.2 hlen), satInc_toNat]
      omega
    · rw [State.shiftIn_cntSkip, if_neg (mt h.full_iff.1 hlen)]
      omega

/-- The scanner locks exactly when the last three bytes of the stream are the marker (R104). -/
theorem State.Scanned.locked_iff (h : s.Scanned w t) :
    t.locked = true ↔
      3 ≤ w.length ∧ w.drop (w.length - 3) = [s.cfg.gSync0, s.cfg.gSync1, s.cfg.gSync2] := by
  rw [Machine.locked_iff, h.full_iff, h.window, h.cfg]
  exact and_congr_right fun hlen => window_eq_sync_iff _ hlen

end

/-! ### The bytes of a well-formed frame -/

section
variable {p : Params} {frame bs : List Byte}

/-- A field that lies inside the bytes received so far is that of the whole frame. -/
theorem fieldAt_of_prefix (hpre : bs <+: frame) {a n : Nat} (h : a + n ≤ bs.length) :
    fieldAt bs a n = fieldAt frame a n := by
  obtain ⟨l, rfl⟩ := hpre
  exact (fieldAt_append h l).symm

theorem GnssFrame.three_le_length (hf : GnssFrame p frame) : 3 ≤ frame.length := by
  obtain ⟨hsync, -⟩ := hf
  have hl := congrArg List.length hsync
  simp only [List.length_take, List.length_cons, List.length_nil] at hl
  omega

/-- Once its header is complete, `H_LEN` is the length of the frame's body. -/
theorem State.HeaderOf.frame_length {s : State} (h : s.HeaderOf bs) (hw : s.cfg.WF)
    (hl : s.cfg.gHdrLen ≤ bs.length) (hf : GnssFrame s.cfg frame) (hpre : bs <+: frame) :
    frame.length = s.cfg.gHdrLen + s.hLen.toNat + 4 := by
  obtain ⟨-, ⟨-, -, -, -, -, -, -, -, hin⟩, -⟩ := hw
  obtain ⟨-, -, -, hlen, -⟩ := h
  obtain ⟨-, hframe, -⟩ := hf
  rw [hframe, hlen, fieldAt_of_prefix hpre (by omega)]

end

/-! ### The frame in progress -/

/-- The bytes `bs` of a GNSS frame have been stored, and the frame has not been dropped. -/
structure State.Receiving (s : State) (bs : List Byte) : Prop where
  inv : s.Inv
  mode : s.mode = .gnss
  st : s.st = .header ∨ s.st = .body ∨ s.st = .trailer ∨ s.st = .done
  length : bs.length = s.pos.toNat
  reads : s.readBytes 0 s.pos.toNat = .ok bs

section
variable {s t : State} {bs : List Byte} {b : Byte}

theorem State.Receiving.awaiting (h : s.Receiving bs) (cs : List Cycle) :
    (s.awaiting cs).Receiving bs :=
  ⟨h.inv.awaiting cs, h.mode, h.st, h.length,
    (State.readBytes_congr (s := s) (t := s.awaiting cs) rfl fun _ _ => rfl).trans h.reads⟩

/-- What the invariant says of the stored bytes. -/
theorem State.Receiving.frameSoFar (h : s.Receiving bs) : s.Holds bs ∧ s.FrameSoFar bs := by
  have hstoring : s.Storing := by
    rcases h.st with hst | hst | hst | hst <;> simp [State.Storing, hst]
  obtain ⟨cs, hcs, hf⟩ := h.inv.held_frame hstoring
  obtain rfl : cs = bs := Except.ok.inj (hcs.reads.symm.trans h.reads)
  exact ⟨hcs, hf⟩

/-- A lock begins a frame with the marker stored (R104). -/
theorem receiving_of_lock (h : s.Inv) (hst : s.st = .hunt) (hb : 2 < s.cfg.bufSize) :
    (s.shiftIn b).withSync.lockRegs.Receiving [s.cfg.gSync0, s.cfg.gSync1, s.cfg.gSync2] where
  inv := lock_inv h hst hb
  mode := h.mode_gnss (.inl hst)
  st := .inl rfl
  length := rfl
  reads := (State.readBytes_congr rfl fun _ _ => rfl).trans (withSync_reads (s := s.shiftIn b) hb)

/-- A step that stores its byte and does not drop the frame goes on receiving it. -/
theorem State.Receiving.stores (h : s.Receiving bs) (hs : byteStep s b = .next t)
    (hb : s.pos.toNat < s.cfg.bufSize) (hpos : t.pos = s.pos + 1)
    (hbuf : t.buf = (s.store b).buf)
    (hst : t.st = .header ∨ t.st = .body ∨ t.st = .trailer ∨ t.st = .done) :
    t.Receiving (bs ++ [b]) := by
  have heff := byteStep_effect hs
  obtain ⟨hcfg, hmode, -⟩ := byteEffect_sameHost heff
  obtain ⟨hl, hreads⟩ := h.frameSoFar.1.reads_store hb h.inv.grounded.bufSize_le b
  refine ⟨byteEffect_inv h.inv heff, hmode.trans h.mode, hst, hpos ▸ hl, ?_⟩
  rw [hpos, ← hreads]
  exact State.readBytes_congr (by rw [hcfg]; rfl) fun _ _ => by rw [hbuf]

end

/-! ### A well-formed frame is not dropped -/

section
variable {s : State} {frame bs : List Byte} {b : Byte}

/-- While bytes of the frame are missing, it is not held. -/
theorem State.Receiving.st_of_lt (h : s.Receiving bs) (hf : GnssFrame s.cfg frame)
    (hpre : bs <+: frame) (hlt : bs.length < frame.length) :
    s.st = .header ∨ s.st = .body ∨ s.st = .trailer := by
  rcases h.st with hst | hst | hst | hst
  · exact .inl hst
  · exact .inr (.inl hst)
  · exact .inr (.inr hst)
  · obtain ⟨-, -, hhdr, hl, -⟩ := ((frameSoFar_done_gnss hst h.mode).1 h.frameSoFar.2)
    have hframe := hhdr.frame_length h.inv.cfg_wf (by omega) hf hpre
    omega

/-- When no byte of the frame is missing, it is held. -/
theorem State.Receiving.st_of_frame (h : s.Receiving frame) (hf : GnssFrame s.cfg frame) :
    s.st = .done := by
  have hw := h.inv.cfg_wf
  obtain ⟨-, hframe⟩ := h.frameSoFar
  rcases h.st with hst | hst | hst | hst
  · obtain ⟨-, hlt, -⟩ := (frameSoFar_header hst).1 hframe
    obtain ⟨-, hl, -⟩ := hf
    omega
  · obtain ⟨hge, hlt, -, hhdr⟩ := (frameSoFar_body hst).1 hframe
    have hl := hhdr.frame_length hw hge hf (List.prefix_refl _)
    omega
  · obtain ⟨hge, hlt, -, hhdr⟩ := (frameSoFar_trailer hst).1 hframe
    have hl := hhdr.frame_length hw (by omega) hf (List.prefix_refl _)
    omega
  · exact hst

/-- The frame goes on with the byte `b`: the step stores it, and `CNT_SKIP` stays. -/
def State.GoesOn (s : State) (bs : List Byte) (b : Byte) : Prop :=
  ∃ t, byteStep s b = .next t ∧ t.Receiving (bs ++ [b]) ∧ t.cntSkip = s.cntSkip

theorem State.Receiving.header_goesOn (h : s.Receiving bs) (hst : s.st = .header)
    (hf : GnssFrame s.cfg frame) (hpre : bs ++ [b] <+: frame) : s.GoesOn bs b := by
  have hb := h.inv.pos_lt_bufSize (.inl hst)
  have hmax := h.inv.grounded.bufSize_le
  have hsucc := pos_succ_toNat (p := s.pos) (by omega)
  by_cases hend : (s.pos + 1).toNat = s.cfg.gHdrLen
  · have ⟨_, ⟨_, hwlen, _, _, _, _, _, _, hin⟩, _⟩ := h.inv.cfg_wf
    obtain ⟨-, -, hbody, -⟩ := hf
    have hl : (bs ++ [b]).length = s.cfg.gHdrLen := by
      rw [List.length_append, List.length_singleton, h.length, ← hsucc, hend]
    have hfit : (BitVec.ofNat 16 (fieldAt (bs ++ [b]) s.cfg.gOffLen s.cfg.gWLen)).toNat ≤
        s.cfg.gMaxBody := by
      rw [ofNat16_fieldAt_toNat _ _ hwlen, fieldAt_of_prefix hpre (by omega)]
      exact hbody
    have hs := byteStep_header_completes hst h.inv.cfg_wf (hsucc.symm.trans hend) h.reads (b := b)
    rw [store_cover_latchHeader h.mode, afterHeader_goes_on (by exact hfit)] at hs
    refine ⟨_, hs, h.stores hs hb rfl rfl ?_, rfl⟩
    dsimp only
    split <;> simp
  · have hs := byteStep_header_stores hst hb hend (b := b)
    exact ⟨_, hs, h.stores hs hb rfl rfl (.inl hst), rfl⟩

theorem State.Receiving.body_goesOn (h : s.Receiving bs) (hst : s.st = .body) :
    s.GoesOn bs b := by
  have hb := h.inv.pos_lt_bufSize (.inr (.inl hst))
  have hs := byteStep_body_stores hst hb (b := b)
  rw [afterBodyByte_eq] at hs
  refine ⟨_, hs, h.stores hs hb rfl rfl ?_, rfl⟩
  dsimp only
  split
  · simp
  · exact .inr (.inl hst)

theorem State.Receiving.trailer_goesOn (h : s.Receiving bs) (hst : s.st = .trailer)
    (hf : GnssFrame s.cfg frame) (hpre : bs ++ [b] <+: frame) : s.GoesOn bs b := by
  have hb := h.inv.pos_lt_bufSize (.inr (.inr (.inl hst)))
  have hmax := h.inv.grounded.bufSize_le
  have hsucc := pos_succ_toNat (p := s.pos) (by omega)
  by_cases hend : (s.pos + 1).toNat = s.cfg.gHdrLen + s.hLen.toNat + 4
  · obtain ⟨hholds, hframe⟩ := h.frameSoFar
    obtain ⟨hge, -, -, hhdr⟩ := (frameSoFar_trailer hst).1 hframe
    have hl := h.length
    have hfl := hhdr.frame_length h.inv.cfg_wf (by omega) hf
      ((List.prefix_append bs [b]).trans hpre)
    have hall : bs ++ [b] = frame :=
      hpre.eq_of_length (by rw [List.length_append, List.length_singleton]; omega)
    have hck : s.ck = crcAcc s.cfg (frame.take (frame.length - 4)) := by
      have hcov : frame.length - 4 = s.coverEnd := by rw [coverEnd_gnss h.mode]; omega
      have hacc := hholds.acc
      rw [h.mode] at hacc
      rw [hcov, ← hall, List.take_append_of_le_length (by omega)]
      exact hacc
    obtain ⟨-, -, -, htrailer⟩ := hf
    have hcode : BitVec.ofNat 32 (fieldAt (bs ++ [b]) ((s.pos + 1).toNat - 4) 4) =
        s.ck ^^^ s.cfg.crcXorOut := by
      rw [hall, hend, ← hfl, htrailer, BitVec.ofNat_toNat, BitVec.setWidth_eq, hck]
      rfl
    have hs := byteStep_trailer_completes hst hb hend (by omega) h.reads (b := b)
    rw [store_pass_latchFrame, gnssVerdict_holds (by exact h.mode) (by exact hcode)] at hs
    exact ⟨_, hs, h.stores hs hb rfl rfl (.inr (.inr (.inr rfl))), rfl⟩
  · have hs := byteStep_trailer_stores hst hb hend (b := b)
    exact ⟨_, hs, h.stores hs hb rfl rfl (.inr (.inr (.inl hst))), rfl⟩

theorem State.Receiving.goesOn (h : s.Receiving bs) (hf : GnssFrame s.cfg frame)
    (hpre : bs ++ [b] <+: frame) : s.GoesOn bs b := by
  have hlt : bs.length < frame.length := by
    have hle := hpre.length_le
    rw [List.length_append, List.length_singleton] at hle
    omega
  rcases h.st_of_lt hf ((List.prefix_append bs [b]).trans hpre) hlt with hst | hst | hst
  · exact h.header_goesOn hst hf hpre
  · exact h.body_goesOn hst
  · exact h.trailer_goesOn hst hf hpre

end

/-! ### Noise, then a frame -/

/-- How far the engine is when the bytes `pre` of the stream have been taken: still scanning, before
the end of the frame's marker, or receiving the frame with the noise skipped. -/
inductive Progress (s : State) (noise pre : List Byte) (t : State) : Prop where
  | scanning : s.Scanned pre t → pre.length < noise.length + 3 → Progress s noise pre t
  | receiving {got : List Byte} : pre = noise ++ got → t.Receiving got → t.cfg = s.cfg →
      t.cntSkip.toNat = min (s.cntSkip.toNat + noise.length) 0xFFFF → Progress s noise pre t

section
variable {s t : State} {noise frame pre : List Byte} {b : Byte}

theorem Progress.awaiting (h : Progress s noise pre t) (cs : List Cycle) :
    Progress s noise pre (t.awaiting cs) := by
  cases h with
  | scanning hscan hlt => exact .scanning (hscan.awaiting cs) hlt
  | receiving hpre hrec hcfg hskip => exact .receiving hpre (hrec.awaiting cs) hcfg hskip

theorem Progress.cfg_wf (h : Progress s noise pre t) : t.cfg.WF := by
  cases h with
  | scanning hscan => exact hscan.inv.cfg_wf
  | receiving _ hrec => exact hrec.inv.cfg_wf

/-- While bytes of the stream are missing the engine takes bytes. -/
theorem Progress.inReady (h : Progress s noise pre t) (hf : GnssFrame s.cfg frame)
    (hpre : pre ++ [b] <+: noise ++ frame) : t.inReady = true := by
  refine (inReady_iff t).2 ?_
  cases h with
  | scanning hscan => exact .inl hscan.st
  | @receiving got hgot hrec hcfg hskip =>
    rw [hgot, List.append_assoc, List.prefix_append_right_inj] at hpre
    have hle := hpre.length_le
    rw [List.length_append, List.length_singleton] at hle
    rcases hrec.st_of_lt (hcfg ▸ hf) ((List.prefix_append got [b]).trans hpre) (by omega) with
      hst | hst | hst <;> simp [hst]

/-- The scanner does not lock before the end of the first marker of the stream, and locks there. -/
theorem locks_at_first_sync {stream w : List Byte} {sync : List Byte} {n : Nat}
    (hfirst : ∀ k, (stream.drop k).take 3 = sync → n ≤ k)
    (hat : (stream.drop n).take 3 = sync) (hpre : w <+: stream) (hle : w.length ≤ n + 3) :
    (3 ≤ w.length ∧ w.drop (w.length - 3) = sync) ↔ w.length = n + 3 := by
  obtain ⟨l, rfl⟩ := hpre
  have hlast : 3 ≤ w.length → ((w ++ l).drop (w.length - 3)).take 3 = w.drop (w.length - 3) := by
    intro h3
    rw [List.drop_append_of_le_length (by omega), List.take_left' (by rw [List.length_drop]; omega)]
  constructor
  · rintro ⟨h3, hw⟩
    have hn := hfirst _ ((hlast h3).trans hw)
    omega
  · intro hl
    have h3 : 3 ≤ w.length := by omega
    refine ⟨h3, ?_⟩
    rw [← hlast h3, ← hat, hl, Nat.add_sub_cancel]

/-- A byte of the stream while the scanner looks for the marker: it locks at the marker's end. -/
theorem State.Scanned.progress (h : s.Scanned pre t) (hlt : pre.length < noise.length + 3)
    (hf : GnssFrame s.cfg frame)
    (hfirst : ∀ k : Nat, ((noise ++ frame).drop k).take 3 =
      [s.cfg.gSync0, s.cfg.gSync1, s.cfg.gSync2] → noise.length ≤ k)
    (hpre : pre ++ [b] <+: noise ++ frame) :
    ∃ u, byteStep t b = .next u ∧ Progress s noise (pre ++ [b]) u := by
  have hshift := h.shiftIn b
  have hlen : (pre ++ [b]).length = pre.length + 1 := by simp
  have hat : ((noise ++ frame).drop noise.length).take 3 =
      [s.cfg.gSync0, s.cfg.gSync1, s.cfg.gSync2] := by
    rw [List.drop_left]
    exact hf.1
  have hlocks := hshift.locked_iff.trans
    (locks_at_first_sync hfirst hat hpre (by omega))
  by_cases hend : (pre ++ [b]).length = noise.length + 3
  · have hb : 2 < t.cfg.bufSize := by
      obtain ⟨⟨-, hck4, -⟩, -, hfits, -⟩ := h.inv.cfg_wf
      omega
    have hgot : pre ++ [b] = noise ++ [s.cfg.gSync0, s.cfg.gSync1, s.cfg.gSync2] := by
      rw [List.prefix_iff_eq_take.1 hpre, hend, List.take_length_add_append]
      exact congrArg (noise ++ ·) hf.1
    refine ⟨_, byteStep_hunt_locks h.st hb (hlocks.2 hend), .receiving hgot ?_ h.cfg ?_⟩
    · rw [← h.cfg]
      exact receiving_of_lock h.inv h.st hb
    · have hskip := hshift.skip
      rw [hend, Nat.add_sub_cancel] at hskip
      exact hskip
  · exact ⟨_, byteStep_hunt_shifts h.st (Bool.eq_false_of_not_eq_true (mt hlocks.1 hend)),
      .scanning hshift (by omega)⟩

theorem Progress.byteStep (h : Progress s noise pre t) (hf : GnssFrame s.cfg frame)
    (hfirst : ∀ k : Nat, ((noise ++ frame).drop k).take 3 =
      [s.cfg.gSync0, s.cfg.gSync1, s.cfg.gSync2] → noise.length ≤ k)
    (hpre : pre ++ [b] <+: noise ++ frame) :
    ∃ u, byteStep t b = .next u ∧ Progress s noise (pre ++ [b]) u := by
  cases h with
  | scanning hscan hlt => exact hscan.progress hlt hf hfirst hpre
  | @receiving got hgot hrec hcfg hskip =>
    subst hgot
    rw [List.append_assoc, List.prefix_append_right_inj] at hpre
    obtain ⟨u, hu, hrec', hskip'⟩ := hrec.goesOn (hcfg ▸ hf) hpre
    obtain ⟨hcfg', -⟩ := byteEffect_sameHost (byteStep_effect hu)
    exact ⟨u, hu, .receiving (List.append_assoc ..) hrec' (hcfg'.trans hcfg)
      (by rw [hskip', hskip])⟩

/-- When the whole stream has been taken, the frame is received. -/
theorem Progress.complete (h : Progress s noise (noise ++ frame) t) (hf : GnssFrame s.cfg frame) :
    t.Receiving frame ∧ t.cfg = s.cfg ∧
      t.cntSkip.toNat = min (s.cntSkip.toNat + noise.length) 0xFFFF := by
  cases h with
  | scanning _ hlt =>
    have h3 := hf.three_le_length
    rw [List.length_append] at hlt
    omega
  | receiving hgot hrec hcfg hskip =>
    rw [List.append_cancel_left hgot]
    exact ⟨hrec, hcfg, hskip⟩

end

end Sys2Proof.Machine

section
open Sys2Proof Sys2Proof.Machine

/-- Settles O59: by induction on the stream, each byte keeps `Progress`; at its end the invariant
says that the frame is held. -/
theorem gnssFrameIsHeld : Obligations.GnssFrameIsHeld := by
  intro s noise frame rest h hst hcnt hf hfirst hcycles
  have hstep : ∀ (pre : List Byte) (b : Byte) (cs : List Cycle) (t : State),
      pre ++ [b] <+: noise ++ frame → Progress s noise pre t → t.cycles = byteCycle b :: cs →
      ∃ u, step t = .next u ∧ Progress s noise (pre ++ [b]) u ∧ u.cycles = cs := by
    intro pre b cs t hpre hprog hcs
    obtain ⟨u, hu, hprog'⟩ := (hprog.awaiting cs).byteStep hf hfirst hpre
    obtain ⟨-, -, -, -, -, -, -, hcycles'⟩ := byteEffect_sameHost (byteStep_effect hu)
    exact ⟨u, (step_byteCycle hprog.cfg_wf (hprog.inReady hf hpre) hcs).trans hu, hprog', hcycles'⟩
  obtain ⟨t, hrun, hprog, hrest⟩ := core_run_bytes hstep (noise ++ frame) [] s rfl
    (.scanning (scanned_nil h hst hcnt) (Nat.succ_pos _)) hcycles
  obtain ⟨hrec, hcfg, hskip⟩ := hprog.complete hf
  have hdone := hrec.st_of_frame (hcfg ▸ hf)
  obtain ⟨hflen, -⟩ := (frameSoFar_done_gnss hdone hrec.mode).1 hrec.frameSoFar.2
  refine ⟨t, hrun, hdone, (hrec.inv.done_gnss hdone hrec.mode).1, ?_, ?_, hskip, hrest⟩
  · rw [hflen, hrec.length]
  · rw [hrec.length, hrec.reads]

end


section
/-! The integrity functions over byte strings (41_integrity.md R140 to R143) and the commands of the
standalone unit (R149 to R152). The key lemma is `execAll_unit`: the unit over any string answers
the code that its accumulator over the string stands for. -/

namespace Sys2Proof.Machine

/-! ### CRC-32 and SUM16 of byte strings -/

theorem crcRounds_eq_iterate (poly : Word) (k : Nat) : crcRounds poly k = (crcRound poly)^[k] := by
  induction k with
  | zero => rfl
  | succ k ih =>
    funext c
    rw [crcRounds_succ, Function.iterate_succ_apply, ih]

theorem sumUpd_toNat (acc : Half) (b : Byte) :
    (sumUpd acc b).toNat = (acc.toNat + b.toNat) % 65536 := by
  rw [sumUpd, BitVec.toNat_add, BitVec.toNat_setWidth, Nat.add_mod_mod]

theorem foldl_sumUpd_toNat (bs : List Byte) (acc : Half) :
    (bs.foldl sumUpd acc).toNat = (acc.toNat + (bs.map BitVec.toNat).sum) % 65536 := by
  induction bs generalizing acc with
  | nil => exact (Nat.mod_eq_of_lt acc.isLt).symm
  | cons b bs ih =>
    rw [List.foldl_cons, ih, sumUpd_toNat, List.map_cons, List.sum_cons, Nat.mod_add_mod,
      Nat.add_assoc]

theorem sum16_toNat (p : Params) (bs : List Byte) :
    (sum16 p bs).toNat = (p.sumInit.toNat + (bs.map BitVec.toNat).sum) % 65536 :=
  foldl_sumUpd_toNat bs p.sumInit

theorem sum16_perm (p : Params) {bs cs : List Byte} (h : bs.Perm cs) : sum16 p bs = sum16 p cs := by
  have hsum : (bs.map BitVec.toNat).sum = (cs.map BitVec.toNat).sum := (h.map _).sum_eq
  exact BitVec.eq_of_toNat_eq (by rw [sum16_toNat, sum16_toNat, hsum])

theorem sum16_replicate_toNat (p : Params) (n : Nat) (b : Byte) :
    (sum16 p (List.replicate n b)).toNat = (p.sumInit.toNat + n * b.toNat) % 65536 := by
  rw [sum16_toNat, List.map_replicate, List.sum_replicate_nat]

/-- One byte after the other into the accumulator of a new computation. -/
theorem foldl_accUpd_accInit (p : Params) (alg : Alg) (bs : List Byte) :
    bs.foldl (accUpd p alg) (accInit p alg) = accOver p alg bs := by
  induction bs using List.reverseRecOn with
  | nil => rw [List.foldl_nil, accOver_nil]
  | append_singleton bs b ih => rw [List.foldl_concat, ih, accUpd_accOver]

/-! ### The commands of the unit -/

/-- A format I word whose immediate is in a case of R87 (30_encoding.md) does not decode; `hi` is
the word's upper half. -/
theorem decode_error_of_immediate {opc : BitVec 6} {hi imm : Half}
    (hhi : hi = opc ++ (0 : BitVec 2) ++ (0 : BitVec 1) ++ (0 : BitVec 7))
    (h : IllegalFields (plainFields opc imm)) : ∃ e, decode (hi ++ imm) = .error e := by
  have hword : hi ++ imm = wordOf (plainFields opc imm) := by rw [hhi, wordOf, plainFields]
  rw [hword]
  exact decode_error_of_no_row (no_row_of_illegalFields h)

section
variable (s : State)

theorem exec_ckinit (a : Alg) : exec (.ckinit a) s =
    .next { s with xalg := a, xacc := accInit s.cfg a, rsp := some ⟨.ok, 0⟩ } := rfl

theorem exec_ckbyte (b : Byte) : exec (.ckbyte b) s =
    .next { s with xacc := accUpd s.cfg s.xalg s.xacc b, rsp := some ⟨.ok, 0⟩ } := rfl

theorem exec_ckread : exec .ckread s =
    .next { s with rsp := some ⟨.ok, accOut s.cfg s.xalg s.xacc⟩ } := rfl

end

theorem execAll_cons {i : Instr} {s t : State} (h : exec i s = .next t) (is : List Instr) :
    execAll (i :: is) s = execAll is t := by
  rw [execAll, h]

/-- The bytes go into the accumulator one by one, and the read answers what it stands for. -/
theorem execAll_ckbytes_ckread (bs : List Byte) (s : State) :
    execAll (bs.map Instr.ckbyte ++ [Instr.ckread]) s = .next { s with
      xacc := bs.foldl (accUpd s.cfg s.xalg) s.xacc,
      rsp := some ⟨.ok, accOut s.cfg s.xalg (bs.foldl (accUpd s.cfg s.xalg) s.xacc)⟩ } := by
  induction bs generalizing s with
  | nil => exact execAll_cons (exec_ckread s) []
  | cons b bs ih =>
    rw [List.map_cons, List.cons_append, execAll_cons (exec_ckbyte s b), ih, List.foldl_cons]

/-- The unit over a byte string (41_integrity.md R149), for both functions. -/
theorem execAll_unit (a : Alg) (bs : List Byte) (s : State) :
    execAll ([Instr.ckinit a] ++ bs.map Instr.ckbyte ++ [Instr.ckread]) s = .next { s with
      xalg := a, xacc := accOver s.cfg a bs,
      rsp := some ⟨.ok, accOut s.cfg a (accOver s.cfg a bs)⟩ } := by
  rw [List.append_assoc, List.singleton_append, execAll_cons (exec_ckinit s a),
    execAll_ckbytes_ckread, foldl_accUpd_accInit]

/-! ### The covered bytes of a held frame (41_integrity.md R146) -/

section
variable {s : State}

theorem State.Holds.reads_covered {bs : List Byte} (h : s.Holds bs) :
    s.readBytes 0 s.coveredLen = .ok (bs.take s.coverEnd) := by
  have hle : 0 + s.coveredLen ≤ bs.length := by
    rw [Nat.zero_add, h.length, coveredLen_eq]
    exact Nat.min_le_left _ _
  rw [← take_coveredLen h.length]
  exact State.readBytes_sub h.reads hle

/-- `CALC` of a held frame is the code of the covered bytes, on either path (40_frame_engine.md
R112, R117). -/
theorem State.Inv.done_calcCk (h : s.Inv) (hst : s.st = .done) :
    ∃ bs, s.readBytes 0 s.coveredLen = .ok bs ∧
      s.calcCk = accOut s.cfg (algOfPath s.mode) (accOver s.cfg (algOfPath s.mode) bs) := by
  obtain ⟨bs, hbs, -, hgnss, hwindow⟩ := h.done_frame hst
  refine ⟨bs.take s.coverEnd, hbs.reads_covered, ?_⟩
  cases hm : s.mode with
  | gnss =>
    obtain ⟨-, -, hlen, -, hcalc, -⟩ := hgnss hm
    have hend : bs.length - 4 = s.coverEnd := by rw [hlen, coverEnd_gnss hm, Nat.add_sub_cancel]
    rw [hcalc, hend]
    rfl
  | attitude =>
    obtain ⟨-, -, hcalc, -⟩ := hwindow hm
    rw [hcalc, coverEnd_attitude hm]
    rfl

end

end Sys2Proof.Machine

open Sys2Proof Sys2Proof.Machine

/-- Settles O27: by induction on the string, `execAll_unit`, for each of the two functions. -/
theorem unitComputesIntegrityCode : Obligations.UnitComputesIntegrityCode :=
  fun bs s => ⟨execAll_unit .crc32 bs s, execAll_unit .sum16 bs s⟩

/-- Settles O28: `CALC` is the code of the covered bytes by the invariant, and the unit computes the
code of any bytes. -/
theorem unitAgreesWithEngine : Obligations.UnitAgreesWithEngine := by
  intro s h hst
  obtain ⟨bs, hbs, hcalc⟩ := h.done_calcCk hst
  refine ⟨bs, hbs, _, execAll_unit (algOfPath s.mode) bs s, ?_⟩
  rw [hcalc]

/-- Settles O30: the sum over the integers, reduced once, does not depend on the order. -/
theorem sumIsModularAndOrderFree : Obligations.SumIsModularAndOrderFree := by
  refine ⟨sum16_toNat, fun p _ _ => sum16_perm p, ?_, ?_, by decide, by decide, by decide⟩
  · exact BitVec.eq_of_toNat_eq (sum16_replicate_toNat Params.default 257 0xFF)
  · exact BitVec.eq_of_toNat_eq (sum16_replicate_toNat Params.default 258 0xFF)

/-- Settles O24: `CKINIT` writes the same registers in every state, and those are the values that a
reset gives them. -/
theorem ckinitLoadsAccumulator : Obligations.CkinitLoadsAccumulator := by
  refine ⟨by decide, by decide, fun imm himm => ?_,
    fun s => ⟨exec_ckinit s .crc32, exec_ckinit s .sum16⟩,
    fun p => exec_ckinit (State.resetWith p) .crc32⟩
  exact decode_error_of_immediate (opc := 0x10) (by decide)
    (by simp [IllegalFields, plainFields, himm])

/-- Settles O25: one byte into the accumulator of the function that `XALG` selects. -/
theorem ckbyteUpdatesAccumulator : Obligations.CkbyteUpdatesAccumulator := by
  refine ⟨by decide, fun imm himm => ?_, fun b s => ⟨fun halg => ?_, fun halg => ?_⟩⟩
  · exact decode_error_of_immediate (opc := 0x11) (by decide)
      (by simp [IllegalFields, plainFields, himm])
  · rw [exec_ckbyte, halg, accUpd]
  · rw [exec_ckbyte, halg, accUpd_sum16]

/-- Settles O26: a read writes nothing that the next read looks at. -/
theorem ckreadAnswersCode : Obligations.CkreadAnswersCode := by
  refine ⟨by decide, fun s =>
    ⟨fun halg => ?_, fun halg => ?_, _, exec_ckread s, exec_ckread _⟩⟩
  · rw [exec_ckread, halg, accOut]
  · rw [exec_ckread, halg, accOut]

/-- Settles O29: the rounds are an iterate, the accumulator over a string is a fold, and the
examples are computed. -/
theorem crcOfByteStrings : Obligations.CrcOfByteStrings := by
  refine ⟨fun p c b => ?_, by decide, by decide, by decide, crcAcc_nil, crcAcc_snoc,
    fun _ _ => rfl, by decide, by decide +kernel, by decide +kernel, by decide +kernel,
    by decide +kernel, by decide, by decide +kernel, by decide +kernel⟩
  rw [crcUpd, crcRounds_eq_iterate]
  rfl

end

section
/-! The statements of 42_unpack.md: the cursor commands (R160, R161), the loads with their checks
(R162 to R170), and the commands that read bits of `ACC` (R171 to R174). The key lemmas are
`load_eq_respond`, a load that fails a check, `load_of_bytes`, a load that passes all four, and
`bitField_two` and `bitField_two_eq_iff`, a field of two bits as a number and as its bits. -/

namespace Sys2Proof.Machine

/-! ### The cursor commands -/

/-- The word of a format I command, by its upper half and its immediate (30_encoding.md R82). -/
theorem wordOf_plainFields {opc : BitVec 6} {hi : Half}
    (hhi : hi = opc ++ (0 : BitVec 2) ++ (0 : BitVec 1) ++ (0 : BitVec 7)) (imm : Half) :
    wordOf (plainFields opc imm) = hi ++ imm := by
  rw [hhi, wordOf, plainFields]

theorem encode_seek (off : Half) : encode (.seek off) = (0x8000 : Half) ++ off :=
  wordOf_plainFields (opc := 0x20) (by decide) off

theorem encode_seekb (off : Half) : encode (.seekb off) = (0x8400 : Half) ++ off :=
  wordOf_plainFields (opc := 0x21) (by decide) off

theorem exec_seek (off : Half) (s : State) :
    exec (.seek off) s = .next { s with cur := off, rsp := some ⟨.ok, 0⟩ } := rfl

theorem exec_seekb (off : Half) (s : State) :
    exec (.seekb off) s = .next { s with cur := s.bodyOff + off, rsp := some ⟨.ok, 0⟩ } := rfl

/-- A 16-bit sum whose first summand is written as a number wraps once (42_unpack.md R161). -/
theorem ofNat_add_half (n : Nat) (off : Half) :
    BitVec.ofNat 16 n + off = BitVec.ofNat 16 ((n + off.toNat) % 65536) := by
  apply BitVec.eq_of_toNat_eq
  simp

/-! ### The checks of a load -/

theorem present_eq_true_iff {s : State} {slot : Slot} :
    s.present slot = true ↔ SlotPresent s slot := by
  cases slot <;> simp [State.present, SlotPresent]

/-- Every load form runs the one procedure of 42_unpack.md R162. -/
theorem exec_of_isLoad {i : Instr} {n : Nat} {slot : Slot} {am : AddrMode}
    (h : IsLoad i n slot am) : ∃ sg, ∀ s, exec i s = load n sg slot am s := by
  cases h with
  | ldu8 | ldu8Cur | ldu16 | ldu16Cur | ld32 | ld32Cur => exact ⟨false, fun _ => rfl⟩
  | lds8 | lds8Cur | lds16 | lds16Cur => exact ⟨true, fun _ => rfl⟩

section
variable {s : State} {n : Nat} {slot : Slot} {am : AddrMode}

theorem loadStatus_badState (hst : s.st ≠ .done) : s.loadStatus n slot am = .badState :=
  if_pos hst

theorem loadStatus_notOk (hst : s.st = .done) (hres : s.result ≠ .ok) :
    s.loadStatus n slot am = .notOk := by
  simp [State.loadStatus, hst, hres]

theorem loadStatus_absent (hst : s.st = .done) (hres : s.result = .ok)
    (hslot : ¬SlotPresent s slot) : s.loadStatus n slot am = .absent := by
  rw [← present_eq_true_iff, Bool.not_eq_true] at hslot
  simp [State.loadStatus, hst, hres, hslot]

theorem loadStatus_range (hst : s.st = .done) (hres : s.result = .ok) (hslot : SlotPresent s slot)
    (hlt : s.flen.toNat < (s.effectiveAddr am).toNat + n) : s.loadStatus n slot am = .range := by
  rw [← present_eq_true_iff] at hslot
  simp [State.loadStatus, hst, hres, hslot, hlt]

theorem loadStatus_ok (h : LoadAllowed s slot (s.effectiveAddr am).toNat n) :
    s.loadStatus n slot am = .ok := by
  obtain ⟨hst, hres, hslot, hle⟩ := h
  exact loadStatus_eq_ok.2 ⟨hst, hres, present_eq_true_iff.2 hslot, hle⟩

/-- A load that fails a check answers that check's status and changes nothing. -/
theorem load_eq_respond {r : Status} (sg : Bool) (h : s.loadStatus n slot am = r) (hr : r ≠ .ok) :
    load n sg slot am s = .next { s with rsp := some ⟨r, 0⟩ } := by
  subst h
  exact load_eq_next.2 (.inl ⟨hr, rfl⟩)

/-! ### A load that passes its checks -/

/-- Where the checks pass and the bytes have been written, a load puts their little-endian value,
extended, in `ACC` and in the response, and moves the cursor in cursor form. -/
theorem load_of_bytes {bs : List Byte} (sg : Bool)
    (h : LoadAllowed s slot (s.effectiveAddr am).toNat n)
    (hbs : s.readBytes (s.effectiveAddr am).toNat n = .ok bs) :
    load n sg slot am s = .next { s with
      acc := extendTo32 sg (8 * n) (leValue bs), cur := s.cursorAfter n am,
      rsp := some ⟨.ok, extendTo32 sg (8 * n) (leValue bs)⟩ } :=
  load_eq_next.2 (.inr ⟨loadStatus_ok h, _, State.memRead_eq_ok.2 ⟨bs, hbs, rfl⟩, rfl⟩)

end

theorem readBytes_nil (s : State) (a : Nat) : s.readBytes a 0 = .ok [] := rfl

theorem readBytes_cons {s : State} {a n : Nat} {b : Byte} {bs : List Byte}
    (hb : s.readByte a = .ok b) (hbs : s.readBytes (a + 1) n = .ok bs) :
    s.readBytes a (n + 1) = .ok (b :: bs) := by
  simp [State.readBytes, hb, hbs]

section
variable {s : State} {a : Nat} {b0 b1 b2 b3 : Byte}

theorem readBytes_one (h0 : s.readByte a = .ok b0) : s.readBytes a 1 = .ok [b0] :=
  readBytes_cons h0 (readBytes_nil s _)

theorem readBytes_two (h0 : s.readByte a = .ok b0) (h1 : s.readByte (a + 1) = .ok b1) :
    s.readBytes a 2 = .ok [b0, b1] :=
  readBytes_cons h0 (readBytes_one h1)

theorem readBytes_four (h0 : s.readByte a = .ok b0) (h1 : s.readByte (a + 1) = .ok b1)
    (h2 : s.readByte (a + 2) = .ok b2) (h3 : s.readByte (a + 3) = .ok b3) :
    s.readBytes a 4 = .ok [b0, b1, b2, b3] :=
  readBytes_cons h0 (readBytes_cons h1 (readBytes_two h2 h3))

end

/-! ### Extension to 32 bits -/

/-- Zero extension of a number that its bits hold is that number. -/
theorem extendTo32_unsigned {bits v : Nat} (hv : v < 2 ^ bits) :
    extendTo32 false bits v = BitVec.ofNat 32 v := by
  apply BitVec.eq_of_toNat_eq
  simp [extendTo32, Nat.mod_eq_of_lt hv]

theorem extend_bytes_unsigned (bs : List Byte) :
    extendTo32 false (8 * bs.length) (leValue bs) = BitVec.ofNat 32 (leValue bs) := by
  refine extendTo32_unsigned ?_
  rw [Nat.pow_mul]
  exact leValue_lt bs

/-- Sign extension of a number is that of the integer that its bits stand for. -/
theorem extendTo32_signed (bits v : Nat) :
    extendTo32 true bits v = BitVec.ofInt 32 (BitVec.ofNat bits v).toInt := rfl

theorem leValue_one (b : Byte) : leValue [b] = b.toNat := by
  rw [leValue_cons, leValue_nil, Nat.mul_zero, Nat.add_zero]

theorem leValue_two (b0 b1 : Byte) : leValue [b0, b1] = b0.toNat + 256 * b1.toNat := by
  rw [leValue_cons, leValue_one]

theorem extend_byte_unsigned (b : Byte) :
    extendTo32 false (8 * 1) (leValue [b]) = BitVec.ofNat 32 b.toNat :=
  (extend_bytes_unsigned [b]).trans (congrArg _ (leValue_one b))

theorem extend_byte_signed (b : Byte) :
    extendTo32 true (8 * 1) (leValue [b]) = BitVec.ofInt 32 b.toInt := by
  rw [extendTo32_signed, Nat.mul_one, leValue_one, BitVec.ofNat_toNat, BitVec.setWidth_eq]

theorem extend_half_unsigned (b0 b1 : Byte) :
    extendTo32 false (8 * 2) (leValue [b0, b1]) = BitVec.ofNat 32 (b0.toNat + 256 * b1.toNat) :=
  (extend_bytes_unsigned [b0, b1]).trans (congrArg _ (leValue_two b0 b1))

/-- Two bytes as a signed half: the more significant byte carries the sign. -/
theorem toInt_ofNat_half (b0 b1 : Byte) :
    (BitVec.ofNat 16 (leValue [b0, b1])).toInt = b0.toNat + 256 * b1.toInt := by
  have h0 := b0.isLt
  have h1 := b1.isLt
  simp only [leValue_two, BitVec.toInt_eq_toNat_cond, BitVec.toNat_ofNat]
  split <;> split <;> omega

theorem extend_half_signed (b0 b1 : Byte) :
    extendTo32 true (8 * 2) (leValue [b0, b1]) =
      BitVec.ofInt 32 (b0.toNat + 256 * b1.toInt) := by
  rw [extendTo32_signed, toInt_ofNat_half]

theorem toNat_append_byte {w : Nat} (x : BitVec w) (b : Byte) :
    (x ++ b).toNat = b.toNat + 256 * x.toNat := by
  rw [BitVec.toNat_append, ← Nat.shiftLeft_add_eq_or_of_lt b.isLt, Nat.shiftLeft_eq]
  omega

theorem extend_word (b0 b1 b2 b3 : Byte) :
    extendTo32 false (8 * 4) (leValue [b0, b1, b2, b3]) = b3 ++ b2 ++ b1 ++ b0 := by
  have hval : leValue [b0, b1, b2, b3] = (b3 ++ b2 ++ b1 ++ b0).toNat := by
    rw [leValue_cons, leValue_cons, leValue_two, toNat_append_byte, toNat_append_byte,
      toNat_append_byte]
  calc extendTo32 false (8 * 4) (leValue [b0, b1, b2, b3])
      = BitVec.ofNat 32 (leValue [b0, b1, b2, b3]) := extend_bytes_unsigned [b0, b1, b2, b3]
    _ = b3 ++ b2 ++ b1 ++ b0 := by rw [hval, BitVec.ofNat_toNat, BitVec.setWidth_eq]

/-! ### The bit fields of `ACC` -/

theorem fieldAnswer_inside {lsb : BitVec 5} {w : Nat} (v : Word) (s : State)
    (h : lsb.toNat + w ≤ 32) : fieldAnswer lsb w v s = .next { s with rsp := some ⟨.ok, v⟩ } :=
  fieldAnswer_eq_next.2 (.inr ⟨h, rfl⟩)

theorem getLsbD_bitField (x : Word) (lsb w : Nat) {k : Nat} (hk : k < 32) :
    (bitField x lsb w).getLsbD k = (decide (k < w) && x.getLsbD (lsb + k)) := by
  simp [bitField, BitVec.getLsbD_extractLsb', hk]

/-- Above the field the answer repeats the field's top bit (42_unpack.md R172). -/
theorem getLsbD_signedBitField (x : Word) (lsb : Nat) {w k : Nat} (hw : 1 ≤ w) (hk : k < 32) :
    (signedBitField x lsb w).getLsbD k = x.getLsbD (lsb + min k (w - 1)) := by
  rw [signedBitField, BitVec.getLsbD_signExtend, decide_eq_true hk, Bool.true_and]
  split
  · next hlt =>
    rw [BitVec.getLsbD_extractLsb', decide_eq_true hlt, Bool.true_and,
      Nat.min_eq_left (Nat.le_sub_one_of_lt hlt)]
  · next hge =>
    rw [BitVec.msb_eq_getLsbD_last, BitVec.getLsbD_extractLsb', decide_eq_true (by omega),
      Bool.true_and, Nat.min_eq_right (by omega)]

/-- The field of two bits at position `p` is the digit `p` of the word in base 4. -/
theorem bitField_two (x : Word) (p : Nat) :
    bitField x (2 * p) 2 = BitVec.ofNat 32 (x.toNat / 4 ^ p % 4) := by
  have hpow : 2 ^ (2 * p) = 4 ^ p := Nat.pow_mul 2 2 p
  apply BitVec.eq_of_toNat_eq
  rw [bitField, BitVec.toNat_setWidth, BitVec.extractLsb'_toNat, Nat.shiftRight_eq_div_pow, hpow,
    BitVec.toNat_ofNat]

/-- A field of two bits is its two bits. -/
theorem bitField_two_eq_iff {x y : Word} {lsb : Nat} :
    bitField x lsb 2 = bitField y lsb 2 ↔
      x.getLsbD lsb = y.getLsbD lsb ∧ x.getLsbD (lsb + 1) = y.getLsbD (lsb + 1) := by
  constructor
  · intro h
    have hbit (k : Nat) (hk : k < 2) : x.getLsbD (lsb + k) = y.getLsbD (lsb + k) := by
      have hk32 : k < 32 := by omega
      have := congrArg (BitVec.getLsbD · k) h
      simpa only [getLsbD_bitField _ _ _ hk32, decide_eq_true hk, Bool.true_and] using this
    exact ⟨hbit 0 (by decide), hbit 1 (by decide)⟩
  · rintro ⟨h0, h1⟩
    apply BitVec.eq_of_getLsbD_eq
    intro k hk
    rw [getLsbD_bitField x lsb 2 hk, getLsbD_bitField y lsb 2 hk]
    match k with
    | 0 => rw [Nat.add_zero, h0]
    | 1 => rw [h1]
    | k + 2 => simp

/-! ### The flag positions -/

theorem exec_flags (p : BitVec 3) (s : State) :
    exec (.flags p) s =
      .next { s with rsp := some ⟨.ok, bitField s.acc (2 * p.toNat) 2⟩ } := rfl

/-- The bit at which a flag position begins, as the operand of `BITS` (42_unpack.md R173). -/
theorem toNat_flagLsb (p : BitVec 3) : (BitVec.ofNat 5 (2 * p.toNat)).toNat = 2 * p.toNat :=
  Nat.mod_eq_of_lt (by omega)

theorem exec_flags_eq_bits (p : BitVec 3) (s : State) :
    exec (.flags p) s = exec (.bits (BitVec.ofNat 5 (2 * p.toNat)) 2) s := by
  have hfit : (BitVec.ofNat 5 (2 * p.toNat)).toNat + 2 ≤ 32 := by
    rw [toNat_flagLsb]
    omega
  calc exec (.flags p) s
      = .next { s with rsp := some ⟨.ok, bitField s.acc (2 * p.toNat) 2⟩ } := exec_flags p s
    _ = .next { s with
          rsp := some ⟨.ok, bitField s.acc (BitVec.ofNat 5 (2 * p.toNat)).toNat 2⟩ } := by
        rw [toNat_flagLsb]
    _ = exec (.bits (BitVec.ofNat 5 (2 * p.toNat)) 2) s := (fieldAnswer_inside _ s hfit).symm

theorem flagsData_eq (s : State) (p : BitVec 3) :
    flagsData s p = some (bitField s.acc (2 * p.toNat) 2) := rfl

theorem flagsData_eq_iff {s t : State} {p : BitVec 3} :
    flagsData s p = flagsData t p ↔
      s.acc.getLsbD (2 * p.toNat) = t.acc.getLsbD (2 * p.toNat) ∧
      s.acc.getLsbD (2 * p.toNat + 1) = t.acc.getLsbD (2 * p.toNat + 1) := by
  rw [flagsData_eq, flagsData_eq, Option.some_inj, bitField_two_eq_iff]

theorem extractLow_eq_iff {x y : Word} {n : Nat} :
    x.extractLsb' 0 n = y.extractLsb' 0 n ↔ ∀ k < n, x.getLsbD k = y.getLsbD k := by
  constructor
  · intro h k hk
    have := congrArg (·.getLsbD k) h
    simpa [BitVec.getLsbD_extractLsb', hk] using this
  · intro h
    apply BitVec.eq_of_getLsbD_eq
    intro k hk
    simp [BitVec.getLsbD_extractLsb', h k hk]

/-- The bit `k` of `ACC[15:0]` belongs to the flag position `k / 2`. -/
theorem flags_determine_low_half {s t : State} :
    (∀ p : BitVec 3, flagsData s p = flagsData t p) ↔
      s.acc.extractLsb' 0 16 = t.acc.extractLsb' 0 16 := by
  simp only [flagsData_eq_iff, extractLow_eq_iff]
  constructor
  · intro h k hk
    have hp : (BitVec.ofNat 3 (k / 2)).toNat = k / 2 := Nat.mod_eq_of_lt (by omega)
    obtain ⟨heven, hodd⟩ := h (BitVec.ofNat 3 (k / 2))
    rw [hp] at heven hodd
    rcases Nat.mod_two_eq_zero_or_one k with hk2 | hk2
    · rwa [show 2 * (k / 2) = k by omega] at heven
    · rwa [show 2 * (k / 2) + 1 = k by omega] at hodd
  · intro h p
    have hp := p.isLt
    exact ⟨h _ (by omega), h _ (by omega)⟩

/-- The low digits of a number in a base add up to the number modulo the base's power. -/
theorem sum_digits_eq_mod_pow (x base n : Nat) :
    ∑ k : Fin n, x / base ^ k.val % base * base ^ k.val = x % base ^ n := by
  induction n with
  | zero => simp [Nat.mod_one]
  | succ n ih =>
    rw [Fin.sum_univ_castSucc, Nat.mod_pow_succ, ← ih]
    simp [Nat.mul_comm]

end Sys2Proof.Machine

open Sys2Proof Sys2Proof.Machine

/-- Settles O37: a field past bit 31 is refused, and inside the word the answer is the field, bit by
bit. -/
theorem bitFieldsOfAcc : Obligations.BitFieldsOfAcc := by
  refine ⟨by decide, by decide, fun imm himm => ⟨?_, ?_⟩,
    fun s lsb w ⟨hlo, _⟩ => ⟨fun hpast => ?_, fun hin => ⟨?_, ?_⟩⟩⟩
  · exact decode_error_of_immediate (opc := 0x28) (by decide)
      (by simpa [IllegalFields, plainFields] using himm)
  · exact decode_error_of_immediate (opc := 0x29) (by decide)
      (by simpa [IllegalFields, plainFields] using himm)
  · exact ⟨fieldAnswer_past_bit31 _ s hpast, fieldAnswer_past_bit31 _ s hpast⟩
  · exact ⟨_, fieldAnswer_inside _ s hin, fun k hk => getLsbD_bitField s.acc _ w hk⟩
  · exact ⟨_, fieldAnswer_inside _ s hin, fun k hk => getLsbD_signedBitField s.acc _ hlo hk⟩

/-- Settles O39: a result is two bits of `ACC`, the eight positions are the bits of `ACC[15:0]`, and
the results are its digits in base 4. -/
theorem flagPositionsDoNotLeak : Obligations.FlagPositionsDoNotLeak := by
  refine ⟨fun s t p h0 h1 => flagsData_eq_iff.2 ⟨h0, h1⟩, fun s t => flags_determine_low_half,
    fun s => ⟨fun k => s.acc.toNat / 4 ^ k.val % 4, fun k => ⟨?_, Nat.mod_lt _ (by decide)⟩, ?_⟩⟩
  · have hp : (BitVec.ofNat 3 k.val).toNat = k.val := Nat.mod_eq_of_lt k.isLt
    rw [flagsData_eq, hp, bitField_two]
  · have hpow : 4 ^ 8 = 2 ^ 16 := by decide
    rw [BitVec.extractLsb'_toNat, Nat.shiftRight_zero, sum_digits_eq_mod_pow, hpow]

/-- Settles O38: a flag position is a field of two bits. -/
theorem flagsOfAPosition : Obligations.FlagsOfAPosition := by
  refine ⟨by decide, fun imm himm => ?_, fun s p => ⟨?_, exec_flags_eq_bits p s⟩⟩
  · exact decode_error_of_immediate (opc := 0x2A) (by decide)
      (by simp [IllegalFields, plainFields, himm])
  · rw [exec_flags, bitField_two]

/-- Settles O32: every immediate is an operand, and the body offset is that of the path. -/
theorem cursorCommandsSetCursor : Obligations.CursorCommandsSetCursor := by
  refine ⟨by decide, by decide, fun imm => ⟨decode_eq_ok_iff.2 ⟨rfl, encode_seek imm⟩,
    decode_eq_ok_iff.2 ⟨rfl, encode_seekb imm⟩⟩,
    fun off s => ⟨exec_seek off s, fun hm => ?_, fun hm => ?_⟩⟩
  · rw [exec_seekb, State.bodyOff, hm, ofNat_add_half]
  · rw [exec_seekb, State.bodyOff, hm, ofNat_add_half]

/-- Settles O33: the ten forms are one procedure, and each check decides its status where the
earlier ones pass. -/
theorem loadChecksInOrder : Obligations.LoadChecksInOrder := by
  intro i n slot am s hi
  obtain ⟨sg, hexec⟩ := exec_of_isLoad hi
  rw [hexec]
  exact ⟨fun hst => load_eq_respond sg (loadStatus_badState hst) (by decide),
    fun hst hres => load_eq_respond sg (loadStatus_notOk hst hres) (by decide),
    fun hst hres hslot => load_eq_respond sg (loadStatus_absent hst hres hslot) (by decide),
    fun hst hres hslot hlt =>
      load_eq_respond sg (loadStatus_range hst hres hslot hlt) (by decide)⟩

/-- Settles O34: `load_of_bytes` for one byte, with each extension. -/
theorem byteLoadsExtend : Obligations.ByteLoadsExtend := by
  intro s slot off b
  rw [← extend_byte_unsigned, ← extend_byte_signed]
  exact
    ⟨fun h hb => ⟨load_of_bytes (am := .absolute off) false h (readBytes_one hb),
      load_of_bytes (am := .absolute off) true h (readBytes_one hb)⟩,
     fun h hb => ⟨load_of_bytes (am := .cursor) false h (readBytes_one hb),
      load_of_bytes (am := .cursor) true h (readBytes_one hb)⟩⟩

/-- Settles O35: `load_of_bytes` for two bytes, with each extension. -/
theorem halfLoadsExtend : Obligations.HalfLoadsExtend := by
  intro s slot off b0 b1
  rw [← extend_half_unsigned, ← extend_half_signed]
  exact
    ⟨fun h h0 h1 => ⟨load_of_bytes (am := .absolute off) false h (readBytes_two h0 h1),
      load_of_bytes (am := .absolute off) true h (readBytes_two h0 h1)⟩,
     fun h h0 h1 => ⟨load_of_bytes (am := .cursor) false h (readBytes_two h0 h1),
      load_of_bytes (am := .cursor) true h (readBytes_two h0 h1)⟩⟩

/-- Settles O36: `load_of_bytes` for four bytes, whose value is their concatenation. -/
theorem wordLoadsAssemble : Obligations.WordLoadsAssemble := by
  intro s slot off b0 b1 b2 b3
  rw [← extend_word]
  exact
    ⟨fun h h0 h1 h2 h3 =>
      load_of_bytes (am := .absolute off) false h (readBytes_four h0 h1 h2 h3),
     fun h h0 h1 h2 h3 => load_of_bytes (am := .cursor) false h (readBytes_four h0 h1 h2 h3)⟩

end

section
/-! The statements of 43_control.md: the step of a command (R189) and the control and status
commands (R190 to R199). A command that is legal in some states only is `whenLegal_of_legal` where
it is legal and `whenLegal_of_illegal` elsewhere. Its writes are the model's own `newFrame`,
`restart`, `goIdle` and `leaveFault`; what the first two write on each path is said once. -/

namespace Sys2Proof.Machine

/-! ### The step of a command (R189) -/

theorem commandStep_of_decode {w : Word} {i : Instr} (h : decode w = .ok i) (s : State) :
    commandStep w s = exec i s := by
  rw [commandStep, h]

section
variable {legal : Bool} {s s' : State}

theorem whenLegal_of_legal (h : legal = true) :
    whenLegal legal s s' = .next { s' with rsp := some ⟨.ok, 0⟩ } :=
  whenLegal_eq_next.2 (.inl ⟨h, rfl⟩)

theorem whenLegal_of_illegal (h : legal = false) :
    whenLegal legal s s' = .next { s with rsp := some ⟨.badState, 0⟩ } :=
  whenLegal_eq_next.2 (.inr ⟨h, rfl⟩)

end

/-! ### The beginning of a frame on each path (40_frame_engine.md R101) -/

section
variable {s : State}

theorem restart_attitude (hm : s.mode = .attitude) :
    s.restart = { s with
      pos := 0, shreg := 0, shcnt := 0, st := .collect, ck := s.cfg.sumInit.setWidth 32 } := by
  rw [State.restart, hm]
  rfl

theorem newFrame_gnss (hm : s.mode = .gnss) :
    s.newFrame = { s with
      result := .none, st := .hunt, pos := 0, shreg := 0, shcnt := 0, ck := s.cfg.crcInit } :=
  restart_gnss (s := { s with result := .none }) hm

theorem newFrame_attitude (hm : s.mode = .attitude) :
    s.newFrame = { s with
      result := .none, st := .collect, pos := 0, shreg := 0, shcnt := 0,
      ck := s.cfg.sumInit.setWidth 32 } :=
  restart_attitude (s := { s with result := .none }) hm

theorem firstState_receiving (m : DevicePath) : (firstState m).receiving = true := by
  cases m <;> rfl

theorem firstState_ne_done (m : DevicePath) : firstState m ≠ .done := by
  cases m <;> decide

theorem newFrame_inReady (s : State) : s.newFrame.inReady = true := firstState_receiving s.mode

/-- The receiving states are those in which `in_ready` is 1 (10_state.md R41). -/
theorem mem_receiving_iff :
    s.st ∈ [EngineState.hunt, .header, .body, .trailer, .collect] ↔ s.inReady = true := by
  rw [inReady_iff]
  simp

end

/-! ### The commands that are legal in some states only (R191 to R196) -/

section
variable {s : State}

theorem exec_start (hst : s.st = .idle) :
    exec .start s = .next { s.newFrame with rsp := some ⟨.ok, 0⟩ } :=
  whenLegal_of_legal (decide_eq_true hst)

theorem exec_stop (hst : s.st ≠ .fault) :
    exec .stop s = .next { s.goIdle with rsp := some ⟨.ok, 0⟩ } :=
  whenLegal_of_legal (by simp [hst])

theorem exec_ack (hst : s.st = .done) :
    exec .ack s = .next { s.newFrame with rsp := some ⟨.ok, 0⟩ } :=
  whenLegal_of_legal (decide_eq_true hst)

theorem exec_flush (hr : s.inReady = true) :
    exec .flush s = .next { s.restart with rsp := some ⟨.ok, 0⟩ } :=
  whenLegal_of_legal hr

/-- Outside `DONE` every load form answers `BADSTATE` (42_unpack.md R162). -/
theorem exec_load_badState {i : Instr} {n : Nat} {slot : Slot} {am : AddrMode}
    (hi : IsLoad i n slot am) (hst : s.st ≠ .done) :
    exec i s = .next { s with rsp := some ⟨.badState, 0⟩ } := by
  obtain ⟨sg, hexec⟩ := exec_of_isLoad hi
  rw [hexec]
  exact load_eq_respond sg (loadStatus_badState hst) (by decide)

end

/-! ### The counters (R197) -/

theorem commandEffect_keeps_counters {s t : State} {i : Instr} (h : CommandEffect s i t)
    (hi : i ≠ .clrcnt) :
    t.cntOk = s.cntOk ∧ t.cntCkerr = s.cntCkerr ∧ t.cntHdrerr = s.cntHdrerr ∧
      t.cntSyncerr = s.cntSyncerr ∧ t.cntSkip = s.cntSkip := by
  cases h with
  | clrcnt => exact absurd rfl hi
  | _ => exact ⟨rfl, rfl, rfl, rfl, rfl⟩

/-! ### The interrupt line (R198, 60_exceptions.md R226) -/

theorem irq_iff (s : State) : s.irq = true ↔
    (s.ie.getLsbD 0 = true ∧ s.st = .done ∧ s.result = .ok) ∨
    (s.ie.getLsbD 1 = true ∧ s.st = .done ∧ (s.result = .eCksum ∨ s.result = .eSync)) ∨
    (s.ie.getLsbD 2 = true ∧ s.st = .fault) := by
  simp only [State.irq, Bool.or_eq_true, Bool.and_eq_true, decide_eq_true_eq, and_assoc, or_assoc]

theorem irq_congr {s t : State} (hie : s.ie = t.ie) (hst : s.st = t.st)
    (hres : s.result = t.result) : s.irq = t.irq := by
  rw [State.irq, hie, hst, hres, ← State.irq]

/-! ### The register map (R199, 10_state.md R37) -/

/-- The words of the register map in the order of their indexes (10_state.md R37, R38). -/
def State.registerMap (s : State) : List Word :=
  [s.statusWord, s.ie.setWidth 32, s.pos.setWidth 32, s.flen.setWidth 32, s.bodyOff.setWidth 32,
    s.hType.setWidth 32, s.hId.setWidth 32, s.hLen.setWidth 32, s.ftype.setWidth 32, s.rxck,
    s.calcCk, s.ck, s.acc, s.cur.setWidth 32, s.xacc, (algCode s.xalg).setWidth 32,
    s.cntOk.setWidth 32, s.cntCkerr.setWidth 32, s.cntHdrerr.setWidth 32, s.cntSyncerr.setWidth 32,
    s.cntSkip.setWidth 32, idreg, BitVec.ofNat 32 s.cfg.bufSize]

theorem readReg_eq_registerMap (s : State) (i : BitVec 6) :
    s.readReg i = s.registerMap[i.toNat]? := by
  by_cases h : 22 < i.toNat
  · rw [(readReg_eq_none_iff s i).2 h]
    exact (List.getElem?_eq_none h).symm
  · unfold State.readReg
    generalize i.toNat = n at *
    interval_cases n <;> rfl

theorem exec_rdreg_assigned {s : State} {i : BitVec 6} {v : Word}
    (h : s.registerMap[i.toNat]? = some v) :
    exec (.rdreg i) s = .next { s with rsp := some ⟨.ok, v⟩ } :=
  execRdreg_eq_next.2 (.inr ⟨v, (readReg_eq_registerMap s i).trans h, rfl⟩)

end Sys2Proof.Machine

open Sys2Proof Sys2Proof.Machine

/-- Settles O6: the cycle runs its command on the state that awaits the rest. -/
theorem stepRunsDecodedCommand : Obligations.StepRunsDecodedCommand := by
  intro s c cs i hw hc hr hs hcmd hdec
  calc step s = cycleStep c cs s := step_of_cycles_cons hw hc
    _ = commandStep c.cmdWord (s.awaiting cs) := cycleStep_of_command cs hr hs hcmd
    _ = exec i (s.awaiting cs) := commandStep_of_decode hdec _

/-- Settles O13: the meaning of `NOP` is its response. -/
theorem nopWritesNothing : Obligations.NopWritesNothing := ⟨by decide, fun _ => rfl⟩

/-- Settles O14: `IDLE` is the state in which `SETMODE` is legal. -/
theorem setmodeNeedsIdle : Obligations.SetmodeNeedsIdle := by
  refine ⟨by decide, by decide, fun imm himm => ?_, fun m s =>
    ⟨fun hst => whenLegal_of_legal (decide_eq_true hst),
      fun hst => whenLegal_of_illegal (decide_eq_false hst)⟩⟩
  exact decode_error_of_immediate (opc := 0x01) (by decide)
    (by simp [IllegalFields, plainFields, himm])

/-- Settles O15: `newFrame` from `IDLE`, path by path. -/
theorem startBeginsReception : Obligations.StartBeginsReception := by
  refine ⟨by decide, fun s => ⟨fun hst hm => ?_, fun hst hm => ?_,
    fun hst => ⟨_, exec_start hst, newFrame_inReady s⟩,
    fun hst => whenLegal_of_illegal (decide_eq_false hst)⟩⟩
  · rw [exec_start hst, newFrame_gnss hm]
  · rw [exec_start hst, newFrame_attitude hm]

/-- Settles O16: `FAULT` is the one state in which `STOP` is not legal. -/
theorem stopGoesIdle : Obligations.StopGoesIdle :=
  ⟨by decide, fun _ => ⟨exec_stop, fun hst => ⟨_, exec_stop hst, rfl⟩,
    fun hst => whenLegal_of_illegal (by simp [hst])⟩⟩

/-- Settles O17: `newFrame` from `DONE`, path by path; a new frame does not begin in `DONE`, and a
load needs `DONE`. -/
theorem ackReleasesFrame : Obligations.AckReleasesFrame := by
  refine ⟨by decide, fun s => ⟨fun hst hm => ?_, fun hst hm => ?_,
    fun i n slot am hst hi =>
      ⟨_, exec_ack hst, exec_load_badState hi (firstState_ne_done s.mode)⟩,
    fun hst => whenLegal_of_illegal (decide_eq_false hst)⟩⟩
  · rw [exec_ack hst, newFrame_gnss hm]
  · rw [exec_ack hst, newFrame_attitude hm]

/-- Settles O18: `restart` from a receiving state, path by path; in a sound state nothing is to
report while bytes are taken. -/
theorem flushBeginsAnew : Obligations.FlushBeginsAnew := by
  refine ⟨by decide, fun s => ?_⟩
  simp only [mem_receiving_iff]
  refine ⟨fun hr hm => ?_, fun hr hm => ?_,
    fun hr => whenLegal_of_illegal (Bool.eq_false_of_not_eq_true hr),
    fun hinv hr => hinv.result_eq_none hr⟩
  · rw [exec_flush hr, restart_gnss hm]
  · rw [exec_flush hr, restart_attitude hm]

/-- Settles O19: `FAULT` is the state in which `CLRERR` is legal. -/
theorem clrerrLeavesFault : Obligations.ClrerrLeavesFault :=
  ⟨by decide, fun _ => ⟨fun hst => whenLegal_of_legal (decide_eq_true hst),
    fun hst => whenLegal_of_illegal (decide_eq_false hst)⟩⟩

/-- Settles O20: a split on the effects of a command, of which only that of `CLRCNT` writes a
counter. -/
theorem clrcntClearsFiveCounters : Obligations.ClrcntClearsFiveCounters := by
  refine ⟨by decide, fun _ => rfl, fun i s t hi h => ?_⟩
  obtain ⟨u, r, d, he, rfl⟩ := exec_responds h
  exact commandEffect_keeps_counters (t := u) he hi

/-- Settles O21: the interrupt line is a formula over the three registers that it names. -/
theorem setieAndInterruptLine : Obligations.SetieAndInterruptLine := by
  refine ⟨by decide, fun imm himm => ?_, fun _ _ => rfl, irq_iff, fun _ _ => irq_congr⟩
  exact decode_error_of_immediate (opc := 0x08) (by decide)
    (by simp [IllegalFields, plainFields, himm])

/-- Settles O22: an index reads the word at its place in the register map, if there is one. -/
theorem rdregReadsTheRegisterMap : Obligations.RdregReadsTheRegisterMap := by
  refine ⟨by decide, fun imm himm => ?_, fun i s =>
    ⟨fun hi => exec_rdreg_unassigned s hi, fun v hv => exec_rdreg_assigned hv⟩⟩
  exact decode_error_of_immediate (opc := 0x09) (by decide)
    (by simp [IllegalFields, plainFields, himm])

end

section
/-! The statements of 60_exceptions.md: the order of the events of one cycle (R224) and the commands
that are refused (R222). A command answers in two ways only, and `Answers` says which. -/

namespace Sys2Proof.Machine

/-! ### The two steps of a cycle with a stream event and a command (R224) -/

/-- A cycle without reset takes its stream event before anything else. -/
theorem cycleStep_of_stream {c : Cycle} {s : State} {e : StreamEvent} (cs : List Cycle)
    (hr : c.rst = false) (he : c.streamEvent s.inReady = some e) :
    cycleStep c cs s = streamStep e (s.awaiting (cyclesAfterStream c cs)) := by
  simp [cycleStep, State.readyDuring, hr, he]

theorem cyclesAfterStream_of_not_cmdValid {c : Cycle} (h : c.cmdValid = false) (cs : List Cycle) :
    cyclesAfterStream c cs = cs := by
  simp [cyclesAfterStream, h]

theorem cyclesAfterStream_of_cmdValid {c : Cycle} (h : c.cmdValid = true) (cs : List Cycle) :
    cyclesAfterStream c cs = c.commandOnly :: cs := if_pos h

/-- Once its stream event has been taken, what is left of a cycle is its command. -/
theorem cycleStep_commandOnly {c : Cycle} (s : State) (cs : List Cycle) (hr : c.rst = false)
    (hc : c.cmdValid = true) :
    cycleStep c.commandOnly cs s = commandStep c.cmdWord (s.awaiting cs) :=
  cycleStep_of_command cs hr (streamEvent_of_not_offered rfl rfl _) hc

/-! ### How a command answers (R222) -/

/-- The two answers of a command on `s`: `OK` after writes of any kind, or another status with data
0 and nothing else changed. -/
inductive Answers (s : State) : State → Prop where
  | ok (u : State) (d : Word) : Answers s (u.respond .ok d)
  | refused {r : Status} : r ≠ .ok → Answers s (s.respond r 0)

section
variable {s t : State}

theorem answers_of_whenLegal {s' : State} {legal : Bool} (h : whenLegal legal s s' = .next t) :
    Answers s t := by
  rcases whenLegal_eq_next.1 h with ⟨-, rfl⟩ | ⟨-, rfl⟩
  · exact .ok ..
  · exact .refused (by decide)

theorem answers_of_rdreg {i : BitVec 6} (h : execRdreg i s = .next t) : Answers s t := by
  rcases execRdreg_eq_next.1 h with ⟨-, rfl⟩ | ⟨v, -, rfl⟩
  · exact .refused (by decide)
  · exact .ok ..

theorem answers_of_load {n : Nat} {sg : Bool} {slot : Slot} {am : AddrMode}
    (h : load n sg slot am s = .next t) : Answers s t := by
  rcases load_eq_next.1 h with ⟨hr, rfl⟩ | ⟨-, v, -, rfl⟩
  · exact .refused hr
  · exact .ok ..

theorem answers_of_fieldAnswer {lsb : BitVec 5} {w : Nat} {v : Word}
    (h : fieldAnswer lsb w v s = .next t) : Answers s t := by
  rcases fieldAnswer_eq_next.1 h with ⟨-, rfl⟩ | ⟨-, rfl⟩
  · exact .refused (by decide)
  · exact .ok ..

theorem exec_answers {i : Instr} (h : exec i s = .next t) : Answers s t := by
  cases i with
  | nop | clrcnt | setie | ckinit | ckbyte | ckread | seek | seekb | flags => cases h; exact .ok ..
  | setmode | start | stop | ack | flush | clrerr => exact answers_of_whenLegal h
  | rdreg => exact answers_of_rdreg h
  | ldu8 | ldu8Cur | lds8 | lds8Cur | ldu16 | ldu16Cur | lds16 | lds16Cur | ld32 | ld32Cur =>
    exact answers_of_load h
  | bits | sbits => exact answers_of_fieldAnswer h

end

end Sys2Proof.Machine

open Sys2Proof Sys2Proof.Machine

/-- Settles O8: the stream step leaves the waiting inputs and the configuration, so what waits after
it is the rest of the same cycle, which is its command. -/
theorem streamEventGoesBeforeCommand : Obligations.StreamEventGoesBeforeCommand := by
  intro s c cs e hw hc hr he
  have hstep : step s = streamStep e (s.awaiting (cyclesAfterStream c cs)) :=
    (step_of_cycles_cons hw hc).trans (cycleStep_of_stream cs hr he)
  refine ⟨fun hcmd => ?_, fun hcmd t ht => ?_⟩
  · rw [hstep, cyclesAfterStream_of_not_cmdValid hcmd, State.awaiting]
  · rw [hstep, cyclesAfterStream_of_cmdValid hcmd] at ht
    obtain ⟨hcfg, -, -, -, -, -, -, hrest⟩ := streamStep_sameHost ht
    rw [State.awaiting_cfg] at hcfg
    rw [State.awaiting_cycles] at hrest
    constructor
    · rw [hrest]
      exact ht
    · calc step t = cycleStep c.commandOnly cs t := step_of_cycles_cons (hcfg ▸ hw) hrest
        _ = commandStep c.cmdWord (t.awaiting cs) := cycleStep_commandOnly t cs hr hcmd

/-- Settles O41: of the two answers of a command the one that is not `OK` is the response alone, and
neither output port reads the response. -/
theorem refusedCommandDoesNothing : Obligations.RefusedCommandDoesNothing := by
  intro i s t r h hrsp hne
  cases exec_answers h with
  | ok u d =>
    cases hrsp
    exact absurd rfl hne
  | refused =>
    cases hrsp
    exact ⟨rfl, rfl, rfl, rfl⟩

end

section
/-! The statements of 70_reset_and_hazards.md: a `Reset` happens alone (R250), what a block shows after
it (R252), and that every step of a sound state answers a next state (R259). -/

namespace Sys2Proof.Machine

/-! ### The cycle of a reset (R250) -/

theorem readyDuring_of_rst {c : Cycle} (s : State) (h : c.rst = true) :
    s.readyDuring c = false := by
  rw [State.readyDuring, h, Bool.not_true, Bool.and_false]

/-- The reset is tested first, so what else the cycle offers does not matter. -/
theorem cycleStep_of_rst {c : Cycle} (s : State) (cs : List Cycle) (h : c.rst = true) :
    cycleStep c cs s = .next (resetStep (s.awaiting cs)) := if_pos h

/-! ### The state after a reset (R252) -/

/-- `RDREG 0` reads the `STATUS` word, the first of the register map. -/
theorem exec_rdreg_status (s : State) :
    exec (.rdreg 0) s = .next { s with rsp := some ⟨.ok, s.statusWord⟩ } :=
  exec_rdreg_assigned rfl

section
variable (p : Params)

theorem resetWith_inReady : (State.resetWith p).inReady = false := rfl

/-- No interrupt is enabled after a reset. -/
theorem resetWith_irq : (State.resetWith p).irq = false := by
  simp [State.irq, State.resetWith]

/-- Every field of the `STATUS` word is 0 after a reset, for no configuration enters it. -/
theorem resetWith_statusWord : (State.resetWith p).statusWord = 0 := by
  rw [State.statusWord, resetWith_inReady, resetWith_irq]
  simp [State.resetWith, ResultCode.code, pathCode, EngineState.code]

theorem resetWith_outputs :
    (State.resetWith p).outputs = ⟨false, true, false, 0, 0, false⟩ := by
  rw [State.outputs, resetWith_inReady, resetWith_irq]
  rfl

end

/-! ### The step is total (R259) -/

/-- A sound state is a twin of itself: its stored bytes can be read. -/
theorem State.Inv.twin_self {s : State} (h : s.Inv) : s.Twin s.buf := h.twin fun _ _ => rfl

/-- Two outcomes that are alike are next states, so the step reads no byte without a value. -/
theorem AnswersAlike.answers {o o' : Host.Outcome State Fault Refusal} (h : AnswersAlike o o') :
    ∃ t, o = .next t := by
  obtain ⟨t, -, ho, -⟩ := h
  exact ⟨t, ho⟩

end Sys2Proof.Machine

open Sys2Proof Sys2Proof.Machine

/-- Settles O53: a step reads only bytes below `POS`, which a sound state has stored, so twins answer
next states (`step_alike`), and a sound state is its own twin. -/
theorem everyStepAnswersNext : Obligations.EveryStepAnswersNext := fun _ h =>
  (step_alike h h.twin_self).answers

/-- Settles O10: the step of the cycle is `resetStep`, which writes every register but `BUF`. -/
theorem resetEventBeatsItsCycle : Obligations.ResetEventBeatsItsCycle := by
  intro s c cs hw hc hr
  refine ⟨readyDuring_of_rst s hr, ?_⟩
  calc step s = cycleStep c cs s := step_of_cycles_cons hw hc
    _ = .next (resetStep (s.awaiting cs)) := cycleStep_of_rst s cs hr

/-- Settles O11: after a reset the block is in `IDLE`, which takes no byte and refuses every load. -/
theorem resetStateOutputs : Obligations.ResetStateOutputs := by
  intro p
  refine ⟨resetWith_outputs p, ?_, fun b => byteStep_of_not_ready (resetWith_inReady p) b,
    fun i n slot am hi => exec_load_badState hi (show EngineState.idle ≠ .done by decide)⟩
  rw [exec_rdreg_status, resetWith_statusWord]

end
